-- ==== Sys2Proof/Word.lean ====
section
/-! DEFINITION. The word types of the block: the 32-bit command word and the 32-bit binary32 word that carries
one `Num` (rules R11, R14, R73). Nothing of the block is narrower than a word but the fields of a command word. -/

namespace Sys2Proof

/-- A 32-bit word: a command word `CW`, or one `Num` as an IEEE 754 binary32 pattern (R11, R14, R73). -/
abbrev Word := BitVec 32

end Sys2Proof
end

