-- ==== Sys2Proof/Config.lean ====
section
/-! DEFINITION. What an implementation fixes (the parameters `NCH`, `BLOCK_MAX`, `RIAA_TABLE` of rules R5, R6, R8)
and the FREE VALUES: constants with no body, of which no proof can learn a value. -/

namespace Sys2Proof

/-- The data model's FilterCoefficients (R18, R24): the five numbers of a biquad transfer function. -/
structure FilterCoefficients (α : Type) where
  b0 : α
  b1 : α
  b2 : α
  a1 : α
  a2 : α
deriving DecidableEq, Repr, Inhabited

/-- The two nominal sample rates that key the RIAA table (R121), in the table's order. -/
inductive RiaaRate where
  | hz44100
  | hz48000
deriving DecidableEq, Repr, Inhabited

/-- `RIAA_TABLE` (R8, R121): exactly two rows, keyed 44100 and 48000. -/
structure RiaaTable (α : Type) where
  row44100 : FilterCoefficients α
  row48000 : FilterCoefficients α
deriving DecidableEq, Repr, Inhabited

/-- The row of the table that a nominal rate selects (R121). -/
def RiaaTable.row {α : Type} (t : RiaaTable α) : RiaaRate → FilterCoefficients α
  | .hz44100 => t.row44100
  | .hz48000 => t.row48000

/-- The implementation parameters a model takes as arguments (R5, R6, R8), the table in the carrier of the number system
(R7). The number system itself, `NUM`, is a record of functions (`Machine/Numerics.lean`) and no data; it is the argument
of every meaning and of the step over it (`Machine/Execute.lean`). -/
structure Config (α : Type) where
  /-- `NCH`, the number of channels (R5). -/
  nch : Nat
  /-- `BLOCK_MAX`, the capacity of each sample buffer (R6). -/
  blockMax : Nat
  /-- `RIAA_TABLE` (R8). -/
  riaaTable : RiaaTable α
  /-- The MODEL's own parameter (log 20), `false` on the default hardware: whether a number system other than R14's binary32
  sends a release that rounding leaves undecayed to 0, as R239 says of a floating-point `NUM`. R14's is the plain product. -/
  releaseUnderflow : Bool
deriving DecidableEq, Repr

/-- The ranges R5 and R6 give the parameters. -/
def Config.wf {α : Type} (c : Config α) : Bool :=
  decide (1 ≤ c.nch ∧ c.nch ≤ 256 ∧ 1 ≤ c.blockMax ∧ c.blockMax ≤ 65535)

/-- FREE VALUE (log 7). The ten numbers of the RIAA table, which the spec leaves open (R8, R121). -/
opaque Config.openRiaaTable : RiaaTable Word

/-- The default hardware: `NCH = 2`, `BLOCK_MAX = 4096` (R5, R6), the RIAA table open, every product R14's (log 20). -/
def Config.default : Config Word :=
  { nch := 2, blockMax := 4096, riaaTable := Config.openRiaaTable, releaseUnderflow := false }

/-- The primitives whose binary32 result U6 leaves open on some operands. -/
inductive FreeOp where
  | add | sub | mul | div | sqrt | neg | abs | min | max
deriving DecidableEq, Repr

/-- The comparisons, whose outcome U6 leaves open on a non-finite operand. -/
inductive FreeCmp where
  | lt | le | eq
deriving DecidableEq, Repr

/-- FREE VALUE (log 9). The word a primitive yields where U6 constrains nothing: the result overflows, the operation
is invalid, or an operand is not finite. "The same each time for the same inputs" (U6), so it is a function of the
operands. A one-operand primitive passes zero as its second operand. -/
opaque Config.freeWord : FreeOp → Word → Word → Word

/-- FREE VALUE (log 9). The outcome of a comparison with a non-finite operand (U6). -/
opaque Config.freeCompare : FreeCmp → Word → Word → Bool

/-- FREE VALUE (log 10). The binary32 result of `exp`, of which R14 lets a model assume only that it depends on the operand
alone and approximates the real function ("an uninterpreted function for proofs"); likewise the three below. -/
opaque Config.expWord : Word → Word
/-- FREE VALUE (log 10). `pow10`. -/
opaque Config.pow10Word : Word → Word
/-- FREE VALUE (log 10). `sin`. -/
opaque Config.sinWord : Word → Word
/-- FREE VALUE (log 10). `cos`. -/
opaque Config.cosWord : Word → Word

end Sys2Proof
end

