-- ==== Sys2Proof/Machine/Binary32.lean ====
section
/-! DEFINITION. IEEE 754 binary32 on words, as rule R14 gives it: every primitive of rule R12 performed once, correctly
rounded to nearest, ties to even. A finite word is read as an exact integer multiple of `2^-149` (the least
subnormal), the operation is computed exactly on those integers, and one rounding narrows the result. Where U6
constrains nothing (overflow, an invalid operation, a non-finite operand) the result is a free value (log 9). -/

namespace Sys2Proof.Machine

/-- Bit 31, the sign (R14). -/
def F32.sign (w : Word) : Bool := w.msb

/-- Bits 30:0: biased exponent and fraction, read as one number (R14). -/
def F32.mag (w : Word) : Nat := w.toNat % 2 ^ 31

/-- The magnitude pattern of infinity; a greater one is a NaN. -/
def F32.infMag : Nat := 0x7F800000

/-- The word is neither an infinity nor a NaN. -/
def F32.isFinite (w : Word) : Bool := decide (F32.mag w < F32.infMag)

/-- The magnitude of a finite pattern, in units of `2^-149`: a subnormal is its own fraction, a normal of biased
exponent `e` is `(2^23 + fraction) * 2^(e-1)` (R14). -/
def F32.magUnits (m : Nat) : Nat :=
  if m < 2 ^ 23 then m else (2 ^ 23 + m % 2 ^ 23) * 2 ^ (m / 2 ^ 23 - 1)

/-- The value of a finite word in units of `2^-149`. -/
def F32.units (w : Word) : Int :=
  if F32.sign w then - (F32.magUnits (F32.mag w) : Int) else (F32.magUnits (F32.mag w) : Int)

/-- The word of a sign and a magnitude pattern. -/
def F32.pack (neg : Bool) (m : Nat) : Word := BitVec.ofNat 32 ((if neg then 2 ^ 31 else 0) + m)

/-- The magnitude pattern nearest to `p / q` units, ties to even (R14); at or above `infMag` it has overflowed.
The quantum is `2^k` units, with `k` the least that leaves a significand of 24 bits. -/
def F32.roundMag (p q : Nat) : Nat :=
  let f := p / q
  let k := if f < 2 ^ 24 then 0 else f.log2 - 23
  let d := q * 2 ^ k
  let n := p / d
  let r := p % d
  let up := decide (d < 2 * r) || (decide (2 * r = d) && decide (n % 2 = 1))
  k * 2 ^ 23 + (if up then n + 1 else n)

/-- A rounded magnitude as a word, or the free value where it has overflowed (U6). -/
def F32.finish (free : Word) (neg : Bool) (m : Nat) : Word :=
  if m < F32.infMag then F32.pack neg m else free

/-- The sum of exact value `z` units; an exact zero is `-0` only for a sum of two negative zeros (log 12). -/
def F32.sumResult (free : Word) (bothNeg : Bool) (z : Int) : Word :=
  if z = 0 then F32.pack bothNeg 0 else F32.finish free (decide (z < 0)) (F32.roundMag z.natAbs 1)

/-- `a + b` (R12, R14). -/
def F32.add (a b : Word) : Word :=
  if F32.isFinite a && F32.isFinite b then
    F32.sumResult (Config.freeWord .add a b) (F32.sign a && F32.sign b) (F32.units a + F32.units b)
  else Config.freeWord .add a b

/-- `a - b` (R12, R14). -/
def F32.sub (a b : Word) : Word :=
  if F32.isFinite a && F32.isFinite b then
    F32.sumResult (Config.freeWord .sub a b) (F32.sign a && !F32.sign b) (F32.units a - F32.units b)
  else Config.freeWord .sub a b

/-- `a * b` (R12, R14): the product of two values in units of `2^-149` is in units of `2^-298`. -/
def F32.mul (a b : Word) : Word :=
  if F32.isFinite a && F32.isFinite b then
    F32.finish (Config.freeWord .mul a b) (F32.sign a ^^ F32.sign b)
      (F32.roundMag (F32.magUnits (F32.mag a) * F32.magUnits (F32.mag b)) (2 ^ 149))
  else Config.freeWord .mul a b

/-- `a / b` (R12, R14); a zero divisor is an invalid operation or an overflow (U6). -/
def F32.div (a b : Word) : Word :=
  if F32.isFinite a && F32.isFinite b && decide (F32.mag b ≠ 0) then
    F32.finish (Config.freeWord .div a b) (F32.sign a ^^ F32.sign b)
      (F32.roundMag (F32.magUnits (F32.mag a) * 2 ^ 149) (F32.magUnits (F32.mag b)))
  else Config.freeWord .div a b

/-- Integer square root, from the bit `2^(bits-1)` down: the greatest `r` built on `acc` with `r * r ≤ n`. -/
def F32.isqrt (n : Nat) : (bits : Nat) → (acc : Nat) → Nat
  | 0, acc => acc
  | i + 1, acc =>
    let t := acc + 2 ^ i
    F32.isqrt n i (if t * t ≤ n then t else acc)

/-- `sqrt(a)` (R12, R14). `sqrt (u * 2^-149) = sqrt (u * 2^149) * 2^-149`; the root is taken exactly to one half unit
with a sticky half, which rounds as the exact root does. A negative operand is an invalid operation (U6). -/
def F32.sqrt (a : Word) : Word :=
  if F32.isFinite a && (!F32.sign a || decide (F32.mag a = 0)) then
    if F32.mag a = 0 then a
    else
      let n := F32.magUnits (F32.mag a) * 2 ^ 149
      let r := F32.isqrt n 214 0
      F32.pack false (F32.roundMag (if r * r = n then 2 * r else 2 * r + 1) 2)
  else Config.freeWord .sqrt a 0

/-- `-a` (R12): exact. -/
def F32.neg (a : Word) : Word :=
  if F32.isFinite a then F32.pack (!F32.sign a) (F32.mag a) else Config.freeWord .neg a 0

/-- `abs(a)` (R12): exact (R14). -/
def F32.abs (a : Word) : Word :=
  if F32.isFinite a then F32.pack false (F32.mag a) else Config.freeWord .abs a 0

/-- `a < b` (R12): exact (R14); the two zeros are equal. -/
def F32.lt (a b : Word) : Bool :=
  if F32.isFinite a && F32.isFinite b then decide (F32.units a < F32.units b) else Config.freeCompare .lt a b

/-- `a <= b` (R12): exact (R14). -/
def F32.le (a b : Word) : Bool :=
  if F32.isFinite a && F32.isFinite b then decide (F32.units a ≤ F32.units b) else Config.freeCompare .le a b

/-- `a == b` (R12): exact (R14); `-0 == +0`. -/
def F32.eq (a b : Word) : Bool :=
  if F32.isFinite a && F32.isFinite b then decide (F32.units a = F32.units b) else Config.freeCompare .eq a b

/-- `min(a, b)` (R12): exact (R14); of two zeros, the first (log 12). -/
def F32.min (a b : Word) : Word :=
  if F32.isFinite a && F32.isFinite b then (if F32.units b < F32.units a then b else a) else Config.freeWord .min a b

/-- `max(a, b)` (R12): exact (R14); of two zeros, the first (log 12). -/
def F32.max (a b : Word) : Word :=
  if F32.isFinite a && F32.isFinite b then (if F32.units a < F32.units b then b else a) else Config.freeWord .max a b

/-- The literal `p / q`, rounded once to the nearest binary32 (R14). -/
def F32.lit (p q : Nat) : Word := F32.pack false (F32.roundMag (p * 2 ^ 149) q)

/-- `PI`, the binary32 nearest to it (log 11). -/
def F32.pi : Word := 0x40490FDB

/-- `exp(a)` (R12, R14): uninterpreted, a function of the operand alone (log 10), but for the underflow R239 states: "with
`release_time` at its floor 0.001 the factor `exp(-1000)` is 0 in binary32". The two words are -1000 and what `-1 / 0.001`
rounds to when 0.001 is the binary32 literal (R14). -/
def F32.exp (a : Word) : Word := if a = 0xC47A0000 ∨ a = 0xC479FFFF then 0 else Config.expWord a

/-- `pow10(a) = 10^a` (R12, R14): uninterpreted (log 10). -/
def F32.pow10 (a : Word) : Word := Config.pow10Word a

/-- `sin(a)` (R12, R14): uninterpreted (log 10). -/
def F32.sin (a : Word) : Word := Config.sinWord a

/-- `cos(a)` (R12, R14): uninterpreted (log 10). -/
def F32.cos (a : Word) : Word := Config.cosWord a

end Sys2Proof.Machine
end

