-- ==== Sys2Proof/Machine/Numerics.lean ====
section
/-! DEFINITION. The numerics record `NUM` of rules R7 and R12: a carrier type and the primitives. Every formula of the
units, and every command's effect, is written once over it, so that one text is read over binary32, where the machine
computes (R14), over the reals, where the spec states its value claims (R15; `Machine/Reference.lean`), and over any
other format. -/

namespace Sys2Proof.Machine

/-- `NUM` (R7, R12): the carrier is `α`. Comparisons answer a Bool; `lit p q` is the literal `p / q`;
`isNumber` says which values of the carrier are numbers (all the reals; in a floating-point format not a NaN or an
infinity, R77 step 5, R216). -/
structure Numerics (α : Type) where
  add : α → α → α
  sub : α → α → α
  mul : α → α → α
  div : α → α → α
  neg : α → α
  abs : α → α
  min : α → α → α
  max : α → α → α
  lt : α → α → Bool
  le : α → α → Bool
  eq : α → α → Bool
  sqrt : α → α
  exp : α → α
  pow10 : α → α
  sin : α → α
  cos : α → α
  pi : α
  lit : Nat → Nat → α
  isNumber : α → Bool

/-- The default hardware instantiation, binary32 (R14). -/
def binary32 : Numerics Word where
  add := F32.add
  sub := F32.sub
  mul := F32.mul
  div := F32.div
  neg := F32.neg
  abs := F32.abs
  min := F32.min
  max := F32.max
  lt := F32.lt
  le := F32.le
  eq := F32.eq
  sqrt := F32.sqrt
  exp := F32.exp
  pow10 := F32.pow10
  sin := F32.sin
  cos := F32.cos
  pi := F32.pi
  lit := F32.lit
  isNumber := F32.isFinite

variable {α : Type}

/-- The whole number `n` as a `Num` (R80). -/
def Numerics.nat (N : Numerics α) (n : Nat) : α := N.lit n 1

/-- `clamp(v, lo, hi) = min(max(v, lo), hi)` (R12). -/
def Numerics.clamp (N : Numerics α) (v lo hi : α) : α := N.min (N.max v lo) hi

/-- `clamp(v, 0, 1)`. -/
def Numerics.clamp01 (N : Numerics α) (v : α) : α := N.clamp v (N.nat 0) (N.nat 1)

/-- `logistic(z) = 1 / (1 + exp(-z))` (R12, R173). -/
def Numerics.logistic (N : Numerics α) (z : α) : α := N.div (N.nat 1) (N.add (N.nat 1) (N.exp (N.neg z)))

/-- The sum of the squares, in index order, starting from 0 (R162, R164). -/
def Numerics.sumSquares (N : Numerics α) (xs : List α) : α :=
  xs.foldl (fun acc x => N.add acc (N.mul x x)) (N.nat 0)

/-- The largest absolute value of a block (R163); 0 for an empty one, which R163 never asks for (log 14). -/
def Numerics.peak (N : Numerics α) : List α → α
  | [] => N.nat 0
  | x :: xs => xs.foldl (fun acc y => N.max acc (N.abs y)) (N.abs x)

end Sys2Proof.Machine
end

