-- ==== Sys2Proof/Syntax.lean ====
section
/-! DEFINITION. The instructions: one constructor per row of the opcode table (R76), with the fields of the command
word the row's format uses (`ch` is `CW[23:16]`, `i` and `n` are `CW[15:0]`, R71, R72) and its operand words in the
table's order (R73). -/

namespace Sys2Proof

inductive Instr where
  /-- NOP (R200). -/
  | nop
  /-- WRIN i, v (R201). -/
  | wrin (i : BitVec 16) (v : Word)
  /-- RDOUT i (R202). -/
  | rdout (i : BitVec 16)
  /-- BQ.PROC ch, x (R103). -/
  | bqProc (ch : BitVec 8) (x : Word)
  /-- BQ.PROCB ch, n (R104). -/
  | bqProcb (ch : BitVec 8) (n : BitVec 16)
  /-- BQ.RESET ch (R105). -/
  | bqReset (ch : BitVec 8)
  /-- BQ.SETC ch, b0, b1, b2, a1, a2 (R101). -/
  | bqSetc (ch : BitVec 8) (b0 b1 b2 a1 a2 : Word)
  /-- BQ.LOWPASS ch, cutoff, q (R102). -/
  | bqLowpass (ch : BitVec 8) (cutoff q : Word)
  /-- RIAA.PROC ch, x (R124). -/
  | riaaProc (ch : BitVec 8) (x : Word)
  /-- RIAA.PROCB ch, n (R125). -/
  | riaaProcb (ch : BitVec 8) (n : BitVec 16)
  /-- RIAA.RESET ch (R126). -/
  | riaaReset (ch : BitVec 8)
  /-- RIAA.NEW ch, sample_rate (R123). -/
  | riaaNew (ch : BitVec 8) (sampleRate : Word)
  /-- SAT.PROC ch, x (R132). -/
  | satProc (ch : BitVec 8) (x : Word)
  /-- SAT.PROCB ch, n (R133). -/
  | satProcb (ch : BitVec 8) (n : BitVec 16)
  /-- SAT.SET ch, saturation, hardness (R131). -/
  | satSet (ch : BitVec 8) (saturation hardness : Word)
  /-- HF.PROC ch, x (R142). -/
  | hfProc (ch : BitVec 8) (x : Word)
  /-- HF.PROCB ch, n (R143). -/
  | hfProcb (ch : BitVec 8) (n : BitVec 16)
  /-- HF.RESET ch (R144). -/
  | hfReset (ch : BitVec 8)
  /-- HF.SET ch, intensity (R141). -/
  | hfSet (ch : BitVec 8) (intensity : Word)
  /-- LIM.PROC ch, x (R152). -/
  | limProc (ch : BitVec 8) (x : Word)
  /-- LIM.PROCB ch, n (R153). -/
  | limProcb (ch : BitVec 8) (n : BitVec 16)
  /-- LIM.RESET ch (R154). -/
  | limReset (ch : BitVec 8)
  /-- LIM.NEW ch, threshold, release_time (R151). -/
  | limNew (ch : BitVec 8) (threshold releaseTime : Word)
  /-- VA.RMS n (R165). -/
  | vaRms (n : BitVec 16)
  /-- VA.CREST n (R166). -/
  | vaCrest (n : BitVec 16)
  /-- VA.TILT n (R167). -/
  | vaTilt (n : BitVec 16)
  /-- VA.SCORE n (R170). -/
  | vaScore (n : BitVec 16)
  /-- MIX dry, wet, mix (R181). -/
  | mix (dry wet mix : Word)
  /-- DB2LIN db (R182). -/
  | db2lin (db : Word)
  /-- SCLIPA x (R184). -/
  | sclipa (x : Word)
  /-- LEGACY.PROCB n, drive_db (R185). -/
  | legacyProcb (n : BitVec 16) (driveDb : Word)
deriving DecidableEq, Repr

end Sys2Proof
end

