-- ==== Sys2Proof/Machine/State.lean ====
section
/-! DEFINITION. The state of the block as plain data (rules R20 to R40), the reasons a command is refused (R211 to
R217), and the state after reset (R40, R230). -/

namespace Sys2Proof.Machine

/-- The unit kinds that have one instance per channel (R19, R75). -/
inductive UnitKind where
  | BQ | RIAA | SAT | HF | LIM
deriving DecidableEq, Repr

/-- The two sample buffers (R50). -/
inductive BufferId where
  | IN | OUT
deriving DecidableEq, Repr

/-- What was out of range (R214): a channel, a buffer index or a block length. -/
inductive RangeField where
  | channel (ch : Nat)
  | index (i : Nat)
  | length (n : Nat)
deriving DecidableEq, Repr

/-- Nobody raises a fault: "The block raises no exception, takes no trap and has no fault state" (R210, log 17). -/
inductive Fault where
deriving DecidableEq, Repr

/-- The reasons a command has no step (R211): the spec's closed list of seven (R212 to R217), one for the input R244
gives no meaning, and the pipeline's own. All are SAFE: the model does less than any hardware would (R211). -/
inductive Refusal where
  /-- Raised by an arm of `exec` whose instruction has no meaning yet; no arm does. Safe. -/
  | notModelled (mnemonic : String)
  /-- `UndefinedOpcode(op)` (R212): raised by the decoder. Safe. -/
  | undefinedOpcode (op : BitVec 8)
  /-- `ReservedFieldNonzero` (R213): raised by the decoder. Safe. -/
  | reservedFieldNonzero
  /-- `OutOfRange(what)` (R214): raised by the range checks of a step and by the operations that reach an instance or
  an element. Safe. -/
  | outOfRange (what : RangeField)
  /-- `NonFiniteOperand(k)` (R216): raised by a step's operand check. Safe. -/
  | nonFiniteOperand (k : Nat)
  /-- `NotConstructed(U, ch)` (R215): raised by the processing and reset commands. Safe. -/
  | notConstructed (u : UnitKind) (ch : Nat)
  /-- `UnwrittenElement(B, i)` (R53, R217): raised by RDOUT, the block commands and the analyzer. Safe. -/
  | unwrittenElement (b : BufferId) (i : Nat)
  /-- `LowpassDomain(cutoff, q)` (R102, R217): raised by BQ.LOWPASS. Safe. -/
  | lowpassDomain (cutoff q : Word)
  /-- A reset arrived between the words of one command, "given no meaning if it does" (R244, log 4): raised by a step.
  Safe. -/
  | commandSplitByReset
deriving DecidableEq, Repr

/-- FilterState (R18, R26, R27): `y1`, `y2` carry the step; `x1`, `x2` are written only with 0 and never read. -/
structure FilterState (α : Type) where
  x1 : α
  x2 : α
  y1 : α
  y2 : α
deriving DecidableEq, Repr

/-- One biquad instance `BQ[ch]` (R24 to R27). -/
structure BiquadUnit (α : Type) where
  V : Bool
  coeffs : FilterCoefficients α
  state : FilterState α
deriving DecidableEq, Repr

/-- One RIAA instance `RIAA[ch]` (R28, R29). -/
structure RiaaUnit (α : Type) where
  V : Bool
  rate : RiaaRate
  coeffs : FilterCoefficients α
  state : FilterState α
deriving DecidableEq, Repr

/-- One shaper instance `SAT[ch]` (R30). -/
structure SatUnit (α : Type) where
  V : Bool
  saturation : α
  hardness : α
deriving DecidableEq, Repr

/-- One HF-recovery instance `HF[ch]` (R31, R32). -/
structure HfUnit (α : Type) where
  V : Bool
  intensity : α
  state : α
deriving DecidableEq, Repr

/-- One limiter instance `LIM[ch]` (R33, R34). -/
structure LimUnit (α : Type) where
  V : Bool
  threshold : α
  releaseTime : α
  envelope : α
deriving DecidableEq, Repr

/-- One written element of a buffer: its index and the number it holds (R50, R53, log 13). -/
abbrev Cell (α : Type) := Nat × α

/-- A sample buffer: its written elements, indexes strictly rising. An element that is not listed is unwritten (R53);
there is no value it reads as. -/
abbrev Buffer (α : Type) := List (Cell α)

/-- The two data address spaces (R50), which are disjoint (R52). -/
structure Memory (α : Type) where
  inBuf : Buffer α
  outBuf : Buffer α
deriving DecidableEq, Repr

/-- What the host does at the block's inputs (R70, R230, R243): it sends one word, or asserts reset. -/
inductive HostEvent where
  | word (w : Word)
  | reset
deriving DecidableEq, Repr

/-- The state of the block (R23) over a number system with carrier `α` (R7), with the configuration (log 6) and the
results it has put out (log 2). -/
structure BlockState (α : Type) where
  /-- The parameters R5, R6, R8: fixed, carried here so that every statement holds for all of them (log 6). -/
  cfg : Config α
  /-- `BQ[ch]`, `0 ≤ ch < NCH` (R23). -/
  bq : List (BiquadUnit α)
  /-- `RIAA[ch]` (R23). -/
  riaa : List (RiaaUnit α)
  /-- `SAT[ch]` (R23). -/
  sat : List (SatUnit α)
  /-- `HF[ch]` (R23). -/
  hf : List (HfUnit α)
  /-- `LIM[ch]` (R23). -/
  lim : List (LimUnit α)
  /-- `IN` and `OUT` (R35). -/
  mem : Memory α
  /-- The results put on the response port, oldest first (R74, log 2). -/
  resp : List α
deriving DecidableEq, Repr

/-- The whole state of the default hardware: the block over binary32 words (R14), and its command port. -/
structure State extends BlockState Word where
  /-- What has arrived at the command port and the reset input and is not yet consumed, oldest first (log 2). -/
  port : List HostEvent
deriving DecidableEq, Repr

/-- Coefficient registers after reset: they hold no value (R40); the model names zero (log 8). Here and below the zero of
the number system is the argument. -/
def FilterCoefficients.reset {α : Type} (zero : α) : FilterCoefficients α :=
  { b0 := zero, b1 := zero, b2 := zero, a1 := zero, a2 := zero }

/-- The filter state after reset: all four 0 (R26, R27, R40). -/
def FilterState.reset {α : Type} (zero : α) : FilterState α := { x1 := zero, x2 := zero, y1 := zero, y2 := zero }

/-- `BQ[ch]` after reset (R40). -/
def BiquadUnit.reset {α : Type} (zero : α) : BiquadUnit α :=
  { V := false, coeffs := FilterCoefficients.reset zero, state := FilterState.reset zero }

/-- `RIAA[ch]` after reset (R40); `rate` holds no value and the model names the first row (log 8). -/
def RiaaUnit.reset {α : Type} (zero : α) : RiaaUnit α :=
  { V := false, rate := .hz44100, coeffs := FilterCoefficients.reset zero, state := FilterState.reset zero }

/-- `SAT[ch]` after reset (R40, log 8). -/
def SatUnit.reset {α : Type} (zero : α) : SatUnit α := { V := false, saturation := zero, hardness := zero }

/-- `HF[ch]` after reset (R40, log 8). -/
def HfUnit.reset {α : Type} (zero : α) : HfUnit α := { V := false, intensity := zero, state := zero }

/-- `LIM[ch]` after reset (R40, log 8). -/
def LimUnit.reset {α : Type} (zero : α) : LimUnit α :=
  { V := false, threshold := zero, releaseTime := zero, envelope := zero }

/-- Every element of both buffers unwritten (R40). -/
def Memory.reset {α : Type} : Memory α := { inBuf := [], outBuf := [] }

/-- The block after reset (R40), for any configuration, with the results already put out. -/
def BlockState.afterReset {α : Type} (zero : α) (cfg : Config α) (resp : List α) : BlockState α :=
  { cfg := cfg
    bq := List.replicate cfg.nch (BiquadUnit.reset zero)
    riaa := List.replicate cfg.nch (RiaaUnit.reset zero)
    sat := List.replicate cfg.nch (SatUnit.reset zero)
    hf := List.replicate cfg.nch (HfUnit.reset zero)
    lim := List.replicate cfg.nch (LimUnit.reset zero)
    mem := Memory.reset
    resp := resp }

/-- The hardware after reset (R40), with given ports. -/
def State.afterReset (cfg : Config Word) (port : List HostEvent) (resp : List Word) : State :=
  { BlockState.afterReset 0 cfg resp with port := port }

/-- The default hardware right after reset (R40), nothing sent to it yet. -/
def State.reset : State := State.afterReset Config.default [] []

end Sys2Proof.Machine
end

