-- ==== Sys2Proof/Machine/Flags.lean ====
section
/-! DEFINITION. The only flags the block has (R22): the valid bit `V` of an instance and the written bit of a buffer
element. No command computes a condition code. -/

namespace Sys2Proof.Machine

/-- `NotConstructed(U, ch)` when the valid bit is 0 (R22, R215). -/
def requireValid {U : Type} (kind : UnitKind) (ch : BitVec 8) (V : Bool) (u : U) : Except Refusal U :=
  if V then .ok u else .error (.notConstructed kind ch.toNat)

/-- The value of an element, if its written bit is 1 (R53). -/
def Buffer.read {α : Type} : Buffer α → Nat → Option α
  | [], _ => none
  | (j, v) :: b, i => if j = i then some v else Buffer.read b i

/-- The written bit of an element (R22, R53). -/
def Buffer.written {α : Type} (b : Buffer α) (i : Nat) : Bool := (Buffer.read b i).isSome

end Sys2Proof.Machine
end

