-- ==== Sys2Proof/Machine/Ops.lean ====
section
/-! DEFINITION. The named operations over the unit registers, the buffers and the ports. There is no exception to take
and none to return from (R210, R222): a command either completes or is refused with no state change (R211), which
`Host.Outcome.refused` says. -/

namespace Sys2Proof.Machine

variable {α : Type}

/-- The outcome of one command of the machine. -/
abbrev Outcome := Host.Outcome State Fault Refusal

/-- Why a command over some number system has no step: a reason that names no number, or BQ.LOWPASS's, which names its
operands (R102, R217). -/
inductive Reason (α : Type) where
  | plain (r : Refusal)
  | lowpassDomain (cutoff q : α)
deriving DecidableEq, Repr

/-- The effect of one command on the block over some number system: the next state, or why there is none (R16, R211). -/
abbrev Effect (α : Type) := Except (Reason α) (BlockState α)

/-- The machine's outcome of a command: its effect on the block over binary32, the command port untouched. -/
def State.perform (s : State) (effect : BlockState Word → Effect Word) : Outcome :=
  match effect s.toBlockState with
  | .ok b => .next { s with toBlockState := b }
  | .error (.plain r) => .refused r
  | .error (.lowpassDomain cutoff q) => .refused (.lowpassDomain cutoff q)

/-- A command's checks, then its effect: refused with no state change where a check fails (R211), else completed. -/
def checked {A : Type} (check : Except Refusal A) (effect : A → Effect α) : Effect α :=
  match check with
  | .error r => .error (.plain r)
  | .ok a => effect a

/-- The instance a command addresses (R13); there is none at `ch >= NCH` (R214, log 15). -/
def instanceAt {U : Type} (us : List U) (ch : BitVec 8) : Except Refusal U :=
  match us[ch.toNat]? with
  | none => .error (.outOfRange (.channel ch.toNat))
  | some u => .ok u

/-- The instance a processing or reset command addresses: it must have been constructed (R22, R215). -/
def constructedAt {U : Type} (kind : UnitKind) (V : U → Bool) (us : List U) (ch : BitVec 8) : Except Refusal U :=
  match instanceAt us ch with
  | .error r => .error r
  | .ok u => requireValid kind ch (V u) u

/-- Buffers in canonical form: indexes strictly rising, every listed element written (log 13). -/
abbrev Buffer.wf (b : Buffer α) : Prop := b.Pairwise (fun c d => c.1 < d.1)

/-- Both buffers in canonical form. -/
abbrev Memory.wf (m : Memory α) : Prop := Buffer.wf m.inBuf ∧ Buffer.wf m.outBuf

/-- Every listed element lies in the buffer (R50). -/
abbrev Buffer.within (b : Buffer α) (blockMax : Nat) : Prop := ∀ c ∈ b, c.1 < blockMax

/-- `MemWrite(B, i, v)` (R13, R53): stores `v` and sets the written bit; the list stays sorted. -/
def Buffer.write : Buffer α → Nat → α → Buffer α
  | [], i, v => [(i, v)]
  | (j, w) :: b, i, v =>
    if i < j then (i, v) :: (j, w) :: b
    else if i = j then (i, v) :: b
    else (j, w) :: Buffer.write b i v

/-- `MemWrite(B, i, y)`, `MemWrite(B, i+1, y')`, … in increasing index order (R203). -/
def Buffer.writeFrom : Buffer α → Nat → List α → Buffer α
  | b, _, [] => b
  | b, i, y :: ys => Buffer.writeFrom (Buffer.write b i y) (i + 1) ys

/-- `MemRead` of the `k` elements from index `i` (R13, R53), or the index of the first that is unwritten. -/
def Buffer.readFrom (b : Buffer α) : (i k : Nat) → Except Nat (List α)
  | _, 0 => .ok []
  | i, k + 1 =>
    match Buffer.read b i with
    | none => .error i
    | some v =>
      match Buffer.readFrom b (i + 1) k with
      | .error j => .error j
      | .ok vs => .ok (v :: vs)

/-- The block operand `IN[0..n-1]` (R161, R203): all of it must be written, else `UnwrittenElement(IN, i)` for the
least unwritten `i`. -/
def readBlock (s : BlockState α) (n : BitVec 16) : Except Refusal (List α) :=
  match Buffer.readFrom s.mem.inBuf 0 n.toNat with
  | .error i => .error (.unwrittenElement .IN i)
  | .ok xs => .ok xs

/-- A block length is at most `BLOCK_MAX` (R214, log 15). -/
def requireLength (s : BlockState α) (n : BitVec 16) : Except Refusal Unit :=
  if n.toNat ≤ s.cfg.blockMax then .ok () else .error (.outOfRange (.length n.toNat))

/-- A buffer index is below `BLOCK_MAX` (R50, R214, log 15). -/
def requireIndex (s : BlockState α) (i : BitVec 16) : Except Refusal Unit :=
  if i.toNat < s.cfg.blockMax then .ok () else .error (.outOfRange (.index i.toNat))

/-- `result <- v` (R13, R70): one result on the response port. -/
def BlockState.respond (s : BlockState α) (v : α) : BlockState α := { s with resp := s.resp ++ [v] }

/-- `BQ[ch] <- u` (R13). -/
def BlockState.setBq (s : BlockState α) (ch : BitVec 8) (u : BiquadUnit α) : BlockState α := { s with bq := s.bq.set ch.toNat u }

/-- `RIAA[ch] <- u` (R13). -/
def BlockState.setRiaa (s : BlockState α) (ch : BitVec 8) (u : RiaaUnit α) : BlockState α := { s with riaa := s.riaa.set ch.toNat u }

/-- `SAT[ch] <- u` (R13). -/
def BlockState.setSat (s : BlockState α) (ch : BitVec 8) (u : SatUnit α) : BlockState α := { s with sat := s.sat.set ch.toNat u }

/-- `HF[ch] <- u` (R13). -/
def BlockState.setHf (s : BlockState α) (ch : BitVec 8) (u : HfUnit α) : BlockState α := { s with hf := s.hf.set ch.toNat u }

/-- `LIM[ch] <- u` (R13). -/
def BlockState.setLim (s : BlockState α) (ch : BitVec 8) (u : LimUnit α) : BlockState α := { s with lim := s.lim.set ch.toNat u }

/-- `MemWrite(IN, i, v)` (R13). -/
def BlockState.writeIn (s : BlockState α) (i : Nat) (v : α) : BlockState α :=
  { s with mem := { s.mem with inBuf := Buffer.write s.mem.inBuf i v } }

/-- `MemWrite(OUT, 0, y0)`, `MemWrite(OUT, 1, y1)`, … (R203). -/
def BlockState.writeOut (s : BlockState α) (ys : List α) : BlockState α :=
  { s with mem := { s.mem with outBuf := Buffer.writeFrom s.mem.outBuf 0 ys } }

/-- The element steps of a block command in index order, each seeing the unit state the previous one left, and the
results they yield (R203). -/
def runBlock {σ : Type} (step : σ → α → σ × α) : σ → List α → σ × List α
  | u, [] => (u, [])
  | u, x :: xs =>
    let r := step u x
    let rest := runBlock step r.1 xs
    (rest.1, r.2 :: rest.2)

/-- The checks of a block command with a unit, all before any state change, in the order of R203 and R218: the
instance exists, the length fits, the instance is constructed, `IN[0..n-1]` is written. -/
def blockOperands {U : Type} (kind : UnitKind) (V : U → Bool) (us : List U) (ch : BitVec 8) (n : BitVec 16)
    (s : BlockState α) : Except Refusal (U × List α) :=
  match instanceAt us ch with
  | .error r => .error r
  | .ok u =>
    match requireLength s n with
    | .error r => .error r
    | .ok () =>
      match requireValid kind ch (V u) u with
      | .error r => .error r
      | .ok u =>
        match readBlock s n with
        | .error r => .error r
        | .ok xs => .ok (u, xs)

/-- The checks of a block or analyzer command without a unit (R161, R203). -/
def plainBlock (n : BitVec 16) (s : BlockState α) : Except Refusal (List α) :=
  match requireLength s n with
  | .error r => .error r
  | .ok () => readBlock s n

end Sys2Proof.Machine
end

