-- ==== Sys2Proof/Machine/Analyzer.lean ====
section
/-! DEFINITION. The Velocity Analyzer commands (`45_velocity_analyzer.md`): pure functions of the block
`x[0], …, x[n-1]`, here the list of its samples. -/

namespace Sys2Proof.Machine

variable {α : Type}

/-- `rms(n)` (R162). -/
def rms (N : Numerics α) (xs : List α) : α :=
  if xs.length = 0 then N.nat 0 else N.sqrt (N.div (N.sumSquares xs) (N.nat xs.length))

/-- `crest(n)` (R163): the test `r == 0` is an exact comparison. -/
def crest (N : Numerics α) (xs : List α) : α :=
  let r := rms N xs
  if N.eq r (N.nat 0) then N.nat 0 else N.div (N.peak xs) r

/-- `tilt(n)` (R164): the energies of the first and the last `q = floor(n/4)` samples. -/
def tilt (N : Numerics α) (xs : List α) : α :=
  if xs.length < 4 then N.lit 1 2
  else
    let q := xs.length / 4
    let e1 := N.sumSquares (xs.take q)
    let e2 := N.sumSquares (xs.drop (xs.length - q))
    if N.eq e1 (N.nat 0) && N.eq e2 (N.nat 0) then N.lit 1 2 else N.div e1 (N.add e1 e2)

/-- `rms_norm(n)` (R168). -/
def rmsNorm (N : Numerics α) (xs : List α) : α := N.min (N.mul (rms N xs) (N.nat 10)) (N.nat 1)

/-- `crest_norm(n)` (R168). -/
def crestNorm (N : Numerics α) (xs : List α) : α := N.clamp01 (N.div (N.sub (crest N xs) (N.nat 1)) (N.nat 10))

/-- `score(n)` (R169), summed left to right. -/
def score (N : Numerics α) (xs : List α) : α :=
  N.add (N.add (N.mul (N.lit 1 2) (rmsNorm N xs)) (N.mul (N.lit 3 10) (crestNorm N xs)))
    (N.mul (N.lit 1 5) (tilt N xs))

/-- `velocity(n) = logistic(score(n) * 2 - 1)` (R169, R173). -/
def velocity (N : Numerics α) (xs : List α) : α :=
  N.logistic (N.sub (N.mul (score N xs) (N.nat 2)) (N.nat 1))

/-- VA.RMS (R165). -/
def runVaRms (N : Numerics α) (n : BitVec 16) (s : BlockState α) : Effect α :=
  checked (plainBlock n s) fun xs => .ok (s.respond (rms N xs))

/-- VA.CREST (R166). -/
def runVaCrest (N : Numerics α) (n : BitVec 16) (s : BlockState α) : Effect α :=
  checked (plainBlock n s) fun xs => .ok (s.respond (crest N xs))

/-- VA.TILT (R167): all of `IN[0..n-1]` is checked, not only the two quarters. -/
def runVaTilt (N : Numerics α) (n : BitVec 16) (s : BlockState α) : Effect α :=
  checked (plainBlock n s) fun xs => .ok (s.respond (tilt N xs))

/-- VA.SCORE (R170). -/
def runVaScore (N : Numerics α) (n : BitVec 16) (s : BlockState α) : Effect α :=
  checked (plainBlock n s) fun xs => .ok (s.respond (velocity N xs))

/-! ### The meanings over the machine's binary32 -/

/-- VA.RMS on the machine (R165, R14). -/
def execVaRms (n : BitVec 16) (s : State) : Outcome := s.perform (runVaRms binary32 n)

/-- VA.CREST on the machine (R166, R14). -/
def execVaCrest (n : BitVec 16) (s : State) : Outcome := s.perform (runVaCrest binary32 n)

/-- VA.TILT on the machine (R167, R14). -/
def execVaTilt (n : BitVec 16) (s : State) : Outcome := s.perform (runVaTilt binary32 n)

/-- VA.SCORE on the machine (R170, R14). -/
def execVaScore (n : BitVec 16) (s : State) : Outcome := s.perform (runVaScore binary32 n)

end Sys2Proof.Machine
end

