-- ==== Sys2Proof/Machine/Biquad.lean ====
section
/-! DEFINITION. The Biquad Filter commands (`40_biquad.md`): formulas over any `NUM`, and the five meanings over the
machine's binary32. -/

namespace Sys2Proof.Machine

variable {α : Type}

/-- FilterState all 0: what a reset command and a constructor leave (R26, R27, R101, R105). -/
def FilterState.zeroed (N : Numerics α) : FilterState α :=
  { x1 := N.nat 0, x2 := N.nat 0, y1 := N.nat 0, y2 := N.nat 0 }

/-- One Direct-Form-II-Transposed step (R103): the new state and the output sample. `x1`, `x2` are not written. -/
def dfiiStep (N : Numerics α) (c : FilterCoefficients α) (z : FilterState α) (x : α) : FilterState α × α :=
  let y := N.add (N.mul c.b0 x) z.y1
  let n1 := N.add (N.sub (N.mul c.b1 x) (N.mul c.a1 y)) z.y2
  let n2 := N.sub (N.mul c.b2 x) (N.mul c.a2 y)
  ({ z with y1 := n1, y2 := n2 }, y)

/-- The domain of BQ.LOWPASS: `0 < cutoff < 0.5` and `q > 0` (R102). -/
def lowpassDomain (N : Numerics α) (cutoff q : α) : Bool :=
  N.lt (N.nat 0) cutoff && N.lt cutoff (N.lit 1 2) && N.lt (N.nat 0) q

/-- The lowpass coefficients of the Audio EQ Cookbook, as R102 writes them. -/
def lowpassCoefficients (N : Numerics α) (cutoff q : α) : FilterCoefficients α :=
  let w0 := N.mul (N.mul (N.nat 2) N.pi) cutoff
  let cw := N.cos w0
  let sw := N.sin w0
  let alpha := N.div sw (N.mul (N.nat 2) q)
  let a0 := N.add (N.nat 1) alpha
  { b0 := N.div (N.div (N.sub (N.nat 1) cw) (N.nat 2)) a0
    b1 := N.div (N.sub (N.nat 1) cw) a0
    b2 := N.div (N.div (N.sub (N.nat 1) cw) (N.nat 2)) a0
    a1 := N.div (N.mul (N.neg (N.nat 2)) cw) a0
    a2 := N.div (N.sub (N.nat 1) alpha) a0 }

/-- The constructors' common effect: five coefficients, zero state, `V <- 1` (R101, R102). -/
def BiquadUnit.construct (N : Numerics α) (c : FilterCoefficients α) : BiquadUnit α :=
  { V := true, coeffs := c, state := FilterState.zeroed N }

/-- The step of R103 on an instance. -/
def BiquadUnit.proc (N : Numerics α) (u : BiquadUnit α) (x : α) : BiquadUnit α × α :=
  let r := dfiiStep N u.coeffs u.state x
  ({ u with state := r.1 }, r.2)

/-- The reset of R105: the state to 0; coefficients and `V` unchanged. -/
def BiquadUnit.cleared (N : Numerics α) (u : BiquadUnit α) : BiquadUnit α := { u with state := FilterState.zeroed N }

/-- BQ.SETC (R101). -/
def runBqSetc (N : Numerics α) (ch : BitVec 8) (b0 b1 b2 a1 a2 : α) (s : BlockState α) : Effect α :=
  checked (instanceAt s.bq ch) fun _ =>
    .ok (s.setBq ch (BiquadUnit.construct N { b0 := b0, b1 := b1, b2 := b2, a1 := a1, a2 := a2 }))

/-- BQ.LOWPASS (R102): outside its domain it is refused and an earlier construction is kept. -/
def runBqLowpass (N : Numerics α) (ch : BitVec 8) (cutoff q : α) (s : BlockState α) : Effect α :=
  checked (instanceAt s.bq ch) fun _ =>
    if lowpassDomain N cutoff q then
      .ok (s.setBq ch (BiquadUnit.construct N (lowpassCoefficients N cutoff q)))
    else .error (.lowpassDomain cutoff q)

/-- BQ.PROC (R103). -/
def runBqProc (N : Numerics α) (ch : BitVec 8) (x : α) (s : BlockState α) : Effect α :=
  checked (constructedAt .BQ (·.V) s.bq ch) fun u =>
    let r := BiquadUnit.proc N u x
    .ok ((s.setBq ch r.1).respond r.2)

/-- BQ.PROCB (R104). -/
def runBqProcb (N : Numerics α) (ch : BitVec 8) (n : BitVec 16) (s : BlockState α) : Effect α :=
  checked (blockOperands .BQ (·.V) s.bq ch n s) fun ⟨u, xs⟩ =>
    let r := runBlock (BiquadUnit.proc N) u xs
    .ok ((s.setBq ch r.1).writeOut r.2)

/-- BQ.RESET (R105). -/
def runBqReset (N : Numerics α) (ch : BitVec 8) (s : BlockState α) : Effect α :=
  checked (constructedAt .BQ (·.V) s.bq ch) fun u => .ok (s.setBq ch (BiquadUnit.cleared N u))

/-! ### The meanings over the machine's binary32 -/

/-- BQ.SETC on the machine (R101, R14). -/
def execBqSetc (ch : BitVec 8) (b0 b1 b2 a1 a2 : Word) (s : State) : Outcome :=
  s.perform (runBqSetc binary32 ch b0 b1 b2 a1 a2)

/-- BQ.LOWPASS on the machine (R102, R14). -/
def execBqLowpass (ch : BitVec 8) (cutoff q : Word) (s : State) : Outcome :=
  s.perform (runBqLowpass binary32 ch cutoff q)

/-- BQ.PROC on the machine (R103, R14). -/
def execBqProc (ch : BitVec 8) (x : Word) (s : State) : Outcome := s.perform (runBqProc binary32 ch x)

/-- BQ.PROCB on the machine (R104, R14). -/
def execBqProcb (ch : BitVec 8) (n : BitVec 16) (s : State) : Outcome := s.perform (runBqProcb binary32 ch n)

/-- BQ.RESET on the machine (R105, R14). -/
def execBqReset (ch : BitVec 8) (s : State) : Outcome := s.perform (runBqReset binary32 ch)

end Sys2Proof.Machine
end

