-- ==== Sys2Proof/Machine/HfRecovery.lean ====
section
/-! DEFINITION. The Parallel HF-Recovery Filter commands (`43_hf_recovery.md`). -/

namespace Sys2Proof.Machine

variable {α : Type}

/-- The output of one step (R142), a function of intensity, previous sample and input. -/
def hfOutput (N : Numerics α) (t state input : α) : α :=
  let boosted := N.add input (N.mul (N.sub input state) (N.lit 1 2))
  N.add (N.mul input (N.sub (N.nat 1) t)) (N.mul boosted t)

/-- HF.SET's effect: `intensity` clamped to [0, 1], `V <- 1`; the history is not touched (R141). -/
def HfUnit.configure (N : Numerics α) (u : HfUnit α) (intensity : α) : HfUnit α :=
  { u with V := true, intensity := N.clamp01 intensity }

/-- One step: the output, and the input as the new history (R142). -/
def HfUnit.proc (N : Numerics α) (u : HfUnit α) (x : α) : HfUnit α × α :=
  ({ u with state := x }, hfOutput N u.intensity u.state x)

/-- The reset of R144: the history to 0; `intensity` and `V` unchanged. -/
def HfUnit.cleared (N : Numerics α) (u : HfUnit α) : HfUnit α := { u with state := N.nat 0 }

/-- HF.SET (R141). -/
def runHfSet (N : Numerics α) (ch : BitVec 8) (intensity : α) (s : BlockState α) : Effect α :=
  checked (instanceAt s.hf ch) fun u => .ok (s.setHf ch (HfUnit.configure N u intensity))

/-- HF.PROC (R142). -/
def runHfProc (N : Numerics α) (ch : BitVec 8) (x : α) (s : BlockState α) : Effect α :=
  checked (constructedAt .HF (·.V) s.hf ch) fun u =>
    let r := HfUnit.proc N u x
    .ok ((s.setHf ch r.1).respond r.2)

/-- HF.PROCB (R143). -/
def runHfProcb (N : Numerics α) (ch : BitVec 8) (n : BitVec 16) (s : BlockState α) : Effect α :=
  checked (blockOperands .HF (·.V) s.hf ch n s) fun ⟨u, xs⟩ =>
    let r := runBlock (HfUnit.proc N) u xs
    .ok ((s.setHf ch r.1).writeOut r.2)

/-- HF.RESET (R144). -/
def runHfReset (N : Numerics α) (ch : BitVec 8) (s : BlockState α) : Effect α :=
  checked (constructedAt .HF (·.V) s.hf ch) fun u => .ok (s.setHf ch (HfUnit.cleared N u))

/-! ### The meanings over the machine's binary32 -/

/-- HF.SET on the machine (R141, R14). -/
def execHfSet (ch : BitVec 8) (intensity : Word) (s : State) : Outcome := s.perform (runHfSet binary32 ch intensity)

/-- HF.PROC on the machine (R142, R14). -/
def execHfProc (ch : BitVec 8) (x : Word) (s : State) : Outcome := s.perform (runHfProc binary32 ch x)

/-- HF.PROCB on the machine (R143, R14). -/
def execHfProcb (ch : BitVec 8) (n : BitVec 16) (s : State) : Outcome := s.perform (runHfProcb binary32 ch n)

/-- HF.RESET on the machine (R144, R14). -/
def execHfReset (ch : BitVec 8) (s : State) : Outcome := s.perform (runHfReset binary32 ch)

end Sys2Proof.Machine
end

