-- ==== Sys2Proof/Machine/Limiter.lean ====
section
/-! DEFINITION. The Limiter commands (`44_limiter.md`): the formula as written, the gain not limited to 1 (R156). -/

namespace Sys2Proof.Machine

variable {α : Type}

/-- One release: the envelope times the factor, one primitive product of `NUM` (R152, R14, D1); that is all it is on the
default hardware, where `underflows` (`cfg.releaseUnderflow`) is `false`. With `true` it is a floating-point `NUM` in which a
decaying envelope always ends at exactly 0, as R239 says: a positive envelope that a factor below 1 leaves undecayed
underflows to 0. R14's rounding itself ends at 0 only for factors up to 1/2 (log 20). Over the reals the two are one. -/
def limRelease (N : Numerics α) (underflows : Bool) (envelope factor : α) : α :=
  let decayed := N.mul envelope factor
  if underflows && N.lt (N.nat 0) envelope && N.lt factor (N.nat 1) && N.le envelope decayed then N.nat 0 else decayed

/-- The envelope after a step: instant attack above the threshold, else one release by the factor `exp(-1/release_time)`
(R152). -/
def limEnvelope (N : Numerics α) (underflows : Bool) (thr releaseTime envelope input : α) : α :=
  if N.lt thr (N.abs input) then N.abs input
  else limRelease N underflows envelope (N.exp (N.div (N.neg (N.nat 1)) releaseTime))

/-- The output, from the envelope of this same step (R152): `(input * thr) / env`, or the input unchanged. -/
def limOutput (N : Numerics α) (thr env input : α) : α :=
  if N.lt (N.nat 0) env then N.div (N.mul input thr) env else input

/-- LIM.NEW's effect: `threshold` clamped to [0, 1], `release_time` floored at 0.001, zero envelope, `V <- 1` (R151). -/
def LimUnit.construct (N : Numerics α) (threshold releaseTime : α) : LimUnit α :=
  { V := true, threshold := N.clamp01 threshold, releaseTime := N.max releaseTime (N.lit 1 1000), envelope := N.nat 0 }

/-- One step: the envelope first, then the output from it (R152). -/
def LimUnit.proc (N : Numerics α) (underflows : Bool) (u : LimUnit α) (x : α) : LimUnit α × α :=
  let env := limEnvelope N underflows u.threshold u.releaseTime u.envelope x
  ({ u with envelope := env }, limOutput N u.threshold env x)

/-- The reset of R154: the envelope to 0; the parameters and `V` unchanged. -/
def LimUnit.cleared (N : Numerics α) (u : LimUnit α) : LimUnit α := { u with envelope := N.nat 0 }

/-- LIM.NEW (R151). -/
def runLimNew (N : Numerics α) (ch : BitVec 8) (threshold releaseTime : α) (s : BlockState α) : Effect α :=
  checked (instanceAt s.lim ch) fun _ => .ok (s.setLim ch (LimUnit.construct N threshold releaseTime))

/-- LIM.PROC (R152). -/
def runLimProc (N : Numerics α) (ch : BitVec 8) (x : α) (s : BlockState α) : Effect α :=
  checked (constructedAt .LIM (·.V) s.lim ch) fun u =>
    let r := LimUnit.proc N s.cfg.releaseUnderflow u x
    .ok ((s.setLim ch r.1).respond r.2)

/-- LIM.PROCB (R153). -/
def runLimProcb (N : Numerics α) (ch : BitVec 8) (n : BitVec 16) (s : BlockState α) : Effect α :=
  checked (blockOperands .LIM (·.V) s.lim ch n s) fun ⟨u, xs⟩ =>
    let r := runBlock (LimUnit.proc N s.cfg.releaseUnderflow) u xs
    .ok ((s.setLim ch r.1).writeOut r.2)

/-- LIM.RESET (R154). -/
def runLimReset (N : Numerics α) (ch : BitVec 8) (s : BlockState α) : Effect α :=
  checked (constructedAt .LIM (·.V) s.lim ch) fun u => .ok (s.setLim ch (LimUnit.cleared N u))

/-! ### The meanings over the machine's binary32 -/

/-- LIM.NEW on the machine (R151, R14). -/
def execLimNew (ch : BitVec 8) (threshold releaseTime : Word) (s : State) : Outcome :=
  s.perform (runLimNew binary32 ch threshold releaseTime)

/-- LIM.PROC on the machine (R152, R14). -/
def execLimProc (ch : BitVec 8) (x : Word) (s : State) : Outcome := s.perform (runLimProc binary32 ch x)

/-- LIM.PROCB on the machine (R153, R14). -/
def execLimProcb (ch : BitVec 8) (n : BitVec 16) (s : State) : Outcome := s.perform (runLimProcb binary32 ch n)

/-- LIM.RESET on the machine (R154, R14). -/
def execLimReset (ch : BitVec 8) (s : State) : Outcome := s.perform (runLimReset binary32 ch)

end Sys2Proof.Machine
end

