-- ==== Sys2Proof/Machine/Riaa.lean ====
section
/-! DEFINITION. The RIAA Equalizer commands (`41_riaa.md`): the biquad step on coefficients that a nominal sample rate
selects. -/

namespace Sys2Proof.Machine

variable {α : Type}

/-- `snap(sr)`: the nearer of 44100 and 48000, ties to 44100 (R122). -/
def snapRate (N : Numerics α) (sr : α) : RiaaRate :=
  if N.le (N.abs (N.sub sr (N.nat 44100))) (N.abs (N.sub sr (N.nat 48000))) then .hz44100 else .hz48000

/-- The constructor's effect: the snapped rate, its table row, zero state, `V <- 1` (R123). -/
def RiaaUnit.construct (N : Numerics α) (table : RiaaTable α) (sr : α) : RiaaUnit α :=
  { V := true, rate := snapRate N sr, coeffs := table.row (snapRate N sr), state := FilterState.zeroed N }

/-- The step of R103 on the registers of an RIAA instance (R124). -/
def RiaaUnit.proc (N : Numerics α) (u : RiaaUnit α) (x : α) : RiaaUnit α × α :=
  let r := dfiiStep N u.coeffs u.state x
  ({ u with state := r.1 }, r.2)

/-- The reset of R126: the state to 0; coefficients, `rate` and `V` unchanged. -/
def RiaaUnit.cleared (N : Numerics α) (u : RiaaUnit α) : RiaaUnit α := { u with state := FilterState.zeroed N }

/-- RIAA.NEW (R123). -/
def runRiaaNew (N : Numerics α) (ch : BitVec 8) (sampleRate : α) (s : BlockState α) : Effect α :=
  checked (instanceAt s.riaa ch) fun _ => .ok (s.setRiaa ch (RiaaUnit.construct N s.cfg.riaaTable sampleRate))

/-- RIAA.PROC (R124). -/
def runRiaaProc (N : Numerics α) (ch : BitVec 8) (x : α) (s : BlockState α) : Effect α :=
  checked (constructedAt .RIAA (·.V) s.riaa ch) fun u =>
    let r := RiaaUnit.proc N u x
    .ok ((s.setRiaa ch r.1).respond r.2)

/-- RIAA.PROCB (R125). -/
def runRiaaProcb (N : Numerics α) (ch : BitVec 8) (n : BitVec 16) (s : BlockState α) : Effect α :=
  checked (blockOperands .RIAA (·.V) s.riaa ch n s) fun ⟨u, xs⟩ =>
    let r := runBlock (RiaaUnit.proc N) u xs
    .ok ((s.setRiaa ch r.1).writeOut r.2)

/-- RIAA.RESET (R126). -/
def runRiaaReset (N : Numerics α) (ch : BitVec 8) (s : BlockState α) : Effect α :=
  checked (constructedAt .RIAA (·.V) s.riaa ch) fun u => .ok (s.setRiaa ch (RiaaUnit.cleared N u))

/-! ### The meanings over the machine's binary32 -/

/-- RIAA.NEW on the machine (R123, R14). -/
def execRiaaNew (ch : BitVec 8) (sampleRate : Word) (s : State) : Outcome :=
  s.perform (runRiaaNew binary32 ch sampleRate)

/-- RIAA.PROC on the machine (R124, R14). -/
def execRiaaProc (ch : BitVec 8) (x : Word) (s : State) : Outcome := s.perform (runRiaaProc binary32 ch x)

/-- RIAA.PROCB on the machine (R125, R14). -/
def execRiaaProcb (ch : BitVec 8) (n : BitVec 16) (s : State) : Outcome := s.perform (runRiaaProcb binary32 ch n)

/-- RIAA.RESET on the machine (R126, R14). -/
def execRiaaReset (ch : BitVec 8) (s : State) : Outcome := s.perform (runRiaaReset binary32 ch)

end Sys2Proof.Machine
end

