-- ==== Sys2Proof/Machine/Saturation.lean ====
section
/-! DEFINITION. The Magnetic Saturation Shaper commands (`42_saturation.md`). -/

namespace Sys2Proof.Machine

variable {α : Type}

/-- Step 2 of the shaper: the saturation curve on the driven sample (R132). -/
def saturationCurve (N : Numerics α) (h driven : α) : α :=
  if N.lt (N.abs driven) (N.lit 1 2) then driven
  else
    let knee := N.add (N.lit 1 2) (N.mul h (N.lit 1 5))
    let excess := N.max (N.sub (N.abs driven) knee) (N.nat 0)
    let factor := N.sub (N.nat 1) (N.mul h (N.lit 3 10))
    let m := N.min (N.add knee (N.mul excess factor)) (N.add (N.nat 1) (N.mul h (N.lit 1 10)))
    if N.lt driven (N.nat 0) then N.neg m else m

/-- The shaper's function of a sample at its two parameters (R132): drive, curve, makeup gain. -/
def shape (N : Numerics α) (s h x : α) : α :=
  let drive := N.add (N.nat 1) (N.mul s (N.nat 5))
  N.div (saturationCurve N h (N.mul x drive)) (N.mul drive (N.lit 4 5))

/-- SAT.SET's effect: both parameters clamped to [0, 1], `V <- 1` (R131). -/
def SatUnit.construct (N : Numerics α) (saturation hardness : α) : SatUnit α :=
  { V := true, saturation := N.clamp01 saturation, hardness := N.clamp01 hardness }

/-- The element function of R132 as a step: no state is written. -/
def SatUnit.proc (N : Numerics α) (u : SatUnit α) (x : α) : SatUnit α × α := (u, shape N u.saturation u.hardness x)

/-- SAT.SET (R131). -/
def runSatSet (N : Numerics α) (ch : BitVec 8) (saturation hardness : α) (s : BlockState α) : Effect α :=
  checked (instanceAt s.sat ch) fun _ => .ok (s.setSat ch (SatUnit.construct N saturation hardness))

/-- SAT.PROC (R132). -/
def runSatProc (N : Numerics α) (ch : BitVec 8) (x : α) (s : BlockState α) : Effect α :=
  checked (constructedAt .SAT (·.V) s.sat ch) fun u => .ok (s.respond (SatUnit.proc N u x).2)

/-- SAT.PROCB (R133). -/
def runSatProcb (N : Numerics α) (ch : BitVec 8) (n : BitVec 16) (s : BlockState α) : Effect α :=
  checked (blockOperands .SAT (·.V) s.sat ch n s) fun ⟨u, xs⟩ => .ok (s.writeOut (runBlock (SatUnit.proc N) u xs).2)

/-! ### The meanings over the machine's binary32 -/

/-- SAT.SET on the machine (R131, R14). -/
def execSatSet (ch : BitVec 8) (saturation hardness : Word) (s : State) : Outcome :=
  s.perform (runSatSet binary32 ch saturation hardness)

/-- SAT.PROC on the machine (R132, R14). -/
def execSatProc (ch : BitVec 8) (x : Word) (s : State) : Outcome := s.perform (runSatProc binary32 ch x)

/-- SAT.PROCB on the machine (R133, R14). -/
def execSatProcb (ch : BitVec 8) (n : BitVec 16) (s : State) : Outcome := s.perform (runSatProcb binary32 ch n)

end Sys2Proof.Machine
end

