-- ==== Sys2Proof/Machine/System.lean ====
section
/-! DEFINITION. The system and buffer commands NOP, WRIN, RDOUT (`47_system_buffer.md`). -/

namespace Sys2Proof.Machine

variable {α : Type}

/-- NOP: "no state is read or written" (R200). -/
def runNop (s : BlockState α) : Effect α := .ok s

/-- WRIN: `MemWrite(IN, i, opnd[0])` (R201). -/
def runWrin (i : BitVec 16) (v : α) (s : BlockState α) : Effect α :=
  checked (requireIndex s i) fun _ => .ok (s.writeIn i.toNat v)

/-- RDOUT: `result <- MemRead(OUT, i)` (R202). -/
def runRdout (i : BitVec 16) (s : BlockState α) : Effect α :=
  checked (requireIndex s i) fun _ =>
    match Buffer.read s.mem.outBuf i.toNat with
    | none => .error (.plain (.unwrittenElement .OUT i.toNat))
    | some v => .ok (s.respond v)

/-! ### The meanings over the machine's binary32 -/

/-- NOP on the machine (R200, R14). -/
def execNop (s : State) : Outcome := s.perform runNop

/-- WRIN on the machine (R201, R14). -/
def execWrin (i : BitVec 16) (v : Word) (s : State) : Outcome := s.perform (runWrin i v)

/-- RDOUT on the machine (R202, R14). -/
def execRdout (i : BitVec 16) (s : State) : Outcome := s.perform (runRdout i)

end Sys2Proof.Machine
end

