-- ==== Sys2Proof/Machine/Utility.lean ====
section
/-! DEFINITION. The mix utilities MIX, DB2LIN, SCLIPA and the legacy block entry point (`46_mix_utilities.md`). The
second soft clip and a linear-to-dB conversion have no command (R186, R187). -/

namespace Sys2Proof.Machine

variable {α : Type}

/-- `mix_dry_wet(dry, wet, mix) = dry*(1-mix) + wet*mix` (R181), in this form. -/
def mixDryWet (N : Numerics α) (dry wet mix : α) : α := N.add (N.mul dry (N.sub (N.nat 1) mix)) (N.mul wet mix)

/-- `db_to_linear(db) = 10^(db/20)` (R182). -/
def dbToLinear (N : Numerics α) (db : α) : α := N.pow10 (N.div db (N.nat 20))

/-- `soft_clip_a(x)` (R183). -/
def softClipA (N : Numerics α) (x : α) : α :=
  if N.le (N.abs x) (N.nat 1) then N.sub x (N.div (N.mul (N.mul x x) x) (N.nat 3))
  else if N.lt (N.nat 0) x then N.lit 2 3
  else N.neg (N.lit 2 3)

/-- The element function of the legacy entry point: `drive → soft_clip` (R185), at the gain `g`. -/
def legacySample (N : Numerics α) (g x : α) : α := softClipA N (N.mul x g)

/-- MIX (R181). -/
def runMix (N : Numerics α) (dry wet mix : α) (s : BlockState α) : Effect α := .ok (s.respond (mixDryWet N dry wet mix))

/-- DB2LIN (R182). -/
def runDb2lin (N : Numerics α) (db : α) (s : BlockState α) : Effect α := .ok (s.respond (dbToLinear N db))

/-- SCLIPA (R184). -/
def runSclipa (N : Numerics α) (x : α) (s : BlockState α) : Effect α := .ok (s.respond (softClipA N x))

/-- LEGACY.PROCB (R185). -/
def runLegacyProcb (N : Numerics α) (n : BitVec 16) (driveDb : α) (s : BlockState α) : Effect α :=
  checked (plainBlock n s) fun xs => .ok (s.writeOut (xs.map (legacySample N (dbToLinear N driveDb))))

/-! ### The meanings over the machine's binary32 -/

/-- MIX on the machine (R181, R14). -/
def execMix (dry wet mix : Word) (s : State) : Outcome := s.perform (runMix binary32 dry wet mix)

/-- DB2LIN on the machine (R182, R14). -/
def execDb2lin (db : Word) (s : State) : Outcome := s.perform (runDb2lin binary32 db)

/-- SCLIPA on the machine (R184, R14). -/
def execSclipa (x : Word) (s : State) : Outcome := s.perform (runSclipa binary32 x)

/-- LEGACY.PROCB on the machine (R185, R14). -/
def execLegacyProcb (n : BitVec 16) (driveDb : Word) (s : State) : Outcome :=
  s.perform (runLegacyProcb binary32 n driveDb)

end Sys2Proof.Machine
end

