-- ==== Sys2Proof/Machine/Dispatch.lean ====
section
/-! DEFINITION. The dispatch: one arm per command of the opcode table (R76), in the table's order. -/

namespace Sys2Proof.Machine

def exec (i : Instr) (s : State) : Host.Outcome State Fault Refusal :=
  match i with
  | .nop => Sys2Proof.Machine.execNop s
  | .wrin j v => Sys2Proof.Machine.execWrin j v s
  | .rdout j => Sys2Proof.Machine.execRdout j s
  | .bqProc ch x => Sys2Proof.Machine.execBqProc ch x s
  | .bqProcb ch n => Sys2Proof.Machine.execBqProcb ch n s
  | .bqReset ch => Sys2Proof.Machine.execBqReset ch s
  | .bqSetc ch b0 b1 b2 a1 a2 => Sys2Proof.Machine.execBqSetc ch b0 b1 b2 a1 a2 s
  | .bqLowpass ch cutoff q => Sys2Proof.Machine.execBqLowpass ch cutoff q s
  | .riaaProc ch x => Sys2Proof.Machine.execRiaaProc ch x s
  | .riaaProcb ch n => Sys2Proof.Machine.execRiaaProcb ch n s
  | .riaaReset ch => Sys2Proof.Machine.execRiaaReset ch s
  | .riaaNew ch sampleRate => Sys2Proof.Machine.execRiaaNew ch sampleRate s
  | .satProc ch x => Sys2Proof.Machine.execSatProc ch x s
  | .satProcb ch n => Sys2Proof.Machine.execSatProcb ch n s
  | .satSet ch saturation hardness => Sys2Proof.Machine.execSatSet ch saturation hardness s
  | .hfProc ch x => Sys2Proof.Machine.execHfProc ch x s
  | .hfProcb ch n => Sys2Proof.Machine.execHfProcb ch n s
  | .hfReset ch => Sys2Proof.Machine.execHfReset ch s
  | .hfSet ch intensity => Sys2Proof.Machine.execHfSet ch intensity s
  | .limProc ch x => Sys2Proof.Machine.execLimProc ch x s
  | .limProcb ch n => Sys2Proof.Machine.execLimProcb ch n s
  | .limReset ch => Sys2Proof.Machine.execLimReset ch s
  | .limNew ch threshold releaseTime => Sys2Proof.Machine.execLimNew ch threshold releaseTime s
  | .vaRms n => Sys2Proof.Machine.execVaRms n s
  | .vaCrest n => Sys2Proof.Machine.execVaCrest n s
  | .vaTilt n => Sys2Proof.Machine.execVaTilt n s
  | .vaScore n => Sys2Proof.Machine.execVaScore n s
  | .mix dry wet mix => Sys2Proof.Machine.execMix dry wet mix s
  | .db2lin db => Sys2Proof.Machine.execDb2lin db s
  | .sclipa x => Sys2Proof.Machine.execSclipa x s
  | .legacyProcb n driveDb => Sys2Proof.Machine.execLegacyProcb n driveDb s

end Sys2Proof.Machine
end

