-- ==== Sys2Proof/Machine/Fields.lean ====
section
/-! DEFINITION. Which fields of the command word and which operand words each instruction has (R71, R72, R76). -/

namespace Sys2Proof.Machine

/-- The channel field `CW[23:16]` of the formats UC and UB; the formats GX and GP have none (R72). -/
def channelOf : Instr → Option (BitVec 8)
  | .bqProc ch _ | .bqProcb ch _ | .bqReset ch | .bqSetc ch _ _ _ _ _ | .bqLowpass ch _ _ => some ch
  | .riaaProc ch _ | .riaaProcb ch _ | .riaaReset ch | .riaaNew ch _ => some ch
  | .satProc ch _ | .satProcb ch _ | .satSet ch _ _ => some ch
  | .hfProc ch _ | .hfProcb ch _ | .hfReset ch | .hfSet ch _ => some ch
  | .limProc ch _ | .limProcb ch _ | .limReset ch | .limNew ch _ _ => some ch
  | .nop | .wrin _ _ | .rdout _ | .vaRms _ | .vaCrest _ | .vaTilt _ | .vaScore _ => none
  | .mix _ _ _ | .db2lin _ | .sclipa _ | .legacyProcb _ _ => none

/-- The element index `i` in `CW[15:0]`, which WRIN and RDOUT alone have (R77 step 4). -/
def indexOf : Instr → Option (BitVec 16)
  | .wrin i _ | .rdout i => some i
  | .nop | .bqProc _ _ | .bqProcb _ _ | .bqReset _ | .bqSetc _ _ _ _ _ _ | .bqLowpass _ _ _ => none
  | .riaaProc _ _ | .riaaProcb _ _ | .riaaReset _ | .riaaNew _ _ => none
  | .satProc _ _ | .satProcb _ _ | .satSet _ _ _ => none
  | .hfProc _ _ | .hfProcb _ _ | .hfReset _ | .hfSet _ _ => none
  | .limProc _ _ | .limProcb _ _ | .limReset _ | .limNew _ _ _ => none
  | .vaRms _ | .vaCrest _ | .vaTilt _ | .vaScore _ => none
  | .mix _ _ _ | .db2lin _ | .sclipa _ | .legacyProcb _ _ => none

/-- The block length `n` in `CW[15:0]` of the `*.PROCB`, `VA.*` and LEGACY.PROCB commands (R77 step 4). -/
def lengthOf : Instr → Option (BitVec 16)
  | .bqProcb _ n | .riaaProcb _ n | .satProcb _ n | .hfProcb _ n | .limProcb _ n => some n
  | .vaRms n | .vaCrest n | .vaTilt n | .vaScore n | .legacyProcb n _ => some n
  | .nop | .wrin _ _ | .rdout _ => none
  | .bqProc _ _ | .bqReset _ | .bqSetc _ _ _ _ _ _ | .bqLowpass _ _ _ => none
  | .riaaProc _ _ | .riaaReset _ | .riaaNew _ _ => none
  | .satProc _ _ | .satSet _ _ _ => none
  | .hfProc _ _ | .hfReset _ | .hfSet _ _ => none
  | .limProc _ _ | .limReset _ | .limNew _ _ _ => none
  | .mix _ _ _ | .db2lin _ | .sclipa _ => none

/-- The operand words, in the order of the opcode table (R73, R76). -/
def operandsOf : Instr → List Word
  | .wrin _ v => [v]
  | .bqProc _ x | .riaaProc _ x | .satProc _ x | .hfProc _ x | .limProc _ x => [x]
  | .bqSetc _ b0 b1 b2 a1 a2 => [b0, b1, b2, a1, a2]
  | .bqLowpass _ cutoff q => [cutoff, q]
  | .riaaNew _ sampleRate => [sampleRate]
  | .satSet _ saturation hardness => [saturation, hardness]
  | .hfSet _ intensity => [intensity]
  | .limNew _ threshold releaseTime => [threshold, releaseTime]
  | .mix dry wet mix => [dry, wet, mix]
  | .db2lin db => [db]
  | .sclipa x => [x]
  | .legacyProcb _ driveDb => [driveDb]
  | .nop | .rdout _ | .bqProcb _ _ | .bqReset _ | .riaaProcb _ _ | .riaaReset _ | .satProcb _ _ => []
  | .hfProcb _ _ | .hfReset _ | .limProcb _ _ | .limReset _ => []
  | .vaRms _ | .vaCrest _ | .vaTilt _ | .vaScore _ => []

/-- Whether the command puts one result word on the response port (R74, column "res" of R76). -/
def hasResult : Instr → Bool
  | .rdout _ | .bqProc _ _ | .riaaProc _ _ | .satProc _ _ | .hfProc _ _ | .limProc _ _ => true
  | .vaRms _ | .vaCrest _ | .vaTilt _ | .vaScore _ | .mix _ _ _ | .db2lin _ | .sclipa _ => true
  | .nop | .wrin _ _ | .bqProcb _ _ | .bqReset _ | .bqSetc _ _ _ _ _ _ | .bqLowpass _ _ _ => false
  | .riaaProcb _ _ | .riaaReset _ | .riaaNew _ _ | .satProcb _ _ | .satSet _ _ _ => false
  | .hfProcb _ _ | .hfReset _ | .hfSet _ _ | .limProcb _ _ | .limReset _ | .limNew _ _ _ => false
  | .legacyProcb _ _ => false

end Sys2Proof.Machine
end

