-- ==== Sys2Proof/WellFormed.lean ====
section
/-! DEFINITION. Well-formed instructions: those that pass decoding steps 3 to 5 (R77), that is, whose channel, index
and length exist on this configuration and whose operand words are numbers. -/

namespace Sys2Proof

/-- `ch < NCH` (R5, R214). -/
def Instr.channelOk {α : Type} (c : Config α) (i : Instr) : Bool :=
  match Machine.channelOf i with
  | none => true
  | some ch => decide (ch.toNat < c.nch)

/-- `i < BLOCK_MAX` (R50, R214). -/
def Instr.indexOk {α : Type} (c : Config α) (i : Instr) : Bool :=
  match Machine.indexOf i with
  | none => true
  | some j => decide (j.toNat < c.blockMax)

/-- `n <= BLOCK_MAX` (R6, R214). -/
def Instr.lengthOk {α : Type} (c : Config α) (i : Instr) : Bool :=
  match Machine.lengthOf i with
  | none => true
  | some n => decide (n.toNat ≤ c.blockMax)

/-- No operand word is a NaN or an infinity (R216). -/
def Instr.operandsOk (i : Instr) : Bool := (Machine.operandsOf i).all Machine.F32.isFinite

/-- The instruction is well formed on the configuration (R77). -/
def Instr.wf {α : Type} (c : Config α) (i : Instr) : Bool := i.channelOk c && i.indexOk c && i.lengthOk c && i.operandsOk

end Sys2Proof
end

