-- ==== Sys2Proof/Decode.lean ====
section
/-! DEFINITION. Decoding a command word and its operand words, total, rejecting by name (R77 steps 1, 2 and the taking
of operands in step 5; the range and operand checks of steps 3 to 5 depend on the configuration and are
`Machine/Operands.lean`), and the encoder, both from the one opcode table of R76. -/

namespace Sys2Proof

/-- The four formats (R72). -/
inductive Format where
  | UC | UB | GX | GP
deriving DecidableEq, Repr

/-- Why a command word is no command (R212, R213). -/
inductive DecodeError where
  | undefinedOpcode (op : BitVec 8)
  | reservedFieldNonzero
deriving DecidableEq, Repr

/-- `op = CW[31:24]` (R71). -/
def opField (cw : Word) : BitVec 8 := cw.extractLsb' 24 8

/-- `ch = CW[23:16]` (R71). -/
def chField (cw : Word) : BitVec 8 := cw.extractLsb' 16 8

/-- `imm = CW[15:0]` (R71). -/
def immField (cw : Word) : BitVec 16 := cw.extractLsb' 0 16

/-- The bits of a command word that the format fixes (R72). -/
def Format.mask : Format → Word
  | .UC => 0xFF00FFFF
  | .UB => 0xFF000000
  | .GX => 0xFFFF0000
  | .GP => 0xFFFFFFFF

/-- The fields a format reserves are zero (R72, R78, R213). -/
def Format.reservedZero (f : Format) (cw : Word) : Bool :=
  match f with
  | .UC => immField cw == 0
  | .UB => true
  | .GX => chField cw == 0
  | .GP => chField cw == 0 && immField cw == 0

/-- One row of the opcode table (R76): the opcode, the mnemonic, the format, the number of operand words, whether a
result word is produced, and the instruction the row stands for, made from `ch`, `imm` and `opnd[0], opnd[1], …`. -/
structure OpRow where
  op : BitVec 8
  mnemonic : String
  format : Format
  operands : Nat
  result : Bool
  make : BitVec 8 → BitVec 16 → (Nat → Word) → Instr

/-- Rows `0x00` to `0x02` (SYS). -/
def sysRows : List OpRow := [
  ⟨0x00, "NOP", .GP, 0, false, fun _ _ _ => .nop⟩,
  ⟨0x01, "WRIN", .GX, 1, false, fun _ imm o => .wrin imm (o 0)⟩,
  ⟨0x02, "RDOUT", .GX, 0, true, fun _ imm _ => .rdout imm⟩]

/-- Rows `0x10` to `0x14` (BQ). -/
def bqRows : List OpRow := [
  ⟨0x10, "BQ.PROC", .UC, 1, true, fun ch _ o => .bqProc ch (o 0)⟩,
  ⟨0x11, "BQ.PROCB", .UB, 0, false, fun ch imm _ => .bqProcb ch imm⟩,
  ⟨0x12, "BQ.RESET", .UC, 0, false, fun ch _ _ => .bqReset ch⟩,
  ⟨0x13, "BQ.SETC", .UC, 5, false, fun ch _ o => .bqSetc ch (o 0) (o 1) (o 2) (o 3) (o 4)⟩,
  ⟨0x14, "BQ.LOWPASS", .UC, 2, false, fun ch _ o => .bqLowpass ch (o 0) (o 1)⟩]

/-- Rows `0x20` to `0x23` (RIAA). -/
def riaaRows : List OpRow := [
  ⟨0x20, "RIAA.PROC", .UC, 1, true, fun ch _ o => .riaaProc ch (o 0)⟩,
  ⟨0x21, "RIAA.PROCB", .UB, 0, false, fun ch imm _ => .riaaProcb ch imm⟩,
  ⟨0x22, "RIAA.RESET", .UC, 0, false, fun ch _ _ => .riaaReset ch⟩,
  ⟨0x23, "RIAA.NEW", .UC, 1, false, fun ch _ o => .riaaNew ch (o 0)⟩]

/-- Rows `0x30` to `0x33` (SAT); `0x32` is reserved (R78). -/
def satRows : List OpRow := [
  ⟨0x30, "SAT.PROC", .UC, 1, true, fun ch _ o => .satProc ch (o 0)⟩,
  ⟨0x31, "SAT.PROCB", .UB, 0, false, fun ch imm _ => .satProcb ch imm⟩,
  ⟨0x33, "SAT.SET", .UC, 2, false, fun ch _ o => .satSet ch (o 0) (o 1)⟩]

/-- Rows `0x40` to `0x43` (HF). -/
def hfRows : List OpRow := [
  ⟨0x40, "HF.PROC", .UC, 1, true, fun ch _ o => .hfProc ch (o 0)⟩,
  ⟨0x41, "HF.PROCB", .UB, 0, false, fun ch imm _ => .hfProcb ch imm⟩,
  ⟨0x42, "HF.RESET", .UC, 0, false, fun ch _ _ => .hfReset ch⟩,
  ⟨0x43, "HF.SET", .UC, 1, false, fun ch _ o => .hfSet ch (o 0)⟩]

/-- Rows `0x50` to `0x53` (LIM). -/
def limRows : List OpRow := [
  ⟨0x50, "LIM.PROC", .UC, 1, true, fun ch _ o => .limProc ch (o 0)⟩,
  ⟨0x51, "LIM.PROCB", .UB, 0, false, fun ch imm _ => .limProcb ch imm⟩,
  ⟨0x52, "LIM.RESET", .UC, 0, false, fun ch _ _ => .limReset ch⟩,
  ⟨0x53, "LIM.NEW", .UC, 2, false, fun ch _ o => .limNew ch (o 0) (o 1)⟩]

/-- Rows `0x60` to `0x63` (VA). -/
def vaRows : List OpRow := [
  ⟨0x60, "VA.RMS", .GX, 0, true, fun _ imm _ => .vaRms imm⟩,
  ⟨0x61, "VA.CREST", .GX, 0, true, fun _ imm _ => .vaCrest imm⟩,
  ⟨0x62, "VA.TILT", .GX, 0, true, fun _ imm _ => .vaTilt imm⟩,
  ⟨0x63, "VA.SCORE", .GX, 0, true, fun _ imm _ => .vaScore imm⟩]

/-- Rows `0x70` to `0x74` (UTIL); `0x73` and `0x75` are reserved (R78). -/
def utilRows : List OpRow := [
  ⟨0x70, "MIX", .GP, 3, true, fun _ _ o => .mix (o 0) (o 1) (o 2)⟩,
  ⟨0x71, "DB2LIN", .GP, 1, true, fun _ _ o => .db2lin (o 0)⟩,
  ⟨0x72, "SCLIPA", .GP, 1, true, fun _ _ o => .sclipa (o 0)⟩,
  ⟨0x74, "LEGACY.PROCB", .GX, 1, false, fun _ imm o => .legacyProcb imm (o 0)⟩]

/-- The opcode table (R76): 31 rows. -/
def opcodeTable : List OpRow :=
  sysRows ++ bqRows ++ riaaRows ++ satRows ++ hfRows ++ limRows ++ vaRows ++ utilRows

/-- The row's `match` column: the opcode in `CW[31:24]`, zeros elsewhere (R76). -/
def OpRow.matchWord (r : OpRow) : Word := r.op ++ (0 : BitVec 24)

/-- The row an opcode selects; `none` for every value not in the table (R78). -/
def rowOf (op : BitVec 8) : Option OpRow := opcodeTable.find? (fun r => r.op == op)

/-- `opnd[k]` (R13). A word that has not arrived reads as zero here; a step waits for it before it uses it (log 3). -/
def operandAt (ops : List Word) (k : Nat) : Word := ops.getD k 0

/-- Decoding (R77): the opcode selects the row (step 1), the reserved fields must be zero (step 2), and the row's
operand words are taken from those that follow. -/
def decode (cw : Word) (ops : List Word) : Except DecodeError Instr :=
  match rowOf (opField cw) with
  | none => .error (.undefinedOpcode (opField cw))
  | some row =>
    if row.format.reservedZero cw then .ok (row.make (chField cw) (immField cw) (operandAt ops))
    else .error .reservedFieldNonzero

/-- The opcode of an instruction (R76). -/
def opOf : Instr → BitVec 8
  | .nop => 0x00
  | .wrin _ _ => 0x01
  | .rdout _ => 0x02
  | .bqProc _ _ => 0x10
  | .bqProcb _ _ => 0x11
  | .bqReset _ => 0x12
  | .bqSetc _ _ _ _ _ _ => 0x13
  | .bqLowpass _ _ _ => 0x14
  | .riaaProc _ _ => 0x20
  | .riaaProcb _ _ => 0x21
  | .riaaReset _ => 0x22
  | .riaaNew _ _ => 0x23
  | .satProc _ _ => 0x30
  | .satProcb _ _ => 0x31
  | .satSet _ _ _ => 0x33
  | .hfProc _ _ => 0x40
  | .hfProcb _ _ => 0x41
  | .hfReset _ => 0x42
  | .hfSet _ _ => 0x43
  | .limProc _ _ => 0x50
  | .limProcb _ _ => 0x51
  | .limReset _ => 0x52
  | .limNew _ _ _ => 0x53
  | .vaRms _ => 0x60
  | .vaCrest _ => 0x61
  | .vaTilt _ => 0x62
  | .vaScore _ => 0x63
  | .mix _ _ _ => 0x70
  | .db2lin _ => 0x71
  | .sclipa _ => 0x72
  | .legacyProcb _ _ => 0x74

/-- The `imm` field: the index or the length, zero where the format reserves it (R71, R72). -/
def immOf (i : Instr) : BitVec 16 :=
  match Machine.indexOf i with
  | some j => j
  | none => (Machine.lengthOf i).getD 0

/-- The `ch` field, zero where the format reserves it (R71, R72). -/
def chOf (i : Instr) : BitVec 8 := (Machine.channelOf i).getD 0

/-- The command word `op ++ ch ++ imm` (R11, R71). -/
def commandWord (op : BitVec 8) (ch : BitVec 8) (imm : BitVec 16) : Word := op ++ ch ++ imm

/-- The command word of an instruction. -/
def encodeHead (i : Instr) : Word := commandWord (opOf i) (chOf i) (immOf i)

/-- The words of an instruction, command word first, then its operand words (R70). -/
def encode (i : Instr) : List Word := encodeHead i :: Machine.operandsOf i

/-- How many operand words an opcode takes (R76, R79); none for an undefined one. -/
def operandCount (op : BitVec 8) : Nat :=
  match rowOf op with
  | none => 0
  | some row => row.operands

/-- Word `j` of an instruction whose bits are `w` (32 a word, the first word lowest) and are 0 from bit `nbits` on. -/
def tableWord (nbits w j : Nat) : Word := BitVec.ofNat 32 (w % 2 ^ nbits / 2 ^ (32 * j))

/-- What the decoder reads from an instruction given as one number: the command word in bits 31:0, operand word `j` in
the 32 bits from bit `32 * (j + 1)`. -/
def decodeTableWord (nbits w : Nat) : Option Instr :=
  match decode (tableWord nbits w 0) ((List.range 5).map fun j => tableWord nbits w (j + 1)) with
  | .ok i => some i
  | .error _ => none

end Sys2Proof
end

