-- ==== Sys2Proof/Machine/Operands.lean ====
section
/-! DEFINITION. The checks on a command's fields and operand words, steps 3 to 5 of decoding (R77), in the order of
R218. There are no other operand forms: an operand is a whole word that travels with the command (R20, R73). -/

namespace Sys2Proof.Machine

/-- `OutOfRange(ch)` when `ch >= NCH` (R214; R77 step 3). -/
def channelRefusal {α : Type} (cfg : Config α) (ch : BitVec 8) : Option Refusal :=
  if ch.toNat < cfg.nch then none else some (.outOfRange (.channel ch.toNat))

/-- `OutOfRange(i)` when `i >= BLOCK_MAX` (R214; R77 step 4). -/
def indexRefusal {α : Type} (cfg : Config α) (i : BitVec 16) : Option Refusal :=
  if i.toNat < cfg.blockMax then none else some (.outOfRange (.index i.toNat))

/-- `OutOfRange(n)` when `n > BLOCK_MAX` (R214; R77 step 4). -/
def lengthRefusal {α : Type} (cfg : Config α) (n : BitVec 16) : Option Refusal :=
  if n.toNat ≤ cfg.blockMax then none else some (.outOfRange (.length n.toNat))

/-- Steps 3 and 4 of decoding (R77): the channel first, then the index or the length. They read the command word
alone. -/
def rangeRefusal {α : Type} (cfg : Config α) (i : Instr) : Option Refusal :=
  ((channelOf i).bind (channelRefusal cfg)).or
    (((indexOf i).bind (indexRefusal cfg)).or ((lengthOf i).bind (lengthRefusal cfg)))

/-- The place of the first value that is no number, counted from `k`. -/
def firstNonFinite {α : Type} (isNumber : α → Bool) : List α → Nat → Option Nat
  | [], _ => none
  | w :: ws, k => if isNumber w then firstNonFinite isNumber ws (k + 1) else some k

/-- Step 5 of decoding (R77): `NonFiniteOperand(k)` for the least such `k` (R216, R218). -/
def nonFiniteRefusal {α : Type} (isNumber : α → Bool) (ops : List α) : Option Refusal :=
  (firstNonFinite isNumber ops 0).map Refusal.nonFiniteOperand

/-- That check on an instruction's operand words, in binary32. -/
def operandRefusal (i : Instr) : Option Refusal := nonFiniteRefusal F32.isFinite (operandsOf i)

end Sys2Proof.Machine
end

