-- ==== Sys2Proof/Machine/Fetch.lean ====
section
/-! DEFINITION. Taking the next command from the command port (R70, R77): the block fetches nothing from a memory, the
host sends it words (R21, R62). -/

namespace Sys2Proof.Machine

/-- What the inputs offer next. -/
inductive Fetched where
  /-- No whole command and no reset has arrived (log 3). -/
  | idle
  /-- The reset input is asserted (R230); `rest` is what the host did after it. -/
  | reset (rest : List HostEvent)
  /-- The command is refused in decoding (R77). -/
  | refuse (r : Refusal)
  /-- The whole of a well-formed command has arrived; `rest` is what follows its last word. -/
  | command (i : Instr) (rest : List HostEvent)
deriving DecidableEq, Repr

/-- The words that have arrived before the next reset. -/
def leadingWords : List HostEvent → List Word
  | [] => []
  | .reset :: _ => []
  | .word w :: rest => w :: leadingWords rest

/-- The refusal a decode error stands for (R212, R213). -/
def decodeRefusal : DecodeError → Refusal
  | .undefinedOpcode op => .undefinedOpcode op
  | .reservedFieldNonzero => .reservedFieldNonzero

/-- Decoding, in the order of R77 and R218: opcode, reserved fields, channel, index or length (these need the command
word alone), then the operand words and whether each is a number. -/
def fetchCommand (cfg : Config Word) (cw : Word) (rest : List HostEvent) : Fetched :=
  match decode cw (leadingWords rest) with
  | .error e => .refuse (decodeRefusal e)
  | .ok i =>
    match rangeRefusal cfg i with
    | some r => .refuse r
    | none =>
      if (leadingWords rest).length < (operandsOf i).length then
        if (leadingWords rest).length < rest.length then .refuse .commandSplitByReset else .idle
      else
        match operandRefusal i with
        | some r => .refuse r
        | none => .command i (rest.drop (operandsOf i).length)

/-- The next thing the block does: nothing, reset, or one whole command (R16, R230). -/
def fetch (s : State) : Fetched :=
  match s.port with
  | [] => .idle
  | .reset :: rest => .reset rest
  | .word cw :: rest => fetchCommand s.cfg cw rest

/-- The reset event (R230): the whole state becomes the reset state. The configuration is no state, and the result words
already on the response port are the host's (R243). -/
def resetEvent (rest : List HostEvent) (s : State) : State := State.afterReset s.cfg rest s.resp

/-- The command word and as many operand words as its opcode takes, of an instruction given as one number. -/
def tableCommand (nbits w : Nat) : List HostEvent :=
  (List.range (operandCount (opField (tableWord nbits w 0)) + 1)).map fun j => HostEvent.word (tableWord nbits w j)

/-- The host sends a list of instructions (R70, R244). -/
def send (is : List Instr) (s : State) : State :=
  { s with port := s.port ++ (is.flatMap encode).map HostEvent.word }

end Sys2Proof.Machine
end

