-- ==== Sys2Proof/Machine/Step.lean ====
section
/-! DEFINITION. One step of the block: one whole command, a reset, or nothing when nothing has arrived (R16, R230). -/

namespace Sys2Proof.Machine

/-- A step (R16). A command is taken off the port and executed on the state without it; a refused command has no step
(R211). -/
def step (s : State) : Host.Outcome State Fault Refusal :=
  match fetch s with
  | .idle => .next s
  | .reset rest => .next (resetEvent rest s)
  | .refuse r => .refused r
  | .command i rest => exec i { s with port := rest }

/-- The same state with one instruction next on the command port: its command word and as many operand words as the
opcode takes, before whatever stands there (log 5). -/
def State.withFetchWord (s : State) (nbits w : Nat) : State := { s with port := tableCommand nbits w ++ s.port }

end Sys2Proof.Machine
end

