-- ==== Sys2Proof/Machine/Execute.lean ====
section
/-! DEFINITION. The block over any number system: `NUM` is an argument (R7), an operand is a `Num` taken directly (R13,
R73), and a step is one whole command or a reset (R16, R230). The machine is this at binary32 (R14), with the command
port of `Machine/Fetch.lean` in front; the reference semantics is this at the reals (`Machine/Reference.lean`). -/

namespace Sys2Proof.Machine

variable {α : Type}

/-- The effect of a command over `N`. The command word is the instruction's; its operands are the numbers `opnd[0]`,
`opnd[1]`, … (R13), and the operand words the instruction carries are not read. -/
def execute (N : Numerics α) (i : Instr) (opnd : Nat → α) : BlockState α → Effect α :=
  match i with
  | .nop => runNop
  | .wrin j _ => runWrin j (opnd 0)
  | .rdout j => runRdout j
  | .bqProc ch _ => runBqProc N ch (opnd 0)
  | .bqProcb ch n => runBqProcb N ch n
  | .bqReset ch => runBqReset N ch
  | .bqSetc ch _ _ _ _ _ => runBqSetc N ch (opnd 0) (opnd 1) (opnd 2) (opnd 3) (opnd 4)
  | .bqLowpass ch _ _ => runBqLowpass N ch (opnd 0) (opnd 1)
  | .riaaProc ch _ => runRiaaProc N ch (opnd 0)
  | .riaaProcb ch n => runRiaaProcb N ch n
  | .riaaReset ch => runRiaaReset N ch
  | .riaaNew ch _ => runRiaaNew N ch (opnd 0)
  | .satProc ch _ => runSatProc N ch (opnd 0)
  | .satProcb ch n => runSatProcb N ch n
  | .satSet ch _ _ => runSatSet N ch (opnd 0) (opnd 1)
  | .hfProc ch _ => runHfProc N ch (opnd 0)
  | .hfProcb ch n => runHfProcb N ch n
  | .hfReset ch => runHfReset N ch
  | .hfSet ch _ => runHfSet N ch (opnd 0)
  | .limProc ch _ => runLimProc N ch (opnd 0)
  | .limProcb ch n => runLimProcb N ch n
  | .limReset ch => runLimReset N ch
  | .limNew ch _ _ => runLimNew N ch (opnd 0) (opnd 1)
  | .vaRms n => runVaRms N n
  | .vaCrest n => runVaCrest N n
  | .vaTilt n => runVaTilt N n
  | .vaScore n => runVaScore N n
  | .mix _ _ _ => runMix N (opnd 0) (opnd 1) (opnd 2)
  | .db2lin _ => runDb2lin N (opnd 0)
  | .sclipa _ => runSclipa N (opnd 0)
  | .legacyProcb n _ => runLegacyProcb N n (opnd 0)

/-- What the host may do next (R16, R230): issue a command with its operands, or assert reset. -/
inductive Action (α : Type) where
  | command (i : Instr) (opnd : Nat → α)
  | reset

/-- One step over `N` (R16): steps 3 to 5 of decoding, then the command (R77); or the reset event (R230), which keeps the
configuration and the results already put out. -/
def blockStep (N : Numerics α) : Action α → BlockState α → Effect α
  | .reset, s => .ok (BlockState.afterReset (N.nat 0) s.cfg s.resp)
  | .command i opnd, s =>
    match (rangeRefusal s.cfg i).or (nonFiniteRefusal N.isNumber ((List.range (operandsOf i).length).map opnd)) with
    | some r => .error (.plain r)
    | none => execute N i opnd s

end Sys2Proof.Machine
end

