-- ==== Sys2Proof/Machine/Reference.lean ====
section
/-! DEFINITION. The reference semantics: the same commands over the real numbers, in which the spec states its value
claims (R7, R12, R15, R16), and the value of a finite binary32 word. The machine does not use this file. -/

namespace Sys2Proof.Machine

/-- `Num = ℝ`: every primitive is the mathematical function (R12). DESIGN CHOICE (log 19): R12 gives `a / b` only for
`b != 0` and `sqrt(a)` only for `a >= 0`; outside these domains the model takes Lean's total functions, `a / 0 = 0` and
`sqrt a = 0` for `a < 0`, which the spec does not say. -/
noncomputable def realNum : Numerics ℝ where
  add a b := a + b
  sub a b := a - b
  mul a b := a * b
  div a b := a / b
  neg a := -a
  abs a := |a|
  min a b := a ⊓ b
  max a b := a ⊔ b
  lt a b := decide (a < b)
  le a b := decide (a ≤ b)
  eq a b := decide (a = b)
  sqrt a := Real.sqrt a
  exp a := Real.exp a
  pow10 a := (10 : ℝ) ^ a
  sin a := Real.sin a
  cos a := Real.cos a
  pi := Real.pi
  lit p q := (p : ℝ) / (q : ℝ)
  isNumber _ := true

/-- One step of the block in the reference semantics (R7, R15, R16). -/
noncomputable def referenceStep : Action ℝ → BlockState ℝ → Effect ℝ := blockStep realNum

/-- The value of a finite binary32 word: a multiple of the least subnormal `2^-149` (R14). -/
def F32.value (w : Word) : ℚ := (F32.units w : ℚ) / 2 ^ 149

end Sys2Proof.Machine
end

