-- ==== Sys2Proof/Safety.lean ====
section
/-! DEFINITION. What counts as a safe run, and the words claims are stated in: which instance a command addresses, what
it asks of it, which parts of two states agree, and the two invariants. -/

namespace Sys2Proof

open Sys2Proof.Machine

/-! ### Runs -/

/-- `t` is the state after `k` steps from `s`, none of which was refused: the streams a claim may be about (R211). -/
def Runs (k : Nat) (s t : State) : Prop := Host.Core.run core k s = .next t

/-- A run is over when the host's list is exhausted (R243). -/
def Final (s : State) : Prop := s.port = []

/-- A safe run: it consumes all the host has sent and meets no refused command (R211, R243). -/
def SafeRun (s : State) : Prop := ∃ k t, Runs k s t ∧ Final t

/-- Commands executed one after another (R16, R59). -/
def execAll : List Instr → State → Outcome
  | [], s => .next s
  | i :: is, s =>
    match exec i s with
    | .next t => execAll is t
    | .fault r => .fault r
    | .refused r => .refused r

/-! ### What a command addresses and asks for -/

/-- The instance `(U, ch)` a command is addressed to (R36, R75); the other commands address none. -/
def addressed : Instr → Option (UnitKind × BitVec 8)
  | .bqProc ch _ | .bqProcb ch _ | .bqReset ch | .bqSetc ch _ _ _ _ _ | .bqLowpass ch _ _ => some (.BQ, ch)
  | .riaaProc ch _ | .riaaProcb ch _ | .riaaReset ch | .riaaNew ch _ => some (.RIAA, ch)
  | .satProc ch _ | .satProcb ch _ | .satSet ch _ _ => some (.SAT, ch)
  | .hfProc ch _ | .hfProcb ch _ | .hfReset ch | .hfSet ch _ => some (.HF, ch)
  | .limProc ch _ | .limProcb ch _ | .limReset ch | .limNew ch _ _ => some (.LIM, ch)
  | .nop | .wrin _ _ | .rdout _ | .vaRms _ | .vaCrest _ | .vaTilt _ | .vaScore _ => none
  | .mix _ _ _ | .db2lin _ | .sclipa _ | .legacyProcb _ _ => none

/-- The instance a command constructs or configures (R22): BQ.SETC, BQ.LOWPASS, RIAA.NEW, SAT.SET, HF.SET, LIM.NEW. -/
def configures : Instr → Option (UnitKind × BitVec 8)
  | .bqSetc ch _ _ _ _ _ | .bqLowpass ch _ _ => some (.BQ, ch)
  | .riaaNew ch _ => some (.RIAA, ch)
  | .satSet ch _ _ => some (.SAT, ch)
  | .hfSet ch _ => some (.HF, ch)
  | .limNew ch _ _ => some (.LIM, ch)
  | .bqProc _ _ | .bqProcb _ _ | .bqReset _ | .riaaProc _ _ | .riaaProcb _ _ | .riaaReset _ => none
  | .satProc _ _ | .satProcb _ _ | .hfProc _ _ | .hfProcb _ _ | .hfReset _ => none
  | .limProc _ _ | .limProcb _ _ | .limReset _ => none
  | .nop | .wrin _ _ | .rdout _ | .vaRms _ | .vaCrest _ | .vaTilt _ | .vaScore _ => none
  | .mix _ _ _ | .db2lin _ | .sclipa _ | .legacyProcb _ _ => none

/-- The instance a command needs constructed: the fourteen processing and reset commands of R215. -/
def needsConstructed : Instr → Option (UnitKind × BitVec 8)
  | .bqProc ch _ | .bqProcb ch _ | .bqReset ch => some (.BQ, ch)
  | .riaaProc ch _ | .riaaProcb ch _ | .riaaReset ch => some (.RIAA, ch)
  | .satProc ch _ | .satProcb ch _ => some (.SAT, ch)
  | .hfProc ch _ | .hfProcb ch _ | .hfReset ch => some (.HF, ch)
  | .limProc ch _ | .limProcb ch _ | .limReset ch => some (.LIM, ch)
  | .bqSetc _ _ _ _ _ _ | .bqLowpass _ _ _ | .riaaNew _ _ | .satSet _ _ _ | .hfSet _ _ | .limNew _ _ _ => none
  | .nop | .wrin _ _ | .rdout _ | .vaRms _ | .vaCrest _ | .vaTilt _ | .vaScore _ => none
  | .mix _ _ _ | .db2lin _ | .sclipa _ | .legacyProcb _ _ => none

/-- The single-sample command of a unit kind (R75, capability `0x0`). -/
def procOf : UnitKind → BitVec 8 → Word → Instr
  | .BQ => .bqProc
  | .RIAA => .riaaProc
  | .SAT => .satProc
  | .HF => .hfProc
  | .LIM => .limProc

/-- The block command of a unit kind (R75, capability `0x1`). -/
def procbOf : UnitKind → BitVec 8 → BitVec 16 → Instr
  | .BQ => .bqProcb
  | .RIAA => .riaaProcb
  | .SAT => .satProcb
  | .HF => .hfProcb
  | .LIM => .limProcb

/-- Whether a command is a block command, which alone writes `OUT` (R51). -/
def writesOut : Instr → Bool
  | .bqProcb _ _ | .riaaProcb _ _ | .satProcb _ _ | .hfProcb _ _ | .limProcb _ _ | .legacyProcb _ _ => true
  | .nop | .wrin _ _ | .rdout _ | .bqProc _ _ | .bqReset _ | .bqSetc _ _ _ _ _ _ | .bqLowpass _ _ _ => false
  | .riaaProc _ _ | .riaaReset _ | .riaaNew _ _ | .satProc _ _ | .satSet _ _ _ => false
  | .hfProc _ _ | .hfReset _ | .hfSet _ _ | .limProc _ _ | .limReset _ | .limNew _ _ _ => false
  | .vaRms _ | .vaCrest _ | .vaTilt _ | .vaScore _ | .mix _ _ _ | .db2lin _ | .sclipa _ => false

/-! ### Parts of a state -/

/-- The valid bit of instance `c` of a kind; none where there is no such instance (R22). -/
def validBit (k : UnitKind) (c : Nat) (s : State) : Option Bool :=
  match k with
  | .BQ => (s.bq[c]?).map (·.V)
  | .RIAA => (s.riaa[c]?).map (·.V)
  | .SAT => (s.sat[c]?).map (·.V)
  | .HF => (s.hf[c]?).map (·.V)
  | .LIM => (s.lim[c]?).map (·.V)

/-- Instance `c` of a kind holds the same registers in both states. -/
def SameUnit (k : UnitKind) (c : Nat) (s t : State) : Prop :=
  match k with
  | .BQ => s.bq[c]? = t.bq[c]?
  | .RIAA => s.riaa[c]? = t.riaa[c]?
  | .SAT => s.sat[c]? = t.sat[c]?
  | .HF => s.hf[c]? = t.hf[c]?
  | .LIM => s.lim[c]? = t.lim[c]?

/-- `IN[0..n-1]` is written and holds `xs` (R161, R203). -/
def InBlock (s : State) (n : BitVec 16) (xs : List Word) : Prop :=
  xs.length = n.toNat ∧ ∀ j < n.toNat, Buffer.read s.mem.inBuf j = xs[j]?

/-! ### Numbers -/

/-- A finite word whose value lies in `[0, 1]`. -/
def F32.In01 (w : Word) : Prop := F32.isFinite w = true ∧ 0 ≤ F32.units w ∧ F32.units w ≤ F32.units 0x3F800000

/-- A finite word whose value is 0 (a zero of either sign, R14). -/
def F32.IsZero (w : Word) : Prop := F32.isFinite w = true ∧ F32.units w = 0

/-- Two finite words of equal value: `==` does not tell them apart (R14). -/
def F32.SameValue (v w : Word) : Prop :=
  F32.isFinite v = true ∧ F32.isFinite w = true ∧ F32.units v = F32.units w

/-- `r` is `e` correctly rounded: no finite word is nearer, and of two equally near the one taken is even (R14). -/
def F32.Rounds (e : ℝ) (r : Word) : Prop :=
  F32.isFinite r = true ∧
    ∀ w, F32.isFinite w = true →
      |(F32.value r : ℝ) - e| ≤ |(F32.value w : ℝ) - e| ∧
      (F32.value w ≠ F32.value r → |(F32.value r : ℝ) - e| = |(F32.value w : ℝ) - e| → F32.mag r % 2 = 0)

/-! ### Invariants -/

/-- The structure of the state: `NCH` instances of each kind (R5), buffers canonical and inside `BLOCK_MAX` (R50), `x1`
and `x2` always 0 (R27, R29), a constructed RIAA instance holds its rate's table row (R28), and an instance that has not
been constructed has zero state (R40). -/
structure Structured (s : State) : Prop where
  bqLength : s.bq.length = s.cfg.nch
  riaaLength : s.riaa.length = s.cfg.nch
  satLength : s.sat.length = s.cfg.nch
  hfLength : s.hf.length = s.cfg.nch
  limLength : s.lim.length = s.cfg.nch
  memory : Memory.wf s.mem
  inWithin : Buffer.within s.mem.inBuf s.cfg.blockMax
  outWithin : Buffer.within s.mem.outBuf s.cfg.blockMax
  bqHistory : ∀ u ∈ s.bq, u.state.x1 = 0 ∧ u.state.x2 = 0 ∧ (u.V = false → u.state.y1 = 0 ∧ u.state.y2 = 0)
  riaaHistory : ∀ u ∈ s.riaa, u.state.x1 = 0 ∧ u.state.x2 = 0 ∧ (u.V = false → u.state.y1 = 0 ∧ u.state.y2 = 0)
  riaaRow : ∀ u ∈ s.riaa, u.V = true → u.coeffs = s.cfg.riaaTable.row u.rate
  hfHistory : ∀ u ∈ s.hf, u.V = false → u.state = 0
  limEnvelope : ∀ u ∈ s.lim, u.V = false → u.envelope = 0

/-- The ranges of the parameter registers (R30, R31, R33) of constructed instances, and every written element of `IN` a
number (R216). -/
structure InParameterRange (s : State) : Prop where
  satRange : ∀ u ∈ s.sat, u.V = true → F32.In01 u.saturation ∧ F32.In01 u.hardness
  hfRange : ∀ u ∈ s.hf, u.V = true → F32.In01 u.intensity
  limThreshold : ∀ u ∈ s.lim, u.V = true → F32.In01 u.threshold
  limRelease : ∀ u ∈ s.lim, u.V = true →
    F32.isFinite u.releaseTime = true ∧ F32.units (F32.lit 1 1000) ≤ F32.units u.releaseTime
  inFinite : ∀ c ∈ s.mem.inBuf, F32.isFinite c.2 = true

/-- These ranges, and that of the envelope: a number that is not negative (R34). -/
structure InRange (s : State) : Prop extends InParameterRange s where
  limEnvelope : ∀ u ∈ s.lim, F32.isFinite u.envelope = true ∧ 0 ≤ F32.units u.envelope

end Sys2Proof
end

