-- ==== Sys2Proof/Certificates/Slice0/Obligations.lean ====
section
/-! DEFINITION. The statements for the provers. Each docstring names the rule of the spec it formalises; a clause that rests
on the model's own choice names its log entry. Words written in hexadecimal are binary32 (R14): `0x3F800000` is 1,
`0x3F000000` is 0.5. A clause over `realNum` is the same formula in the spec's reference semantics (R7, R15). -/

open Sys2Proof Sys2Proof.Machine

/-! ### Encoding and decoding -/

/-- Decoding an encoded instruction gives it back, whatever words follow, and its opcode asks for just its operand words
(R70, R71, R73, R76, R79). -/
def Obligations.DecodeOfEncode : Prop :=
  ∀ (i : Instr) (more : List Word),
    decode (encodeHead i) (operandsOf i ++ more) = .ok i ∧
    operandCount (opField (encodeHead i)) = (operandsOf i).length

/-- An instruction that the decoder reads from words is encoded by just those words, so no two sequences of words mean
the same instruction and no bit of them is dropped (R71, R72, R73). -/
def Obligations.EncodeOfDecode : Prop :=
  ∀ (cw : Word) (ops : List Word) (i : Instr),
    decode cw ops = .ok i → (operandsOf i).length ≤ ops.length →
    encode i = cw :: ops.take (operandsOf i).length

/-- R72: the four masks; a command word selects a row exactly when `CW & mask == match`; it selects at most one. -/
def Obligations.MaskMatchSelectsRow : Prop :=
  (Format.UC.mask = 0xFF00FFFF ∧ Format.UB.mask = 0xFF000000 ∧ Format.GX.mask = 0xFFFF0000 ∧
    Format.GP.mask = 0xFFFFFFFF) ∧
  (∀ (cw : Word) (ops : List Word), ∀ row ∈ opcodeTable, cw &&& row.format.mask = row.matchWord →
    decode cw ops = .ok (row.make (chField cw) (immField cw) (operandAt ops))) ∧
  (∀ (cw : Word) (ops : List Word) (i : Instr), decode cw ops = .ok i →
    ∃ row ∈ opcodeTable, cw &&& row.format.mask = row.matchWord ∧
      i = row.make (chField cw) (immField cw) (operandAt ops)) ∧
  (∀ (cw : Word), ∀ r ∈ opcodeTable, ∀ r' ∈ opcodeTable, cw &&& r.format.mask = r.matchWord →
    cw &&& r'.format.mask = r'.matchWord → r.mnemonic = r'.mnemonic)

/-- Words written out from the encodings of R76 decode to the commands they stand for. -/
def Obligations.DecodeSanity : Prop :=
  decode 0x00000000 [] = .ok .nop ∧
  decode 0x01000003 [0xBF000000] = .ok (.wrin 3 0xBF000000) ∧
  decode 0x11010100 [] = .ok (.bqProcb 1 256) ∧
  decode 0x13000000 [0x3F000000, 0x3E800000, 0x3E000000, 0xBF000000, 0x3E800000] =
    .ok (.bqSetc 0 0x3F000000 0x3E800000 0x3E000000 0xBF000000 0x3E800000) ∧
  decode 0x23010000 [0x472C4400] = .ok (.riaaNew 1 0x472C4400) ∧
  decode 0x33000000 [0x3FD9999A, 0xBE4CCCCD] = .ok (.satSet 0 0x3FD9999A 0xBE4CCCCD) ∧
  decode 0x40010000 [0x3F800000] = .ok (.hfProc 1 0x3F800000) ∧
  decode 0x53000000 [0x3F666666, 0x3D4CCCCD] = .ok (.limNew 0 0x3F666666 0x3D4CCCCD) ∧
  decode 0x63000008 [] = .ok (.vaScore 8) ∧
  decode 0x74000040 [0x40C00000] = .ok (.legacyProcb 64 0x40C00000)

/-! ### The step and its refusals -/

/-- A step runs the decoded instruction: when the words of a well-formed command are next on the command port, the step is
that command's effect on the state without them (R16, R70, R77); and it is the step over an arbitrary number system,
taken at binary32 with the operand words for operands (R7, R14, R73). -/
def Obligations.StepRunsCommand : Prop :=
  ∀ (s : State) (i : Instr) (rest : List HostEvent),
    s.port = (encode i).map HostEvent.word ++ rest → i.wf s.cfg = true →
    step s = exec i { s with port := rest } ∧
    step s = State.perform { s with port := rest } (blockStep binary32 (.command i (operandAt (operandsOf i))))

/-- The model's choice (logs 3 and 4): a step changes nothing while the command port is empty or holds only the first
words of a command, and refuses a command that a reset cuts in two, to which R244 gives no meaning. -/
def Obligations.PortWaits : Prop :=
  (∀ s : State, s.port = [] → step s = .next s) ∧
  (∀ (s : State) (i : Instr) (m : Nat), i.wf s.cfg = true → m < (operandsOf i).length →
    s.port = .word (encodeHead i) :: ((operandsOf i).take m).map HostEvent.word → step s = .next s) ∧
  (∀ (s : State) (i : Instr) (m : Nat) (rest : List HostEvent), i.wf s.cfg = true → m < (operandsOf i).length →
    s.port = .word (encodeHead i) :: ((operandsOf i).take m).map HostEvent.word ++ .reset :: rest →
    step s = .refused .commandSplitByReset)

/-- R212: a command word is refused `UndefinedOpcode` exactly when `CW[31:24]` is none of the 31 opcodes; the reserved
`0x32`, `0x73`, `0x75` and every value from `0x80` are none of them. -/
def Obligations.UndefinedOpcodeRefused : Prop :=
  ∀ (s : State) (cw : Word) (rest : List HostEvent), s.port = .word cw :: rest →
    (step s = .refused (.undefinedOpcode (opField cw)) ↔
      opField cw ∉ ([0x00, 0x01, 0x02, 0x10, 0x11, 0x12, 0x13, 0x14, 0x20, 0x21, 0x22, 0x23, 0x30, 0x31, 0x33, 0x40,
        0x41, 0x42, 0x43, 0x50, 0x51, 0x52, 0x53, 0x60, 0x61, 0x62, 0x63, 0x70, 0x71, 0x72, 0x74] : List (BitVec 8))) ∧
    (opField cw = 0x32 ∨ opField cw = 0x73 ∨ opField cw = 0x75 ∨ 0x80 ≤ opField cw →
      step s = .refused (.undefinedOpcode (opField cw)))

/-- R213: a command word is refused `ReservedFieldNonzero` exactly when its opcode is in the table and a field that the
format reserves is not zero: `imm` in UC, `ch` in GX, either in GP. -/
def Obligations.ReservedFieldRefused : Prop :=
  ∀ (s : State) (cw : Word) (rest : List HostEvent), s.port = .word cw :: rest →
    (step s = .refused .reservedFieldNonzero ↔
      ∃ row ∈ opcodeTable, row.op = opField cw ∧
        ((row.format = .UC ∧ immField cw ≠ 0) ∨ (row.format = .GX ∧ chField cw ≠ 0) ∨
          (row.format = .GP ∧ (chField cw ≠ 0 ∨ immField cw ≠ 0))))

/-- R214: a channel from `NCH` on, an index from `BLOCK_MAX` on, or a length above `BLOCK_MAX` is refused `OutOfRange`,
the channel first; a command whose fields are all in range never is. -/
def Obligations.OutOfRangeRefused : Prop :=
  ∀ (s : State) (cw : Word) (rest : List HostEvent) (i : Instr), Structured s → s.port = .word cw :: rest →
    decode cw (leadingWords rest) = .ok i →
    (∀ ch, channelOf i = some ch → s.cfg.nch ≤ ch.toNat → step s = .refused (.outOfRange (.channel ch.toNat))) ∧
    (∀ j, indexOf i = some j → s.cfg.blockMax ≤ j.toNat → step s = .refused (.outOfRange (.index j.toNat))) ∧
    (∀ n, i.channelOk s.cfg = true → lengthOf i = some n → s.cfg.blockMax < n.toNat →
      step s = .refused (.outOfRange (.length n.toNat))) ∧
    (i.channelOk s.cfg = true → i.indexOk s.cfg = true → i.lengthOk s.cfg = true →
      ∀ w, step s ≠ .refused (.outOfRange w))

/-- R216: an operand word whose exponent field is all ones, a NaN or an infinity, is refused `NonFiniteOperand(k)` for the
least such `k`; a command with none never is. -/
def Obligations.NonFiniteRefused : Prop :=
  ∀ (s : State) (cw : Word) (rest : List HostEvent) (i : Instr), s.port = .word cw :: rest →
    decode cw (leadingWords rest) = .ok i → (operandsOf i).length ≤ (leadingWords rest).length →
    i.channelOk s.cfg = true → i.indexOk s.cfg = true → i.lengthOk s.cfg = true →
    (∀ (k : Nat) (w : Word), (operandsOf i)[k]? = some w → w.extractLsb' 23 8 = 0xFF →
      (∀ j v, j < k → (operandsOf i)[j]? = some v → v.extractLsb' 23 8 ≠ 0xFF) →
      step s = .refused (.nonFiniteOperand k)) ∧
    ((∀ w ∈ operandsOf i, w.extractLsb' 23 8 ≠ 0xFF) → ∀ k, step s ≠ .refused (.nonFiniteOperand k))

/-- R215: a processing or reset command addressed to an instance whose valid bit is 0 is refused `NotConstructed`, and no
other command ever is. -/
def Obligations.NotConstructedRefused : Prop :=
  ∀ (s : State) (i : Instr),
    (∀ k ch, needsConstructed i = some (k, ch) → validBit k ch.toNat s = some false →
      (∀ n, lengthOf i = some n → n.toNat ≤ s.cfg.blockMax) →
      exec i s = .refused (.notConstructed k ch.toNat)) ∧
    (∀ k c, exec i s = .refused (.notConstructed k c) →
      ∃ ch, needsConstructed i = some (k, ch) ∧ c = ch.toNat ∧ validBit k c s = some false)

/-- R53, R161, R202: a command that reads an unwritten element is refused `UnwrittenElement`, a block or analyzer command
for the least unwritten index of `IN[0..n-1]`; no other command is. -/
def Obligations.UnwrittenRefused : Prop :=
  ∀ (s : State) (i : Instr),
    (∀ n j, lengthOf i = some n → n.toNat ≤ s.cfg.blockMax →
      (∀ k ch, needsConstructed i = some (k, ch) → validBit k ch.toNat s = some true) →
      j < n.toNat → Buffer.read s.mem.inBuf j = none → (∀ j' < j, Buffer.read s.mem.inBuf j' ≠ none) →
      exec i s = .refused (.unwrittenElement .IN j)) ∧
    (∀ j, i = .rdout j → j.toNat < s.cfg.blockMax → Buffer.read s.mem.outBuf j.toNat = none →
      exec i s = .refused (.unwrittenElement .OUT j.toNat)) ∧
    (∀ b j, exec i s = .refused (.unwrittenElement b j) →
      (b = .IN ∧ (∃ n, lengthOf i = some n ∧ j < n.toNat) ∧ Buffer.read s.mem.inBuf j = none) ∨
      (b = .OUT ∧ (∃ ix, i = .rdout ix ∧ j = ix.toNat) ∧ Buffer.read s.mem.outBuf j = none))

/-- R211, R217: the reasons a step is refused are the seven of the spec, `LowpassDomain` raised by BQ.LOWPASS alone; the one
other reason is the model's (log 4) and needs a reset before the last operand word of the command that is next, the input
R244 gives no meaning. A reset queued behind the command does not matter. -/
def Obligations.SevenReasons : Prop :=
  ∀ (s : State) (r : Refusal), step s = .refused r →
    (r ≠ .commandSplitByReset →
      (∃ op, r = .undefinedOpcode op) ∨ r = .reservedFieldNonzero ∨ (∃ w, r = .outOfRange w) ∨
      (∃ k ch, r = .notConstructed k ch) ∨ (∃ k, r = .nonFiniteOperand k) ∨ (∃ b j, r = .unwrittenElement b j) ∨
      (∃ cutoff q ch, r = .lowpassDomain cutoff q ∧
        s.port.take 3 = [.word (encodeHead (.bqLowpass ch cutoff q)), .word cutoff, .word q])) ∧
    (r = .commandSplitByReset →
      ∃ (cw : Word) (ws : List Word) (rest : List HostEvent),
        s.port = .word cw :: ws.map HostEvent.word ++ .reset :: rest ∧ ws.length < operandCount (opField cw))

/-- R218: the order of the checks. A reason is reported only where every earlier check has passed, and among operand
words and among elements of `IN` it is the least. -/
def Obligations.RefusalOrder : Prop :=
  ∀ (s : State) (cw : Word) (rest : List HostEvent) (r : Refusal), Structured s → s.port = .word cw :: rest →
    step s = .refused r →
    (r = .reservedFieldNonzero → ∃ row, rowOf (opField cw) = some row) ∧
    (∀ c, r = .outOfRange (.channel c) → ∃ i, decode cw (leadingWords rest) = .ok i) ∧
    (∀ w, r = .outOfRange w → (∀ c, w ≠ .channel c) →
      ∃ i, decode cw (leadingWords rest) = .ok i ∧ i.channelOk s.cfg = true) ∧
    (∀ k, r = .nonFiniteOperand k → ∃ i, decode cw (leadingWords rest) = .ok i ∧ i.channelOk s.cfg = true ∧
      i.indexOk s.cfg = true ∧ i.lengthOk s.cfg = true ∧
      ∀ j < k, ∃ w, (operandsOf i)[j]? = some w ∧ F32.isFinite w = true) ∧
    (∀ k c, r = .notConstructed k c → ∃ i, decode cw (leadingWords rest) = .ok i ∧ i.wf s.cfg = true) ∧
    (∀ b j, r = .unwrittenElement b j → ∃ i, decode cw (leadingWords rest) = .ok i ∧ i.wf s.cfg = true ∧
      (∀ k ch, needsConstructed i = some (k, ch) → validBit k ch.toNat s = some true) ∧
      (b = .IN → ∀ j' < j, Buffer.read s.mem.inBuf j' ≠ none)) ∧
    (∀ cutoff q, r = .lowpassDomain cutoff q → ∃ i, decode cw (leadingWords rest) = .ok i ∧ i.wf s.cfg = true)

/-- R210, with the premises of R53, R102 and R202: no step faults (`Fault` has no constructor, log 17), and every well-formed
command addressed to a constructed unit completes, given that what it reads has been written and the domain of
BQ.LOWPASS. What it yields is in the statements of the results. -/
def Obligations.WellFormedCompletes : Prop :=
  (∀ (s : State) (f : Fault), step s ≠ .fault f) ∧
  (∀ (s : State) (i : Instr), Structured s → i.wf s.cfg = true →
    (∀ k ch, needsConstructed i = some (k, ch) → validBit k ch.toNat s = some true) →
    (∀ n, lengthOf i = some n → ∀ j < n.toNat, Buffer.read s.mem.inBuf j ≠ none) →
    (∀ j, i = .rdout j → Buffer.read s.mem.outBuf j.toNat ≠ none) →
    (∀ ch cutoff q, i = .bqLowpass ch cutoff q →
      F32.lt 0 cutoff = true ∧ F32.lt cutoff 0x3F000000 = true ∧ F32.lt 0 q = true) →
    ∃ t, exec i s = .next t)

/-! ### Reset -/

/-- R40: after reset every valid bit is 0, every state register is 0, every element is unwritten, and every command that
would read a coefficient or parameter register is refused, which is what "holding no value" comes to. (The words that
stand in those registers are the model's choice, log 8; this statement says nothing of them.) The configuration of
`State.reset`: NCH 2 and BLOCK_MAX 4096 are the defaults of R5 and R6, the table is left open (log 7), and `releaseUnderflow`
is the model's own parameter, `false` by log 20. -/
def Obligations.ResetContents : Prop :=
  State.reset = State.afterReset
    { nch := 2, blockMax := 4096, riaaTable := Config.openRiaaTable, releaseUnderflow := false }
    [] [] ∧
  ∀ (cfg : Config Word) (port : List HostEvent) (resp : List Word),
    (∀ k c, validBit k c (State.afterReset cfg port resp) = if c < cfg.nch then some false else none) ∧
    (∀ u ∈ (State.afterReset cfg port resp).bq, u.state = ⟨0, 0, 0, 0⟩) ∧
    (∀ u ∈ (State.afterReset cfg port resp).riaa, u.state = ⟨0, 0, 0, 0⟩) ∧
    (∀ u ∈ (State.afterReset cfg port resp).hf, u.state = 0) ∧
    (∀ u ∈ (State.afterReset cfg port resp).lim, u.envelope = 0) ∧
    (∀ j, Buffer.read (State.afterReset cfg port resp).mem.inBuf j = none ∧
      Buffer.read (State.afterReset cfg port resp).mem.outBuf j = none) ∧
    (∀ i k ch, needsConstructed i = some (k, ch) → ch.toNat < cfg.nch →
      (∀ n, lengthOf i = some n → n.toNat ≤ cfg.blockMax) →
      exec i (State.afterReset cfg port resp) = .refused (.notConstructed k ch.toNat))

/-- R230: the reset event makes the whole state the reset state, and no other step clears a valid bit or a written bit. That
the reset keeps the configuration and the words already on the response port is the model's choice (logs 2 and 6, read
with R23 and R243: they are no state of the block). -/
def Obligations.ResetEvent : Prop :=
  (∀ (s : State) (rest : List HostEvent), s.port = .reset :: rest →
    step s = .next (State.afterReset s.cfg rest s.resp)) ∧
  (∀ s t : State, step s = .next t → s.port.head? ≠ some .reset →
    (∀ k c, validBit k c s = some true → validBit k c t = some true) ∧
    (∀ j, Buffer.read s.mem.inBuf j ≠ none → Buffer.read t.mem.inBuf j ≠ none) ∧
    (∀ j, Buffer.read s.mem.outBuf j ≠ none → Buffer.read t.mem.outBuf j ≠ none))

/-! ### The result of each command -/

/-- R200, R201, R202: NOP, WRIN, RDOUT, with their encodings, their effects and nothing else. -/
def Obligations.SystemCommands : Prop :=
  ∀ s : State,
    (exec .nop s = .next s ∧ encode .nop = [0x00000000]) ∧
    (∀ (i : BitVec 16) (v : Word),
      encode (.wrin i v) = [0x01000000 ||| i.setWidth 32, v] ∧
      (i.toNat < s.cfg.blockMax → ∃ b : Buffer Word,
        exec (.wrin i v) s = .next { s with mem := { s.mem with inBuf := b } } ∧
        ∀ j, Buffer.read b j = if j = i.toNat then some v else Buffer.read s.mem.inBuf j) ∧
      (s.cfg.blockMax ≤ i.toNat → exec (.wrin i v) s = .refused (.outOfRange (.index i.toNat)))) ∧
    (∀ i : BitVec 16,
      encode (.rdout i) = [0x02000000 ||| i.setWidth 32] ∧
      (i.toNat < s.cfg.blockMax → ∀ v, Buffer.read s.mem.outBuf i.toNat = some v →
        exec (.rdout i) s = .next { s with resp := s.resp ++ [v] }) ∧
      (i.toNat < s.cfg.blockMax → Buffer.read s.mem.outBuf i.toNat = none →
        exec (.rdout i) s = .refused (.unwrittenElement .OUT i.toNat)) ∧
      (s.cfg.blockMax ≤ i.toNat → exec (.rdout i) s = .refused (.outOfRange (.index i.toNat))))

/-- R101: BQ.SETC stores the five operand words unchecked, zeroes the state, sets `V`, and changes nothing else. (That
constructing is the only way coefficients change is `CoefficientsOnlyByConstruction`.) -/
def Obligations.BqSetcConstructs : Prop :=
  ∀ (s : State) (ch : BitVec 8) (b0 b1 b2 a1 a2 : Word), ch.toNat < s.bq.length →
    encode (.bqSetc ch b0 b1 b2 a1 a2) = [0x13000000 ||| ch.setWidth 32 <<< 16, b0, b1, b2, a1, a2] ∧
    exec (.bqSetc ch b0 b1 b2 a1 a2) s =
      .next { s with bq := s.bq.set ch.toNat { V := true, coeffs := ⟨b0, b1, b2, a1, a2⟩, state := ⟨0, 0, 0, 0⟩ } }

/-- R102: BQ.LOWPASS computes the cookbook coefficients inside its domain, zeroes the state and sets `V`; outside it is
refused `LowpassDomain`. The word of `PI` is the model's (log 11). -/
def Obligations.BqLowpassConstructs : Prop :=
  ∀ (s : State) (ch : BitVec 8) (cutoff q : Word), ch.toNat < s.bq.length →
    let cw := F32.cos (F32.mul (F32.mul 0x40000000 0x40490FDB) cutoff)
    let sw := F32.sin (F32.mul (F32.mul 0x40000000 0x40490FDB) cutoff)
    let alpha := F32.div sw (F32.mul 0x40000000 q)
    let a0 := F32.add 0x3F800000 alpha
    encode (.bqLowpass ch cutoff q) = [0x14000000 ||| ch.setWidth 32 <<< 16, cutoff, q] ∧
    (F32.lt 0 cutoff = true → F32.lt cutoff 0x3F000000 = true → F32.lt 0 q = true →
      exec (.bqLowpass ch cutoff q) s =
        .next { s with
          bq := s.bq.set ch.toNat
            { V := true
              coeffs :=
                { b0 := F32.div (F32.div (F32.sub 0x3F800000 cw) 0x40000000) a0
                  b1 := F32.div (F32.sub 0x3F800000 cw) a0
                  b2 := F32.div (F32.div (F32.sub 0x3F800000 cw) 0x40000000) a0
                  a1 := F32.div (F32.mul 0xC0000000 cw) a0
                  a2 := F32.div (F32.sub 0x3F800000 alpha) a0 }
              state := ⟨0, 0, 0, 0⟩ } }) ∧
    (F32.lt 0 cutoff = false ∨ F32.lt cutoff 0x3F000000 = false ∨ F32.lt 0 q = false →
      exec (.bqLowpass ch cutoff q) s = .refused (.lowpassDomain cutoff q))

/-- R103: one Direct-Form-II-Transposed step. The new `y1` uses the new output and the old `y2`; `x1`, `x2`, the
coefficients and everything else are unchanged. -/
def Obligations.BqProcStep : Prop :=
  (∀ (s : State) (ch : BitVec 8) (x : Word) (u : BiquadUnit Word), s.bq[ch.toNat]? = some u →
    let y := F32.add (F32.mul u.coeffs.b0 x) u.state.y1
    let n1 := F32.add (F32.sub (F32.mul u.coeffs.b1 x) (F32.mul u.coeffs.a1 y)) u.state.y2
    let n2 := F32.sub (F32.mul u.coeffs.b2 x) (F32.mul u.coeffs.a2 y)
    encode (.bqProc ch x) = [0x10000000 ||| ch.setWidth 32 <<< 16, x] ∧
    (u.V = true → exec (.bqProc ch x) s =
      .next { s with
        bq := s.bq.set ch.toNat { u with state := { u.state with y1 := n1, y2 := n2 } }
        resp := s.resp ++ [y] }) ∧
    (u.V = false → exec (.bqProc ch x) s = .refused (.notConstructed .BQ ch.toNat))) ∧
  (∀ (c : FilterCoefficients ℝ) (z : FilterState ℝ) (x : ℝ),
    let y := c.b0 * x + z.y1
    dfiiStep realNum c z x = ({ z with y1 := c.b1 * x - c.a1 * y + z.y2, y2 := c.b2 * x - c.a2 * y }, y))

/-- R123, R122: RIAA.NEW snaps the rate, ties to 44100, loads that row of the table, zeroes the state and sets `V`. -/
def Obligations.RiaaNewConstructs : Prop :=
  ∀ (s : State) (ch : BitVec 8) (sr : Word), ch.toNat < s.riaa.length →
    let rate : RiaaRate :=
      if F32.le (F32.abs (F32.sub sr 0x472C4400)) (F32.abs (F32.sub sr 0x473B8000)) then .hz44100 else .hz48000
    encode (.riaaNew ch sr) = [0x23000000 ||| ch.setWidth 32 <<< 16, sr] ∧
    exec (.riaaNew ch sr) s =
      .next { s with
        riaa := s.riaa.set ch.toNat
          { V := true, rate := rate, coeffs := s.cfg.riaaTable.row rate, state := ⟨0, 0, 0, 0⟩ } }

/-- R124: RIAA.PROC is the step of R103 on the registers of the RIAA instance. -/
def Obligations.RiaaProcStep : Prop :=
  ∀ (s : State) (ch : BitVec 8) (x : Word) (u : RiaaUnit Word), s.riaa[ch.toNat]? = some u →
    let y := F32.add (F32.mul u.coeffs.b0 x) u.state.y1
    let n1 := F32.add (F32.sub (F32.mul u.coeffs.b1 x) (F32.mul u.coeffs.a1 y)) u.state.y2
    let n2 := F32.sub (F32.mul u.coeffs.b2 x) (F32.mul u.coeffs.a2 y)
    encode (.riaaProc ch x) = [0x20000000 ||| ch.setWidth 32 <<< 16, x] ∧
    (u.V = true → exec (.riaaProc ch x) s =
      .next { s with
        riaa := s.riaa.set ch.toNat { u with state := { u.state with y1 := n1, y2 := n2 } }
        resp := s.resp ++ [y] }) ∧
    (u.V = false → exec (.riaaProc ch x) s = .refused (.notConstructed .RIAA ch.toNat))

/-- R131, R141, R151: the setters clamp, never refuse, and set `V`; HF.SET keeps the history, LIM.NEW zeroes the
envelope and floors the release time at 0.001. -/
def Obligations.SettersClamp : Prop :=
  ∀ (s : State) (ch : BitVec 8) (a b : Word),
    (encode (.satSet ch a b) = [0x33000000 ||| ch.setWidth 32 <<< 16, a, b] ∧
      encode (.hfSet ch a) = [0x43000000 ||| ch.setWidth 32 <<< 16, a] ∧
      encode (.limNew ch a b) = [0x53000000 ||| ch.setWidth 32 <<< 16, a, b]) ∧
    (ch.toNat < s.sat.length → exec (.satSet ch a b) s =
      .next { s with
        sat := s.sat.set ch.toNat
          { V := true
            saturation := F32.min (F32.max a 0) 0x3F800000
            hardness := F32.min (F32.max b 0) 0x3F800000 } }) ∧
    (∀ u, s.hf[ch.toNat]? = some u → exec (.hfSet ch a) s =
      .next { s with
        hf := s.hf.set ch.toNat
          { V := true, intensity := F32.min (F32.max a 0) 0x3F800000, state := u.state } }) ∧
    (ch.toNat < s.lim.length → exec (.limNew ch a b) s =
      .next { s with
        lim := s.lim.set ch.toNat
          { V := true
            threshold := F32.min (F32.max a 0) 0x3F800000
            releaseTime := F32.max b 0x3A83126F
            envelope := 0 } })

/-- R132: SAT.PROC shapes one sample: drive, saturation curve with its strict comparison, makeup gain; no state is
written. (Over the reals a saturation that makes the drive 0, which SAT.SET never leaves, is outside the spec's domain of
`/`; there the statement speaks of the model's total division, log 19.) -/
def Obligations.SatProcShapes : Prop :=
  (∀ (s : State) (ch : BitVec 8) (x : Word) (u : SatUnit Word), s.sat[ch.toNat]? = some u →
    let drive := F32.add 0x3F800000 (F32.mul u.saturation 0x40A00000)
    let driven := F32.mul x drive
    let knee := F32.add 0x3F000000 (F32.mul u.hardness 0x3E4CCCCD)
    let excess := F32.max (F32.sub (F32.abs driven) knee) 0
    let factor := F32.sub 0x3F800000 (F32.mul u.hardness 0x3E99999A)
    let m := F32.min (F32.add knee (F32.mul excess factor)) (F32.add 0x3F800000 (F32.mul u.hardness 0x3DCCCCCD))
    let saturated :=
      if F32.lt (F32.abs driven) 0x3F000000 then driven else if F32.lt driven 0 then F32.neg m else m
    encode (.satProc ch x) = [0x30000000 ||| ch.setWidth 32 <<< 16, x] ∧
    (u.V = true → exec (.satProc ch x) s =
      .next { s with resp := s.resp ++ [F32.div saturated (F32.mul drive 0x3F4CCCCD)] }) ∧
    (u.V = false → exec (.satProc ch x) s = .refused (.notConstructed .SAT ch.toNat))) ∧
  (∀ sat h x : ℝ,
    let drive := 1 + sat * 5
    let driven := x * drive
    let knee := 0.5 + h * 0.2
    let m := min (knee + max (|driven| - knee) 0 * (1 - h * 0.3)) (1 + h * 0.1)
    (|driven| < 0.5 → shape realNum sat h x = driven / (drive * 0.8)) ∧
    (0.5 ≤ |driven| → driven < 0 → shape realNum sat h x = -m / (drive * 0.8)) ∧
    (0.5 ≤ |driven| → 0 ≤ driven → shape realNum sat h x = m / (drive * 0.8)))

/-- R142: HF.PROC computes the output in the form written and keeps the input as the new history. -/
def Obligations.HfProcStep : Prop :=
  (∀ (s : State) (ch : BitVec 8) (x : Word) (u : HfUnit Word), s.hf[ch.toNat]? = some u →
    let boosted := F32.add x (F32.mul (F32.sub x u.state) 0x3F000000)
    encode (.hfProc ch x) = [0x40000000 ||| ch.setWidth 32 <<< 16, x] ∧
    (u.V = true → exec (.hfProc ch x) s =
      .next { s with
        hf := s.hf.set ch.toNat { u with state := x }
        resp := s.resp ++ [F32.add (F32.mul x (F32.sub 0x3F800000 u.intensity)) (F32.mul boosted u.intensity)] }) ∧
    (u.V = false → exec (.hfProc ch x) s = .refused (.notConstructed .HF ch.toNat))) ∧
  (∀ t z x : ℝ, hfOutput realNum t z x = x * (1 - t) + (x + (x - z) * 0.5) * t)

/-- R152: LIM.PROC updates the envelope first (strict comparison) and computes the output from the updated envelope. In
binary32 the release is the product rounded once (R14); only where `releaseUnderflow` is set, which it is not on the default
hardware (log 20), a release that rounding leaves undecayed underflows to 0.
(Over the reals a release time of 0, which LIM.NEW never leaves, is outside the spec's domain of `/`; there the statement speaks
of the model's total division, log 19.) -/
def Obligations.LimProcStep : Prop :=
  (∀ (s : State) (ch : BitVec 8) (x : Word) (u : LimUnit Word), s.lim[ch.toNat]? = some u →
    let factor := F32.exp (F32.div 0xBF800000 u.releaseTime)
    let decayed := F32.mul u.envelope factor
    let env := if F32.lt u.threshold (F32.abs x) then F32.abs x
      else if s.cfg.releaseUnderflow && F32.lt 0 u.envelope && F32.lt factor 0x3F800000 && F32.le u.envelope decayed then 0 else decayed
    let out := if F32.lt 0 env then F32.div (F32.mul x u.threshold) env else x
    encode (.limProc ch x) = [0x50000000 ||| ch.setWidth 32 <<< 16, x] ∧
    (u.V = true → exec (.limProc ch x) s =
      .next { s with lim := s.lim.set ch.toNat { u with envelope := env }, resp := s.resp ++ [out] }) ∧
    (u.V = false → exec (.limProc ch x) s = .refused (.notConstructed .LIM ch.toNat))) ∧
  (∀ (b : Bool) (thr rt e x : ℝ),
    (thr < |x| → limEnvelope realNum b thr rt e x = |x|) ∧
    (|x| ≤ thr → limEnvelope realNum b thr rt e x = e * Real.exp (-1 / rt)) ∧
    (0 < e → limOutput realNum thr e x = x * thr / e) ∧
    (e ≤ 0 → limOutput realNum thr e x = x))

/-- R105, R126, R144, R154: a unit reset zeroes the state of its instance, keeps coefficients, parameters, rate and `V`,
is idempotent, and is refused on an instance that is not constructed. -/
def Obligations.UnitResets : Prop :=
  ∀ (s : State) (ch : BitVec 8),
    (encode (.bqReset ch) = [0x12000000 ||| ch.setWidth 32 <<< 16] ∧
      encode (.riaaReset ch) = [0x22000000 ||| ch.setWidth 32 <<< 16] ∧
      encode (.hfReset ch) = [0x42000000 ||| ch.setWidth 32 <<< 16] ∧
      encode (.limReset ch) = [0x52000000 ||| ch.setWidth 32 <<< 16]) ∧
    (∀ u, s.bq[ch.toNat]? = some u →
      (u.V = true → ∃ t, t = { s with bq := s.bq.set ch.toNat { u with state := ⟨0, 0, 0, 0⟩ } } ∧
        exec (.bqReset ch) s = .next t ∧ exec (.bqReset ch) t = .next t) ∧
      (u.V = false → exec (.bqReset ch) s = .refused (.notConstructed .BQ ch.toNat))) ∧
    (∀ u, s.riaa[ch.toNat]? = some u →
      (u.V = true → ∃ t, t = { s with riaa := s.riaa.set ch.toNat { u with state := ⟨0, 0, 0, 0⟩ } } ∧
        exec (.riaaReset ch) s = .next t ∧ exec (.riaaReset ch) t = .next t) ∧
      (u.V = false → exec (.riaaReset ch) s = .refused (.notConstructed .RIAA ch.toNat))) ∧
    (∀ u, s.hf[ch.toNat]? = some u →
      (u.V = true → ∃ t, t = { s with hf := s.hf.set ch.toNat { u with state := 0 } } ∧
        exec (.hfReset ch) s = .next t ∧ exec (.hfReset ch) t = .next t) ∧
      (u.V = false → exec (.hfReset ch) s = .refused (.notConstructed .HF ch.toNat))) ∧
    (∀ u, s.lim[ch.toNat]? = some u →
      (u.V = true → ∃ t, t = { s with lim := s.lim.set ch.toNat { u with envelope := 0 } } ∧
        exec (.limReset ch) s = .next t ∧ exec (.limReset ch) t = .next t) ∧
      (u.V = false → exec (.limReset ch) s = .refused (.notConstructed .LIM ch.toNat)))

/-- R203, R104, R125, R133, R143, R153: a block command of a unit does what `n` single-sample commands in index order do
to the unit, puts their results into `OUT[0..n-1]` instead of on the response port, and touches nothing else; its checks
precede every state change. -/
def Obligations.BlockIsSingles : Prop :=
  (∀ (ch : BitVec 8) (n : BitVec 16),
    encode (.bqProcb ch n) = [0x11000000 ||| ch.setWidth 32 <<< 16 ||| n.setWidth 32] ∧
    encode (.riaaProcb ch n) = [0x21000000 ||| ch.setWidth 32 <<< 16 ||| n.setWidth 32] ∧
    encode (.satProcb ch n) = [0x31000000 ||| ch.setWidth 32 <<< 16 ||| n.setWidth 32] ∧
    encode (.hfProcb ch n) = [0x41000000 ||| ch.setWidth 32 <<< 16 ||| n.setWidth 32] ∧
    encode (.limProcb ch n) = [0x51000000 ||| ch.setWidth 32 <<< 16 ||| n.setWidth 32]) ∧
  (∀ (k : UnitKind) (ch : BitVec 8) (n : BitVec 16) (s : State) (xs : List Word),
    n.toNat ≤ s.cfg.blockMax → validBit k ch.toNat s = some true → InBlock s n xs →
    ∃ (t : State) (ys : List Word) (b : Buffer Word),
      execAll (xs.map (procOf k ch)) s = .next t ∧ t.resp = s.resp ++ ys ∧ ys.length = n.toNat ∧
      exec (procbOf k ch n) s = .next { t with resp := s.resp, mem := { s.mem with outBuf := b } } ∧
      ∀ j, Buffer.read b j = if j < n.toNat then ys[j]? else Buffer.read s.mem.outBuf j) ∧
  (∀ (k : UnitKind) (ch : BitVec 8) (n : BitVec 16) (s : State), n.toNat ≤ s.cfg.blockMax →
    (validBit k ch.toNat s = some false → exec (procbOf k ch n) s = .refused (.notConstructed k ch.toNat)) ∧
    (validBit k ch.toNat s = some true → ∀ j < n.toNat, Buffer.read s.mem.inBuf j = none →
      (∀ j' < j, Buffer.read s.mem.inBuf j' ≠ none) →
      exec (procbOf k ch n) s = .refused (.unwrittenElement .IN j)))

/-- R165, R166, R167, R170: the analyzer commands on a written block: RMS, crest, tilt and the squashed score, sums in
index order from 0, weighted sum left to right; nothing is written. -/
def Obligations.AnalyzerResults : Prop :=
  ∀ (s : State) (n : BitVec 16) (xs : List Word), n.toNat ≤ s.cfg.blockMax → InBlock s n xs →
    let energy := fun ys : List Word => ys.foldl (fun acc x => F32.add acc (F32.mul x x)) 0
    let r := if n.toNat = 0 then 0 else F32.sqrt (F32.div (energy xs) (F32.lit n.toNat 1))
    let peak := xs.tail.foldl (fun acc x => F32.max acc (F32.abs x)) (F32.abs (xs.headD 0))
    let crest := if F32.eq r 0 then 0 else F32.div peak r
    let e1 := energy (xs.take (n.toNat / 4))
    let e2 := energy (xs.drop (n.toNat - n.toNat / 4))
    let tilt := if n.toNat < 4 then 0x3F000000
      else if F32.eq e1 0 && F32.eq e2 0 then 0x3F000000 else F32.div e1 (F32.add e1 e2)
    let rmsNorm := F32.min (F32.mul r 0x41200000) 0x3F800000
    let crestNorm := F32.min (F32.max (F32.div (F32.sub crest 0x3F800000) 0x41200000) 0) 0x3F800000
    let score := F32.add (F32.add (F32.mul 0x3F000000 rmsNorm) (F32.mul 0x3E99999A crestNorm))
      (F32.mul 0x3E4CCCCD tilt)
    let z := F32.sub (F32.mul score 0x40000000) 0x3F800000
    let velocity := F32.div 0x3F800000 (F32.add 0x3F800000 (F32.exp (F32.neg z)))
    (encode (.vaRms n) = [0x60000000 ||| n.setWidth 32] ∧ encode (.vaCrest n) = [0x61000000 ||| n.setWidth 32] ∧
      encode (.vaTilt n) = [0x62000000 ||| n.setWidth 32] ∧ encode (.vaScore n) = [0x63000000 ||| n.setWidth 32]) ∧
    exec (.vaRms n) s = .next { s with resp := s.resp ++ [r] } ∧
    exec (.vaCrest n) s = .next { s with resp := s.resp ++ [crest] } ∧
    exec (.vaTilt n) s = .next { s with resp := s.resp ++ [tilt] } ∧
    exec (.vaScore n) s = .next { s with resp := s.resp ++ [velocity] }

/-- R181, R182, R184: MIX in the form written and without a clamp, DB2LIN, and SCLIPA with its boundary; each puts one
result on the response port and writes nothing else. -/
def Obligations.UtilityResults : Prop :=
  ∀ s : State,
    (∀ dry wet mix : Word,
      encode (.mix dry wet mix) = [0x70000000, dry, wet, mix] ∧
      exec (.mix dry wet mix) s =
        .next { s with resp := s.resp ++ [F32.add (F32.mul dry (F32.sub 0x3F800000 mix)) (F32.mul wet mix)] }) ∧
    (∀ db : Word,
      encode (.db2lin db) = [0x71000000, db] ∧
      exec (.db2lin db) s = .next { s with resp := s.resp ++ [F32.pow10 (F32.div db 0x41A00000)] }) ∧
    (∀ x : Word,
      let y := if F32.le (F32.abs x) 0x3F800000 then F32.sub x (F32.div (F32.mul (F32.mul x x) x) 0x40400000)
        else if F32.lt 0 x then 0x3F2AAAAB else 0xBF2AAAAB
      encode (.sclipa x) = [0x72000000, x] ∧ exec (.sclipa x) s = .next { s with resp := s.resp ++ [y] })

/-- R185: LEGACY.PROCB multiplies each sample by the gain of `drive_db`, soft-clips it and writes `OUT[0..n-1]`; it uses no
unit and writes nothing else. -/
def Obligations.LegacyBlock : Prop :=
  ∀ (s : State) (n : BitVec 16) (db : Word) (xs : List Word), n.toNat ≤ s.cfg.blockMax →
    let g := F32.pow10 (F32.div db 0x41A00000)
    let clip := fun y : Word =>
      if F32.le (F32.abs y) 0x3F800000 then F32.sub y (F32.div (F32.mul (F32.mul y y) y) 0x40400000)
      else if F32.lt 0 y then 0x3F2AAAAB else 0xBF2AAAAB
    encode (.legacyProcb n db) = [0x74000000 ||| n.setWidth 32, db] ∧
    (InBlock s n xs → ∃ b : Buffer Word,
      exec (.legacyProcb n db) s = .next { s with mem := { s.mem with outBuf := b } } ∧
      ∀ j, Buffer.read b j =
        if j < n.toNat then (xs[j]?).map (fun x => clip (F32.mul x g)) else Buffer.read s.mem.outBuf j) ∧
    (∀ j < n.toNat, Buffer.read s.mem.inBuf j = none → (∀ j' < j, Buffer.read s.mem.inBuf j' ≠ none) →
      exec (.legacyProcb n db) s = .refused (.unwrittenElement .IN j))

/-! ### Frames and isolation -/

/-- R36: a command that completes leaves every instance but the one it is addressed to, the configuration, and the words
still on the command port as they were. -/
def Obligations.InstanceFrame : Prop :=
  ∀ (i : Instr) (s t : State), exec i s = .next t →
    (∀ k c, (∀ ch, addressed i = some (k, ch) → ch.toNat ≠ c) → SameUnit k c s t) ∧
    t.cfg = s.cfg ∧ t.port = s.port

/-- R36, R37: nothing but the addressed instance, the buffers and the command itself reaches a command: two states that
agree on these give the same refusal, or the same result word, the same buffers and the same registers of that
instance. -/
def Obligations.NothingElseIsRead : Prop :=
  ∀ (i : Instr) (s t : State), s.cfg = t.cfg → s.mem = t.mem →
    (∀ k ch, addressed i = some (k, ch) → SameUnit k ch.toNat s t) →
    (∀ r, exec i s = .refused r → exec i t = .refused r) ∧
    (∀ s', exec i s = .next s' → ∃ (t' : State) (out : List Word), exec i t = .next t' ∧
      s'.resp = s.resp ++ out ∧ t'.resp = t.resp ++ out ∧ s'.mem = t'.mem ∧
      (∀ k ch, addressed i = some (k, ch) → SameUnit k ch.toNat s' t'))

/-- R51: WRIN writes the one element of `IN` its index names, a block command writes `OUT[0..n-1]` for its length `n`, and
no command writes any other element of either buffer. -/
def Obligations.MemoryFrame : Prop :=
  ∀ (i : Instr) (s t : State), exec i s = .next t →
    (∀ j, (∀ ix v, i = .wrin ix v → ix.toNat ≠ j) → Buffer.read t.mem.inBuf j = Buffer.read s.mem.inBuf j) ∧
    (∀ j, (writesOut i = true → ∀ n, lengthOf i = some n → n.toNat ≤ j) →
      Buffer.read t.mem.outBuf j = Buffer.read s.mem.outBuf j)

/-- R74: a completed command puts exactly one word on the response port if it is one of the commands with a result, and
none otherwise; earlier words stay as they are, in order. -/
def Obligations.ResponseFrame : Prop :=
  ∀ (i : Instr) (s t : State), exec i s = .next t →
    (hasResult i = true → ∃ w, t.resp = s.resp ++ [w]) ∧ (hasResult i = false → t.resp = s.resp) ∧
    (hasResult i = true ↔ opOf i ∈ ([0x02, 0x10, 0x20, 0x30, 0x40, 0x50, 0x60, 0x61, 0x62, 0x63, 0x70, 0x71, 0x72] :
      List (BitVec 8)))

/-- R22: a valid bit is set by the constructor or setter of its instance and changed by no other command. -/
def Obligations.ValidBits : Prop :=
  ∀ (i : Instr) (s t : State), exec i s = .next t →
    ∀ k c,
      ((∃ ch, configures i = some (k, ch) ∧ ch.toNat = c) → validBit k c t = some true) ∧
      ((∀ ch, configures i = some (k, ch) → ch.toNat ≠ c) → validBit k c t = validBit k c s)

/-! ### Invariants -/

/-- Every step keeps the structure of the state (R5, R27, R28, R40, R50), and the configuration. -/
def Obligations.StructureKept : Prop :=
  ∀ s t : State, Structured s → step s = .next t → Structured t ∧ t.cfg = s.cfg

/-- Every step keeps the ranges of the parameter registers and of the envelope (R30, R31, R33, R34). `exp` is uninterpreted
in binary32 (log 10, R14), so the envelope, and it alone, needs a premise: the release factor of each constructed limiter
lies in [0, 1], as every approximation of `exp` on a negative operand that does not round above 1 gives (U6: "a claim that
needs finite results takes as premise that the run stays in the finite range"). -/
def Obligations.RangesKept : Prop :=
  ∀ s t : State, step s = .next t →
    (InParameterRange s → InParameterRange t) ∧
    (InRange s →
      (∀ u ∈ s.lim, u.V = true → F32.In01 (F32.exp (F32.div 0xBF800000 u.releaseTime))) → InRange t)

/-- The reset state, and every state that a reset event leaves, has both invariants. -/
def Obligations.ResetHasInvariants : Prop :=
  (Structured State.reset ∧ InRange State.reset) ∧
  ∀ (cfg : Config Word) (port : List HostEvent) (resp : List Word),
    Structured (State.afterReset cfg port resp) ∧ InRange (State.afterReset cfg port resp)

/-! ### Numbers -/

/-- R14: `+ - * /`, `sqrt` and literals are correctly rounded, to nearest, ties to even, wherever the result does not
overflow; comparisons, `min`, `max`, `abs` and negation are exact. -/
def Obligations.CorrectlyRounded : Prop :=
  (∀ a b : Word, F32.isFinite a = true → F32.isFinite b = true →
    let x : ℝ := F32.value a
    let y : ℝ := F32.value b
    (|x + y| < 2 ^ 128 - 2 ^ 103 → F32.Rounds (x + y) (F32.add a b)) ∧
    (|x - y| < 2 ^ 128 - 2 ^ 103 → F32.Rounds (x - y) (F32.sub a b)) ∧
    (|x * y| < 2 ^ 128 - 2 ^ 103 → F32.Rounds (x * y) (F32.mul a b)) ∧
    (y ≠ 0 → |x / y| < 2 ^ 128 - 2 ^ 103 → F32.Rounds (x / y) (F32.div a b)) ∧
    (0 ≤ x → F32.Rounds (Real.sqrt x) (F32.sqrt a)) ∧
    (F32.lt a b = true ↔ x < y) ∧ (F32.le a b = true ↔ x ≤ y) ∧ (F32.eq a b = true ↔ x = y) ∧
    (F32.value (F32.min a b) : ℝ) = min x y ∧ (F32.value (F32.max a b) : ℝ) = max x y ∧
    (F32.value (F32.abs a) : ℝ) = |x| ∧ (F32.value (F32.neg a) : ℝ) = -x) ∧
  (∀ p q : Nat, 0 < q → (p : ℝ) / q < 2 ^ 128 - 2 ^ 103 → F32.Rounds ((p : ℝ) / q) (F32.lit p q))

/-! ### Laws of the units -/

/-- R106: a biquad constructed with `1, 0, 0, 0, 0` is the identity on every stream of numbers, and a reset after the stream
leaves zero; in binary32 under `==`, and in the reals. That `y1` and `y2` stay zero during the stream is an inference the
spec marks as its own (derived from R103). -/
def Obligations.IdentityFilter : Prop :=
  (∀ (s : State) (ch : BitVec 8) (xs : List Word), ch.toNat < s.bq.length → (∀ x ∈ xs, F32.isFinite x = true) →
    ∃ (t : State) (ys : List Word) (u : BiquadUnit Word),
      execAll (.bqSetc ch 0x3F800000 0 0 0 0 :: xs.map (Instr.bqProc ch)) s = .next t ∧
      t.resp = s.resp ++ ys ∧ List.Forall₂ F32.SameValue xs ys ∧
      t.bq[ch.toNat]? = some u ∧ F32.IsZero u.state.y1 ∧ F32.IsZero u.state.y2 ∧
      exec (.bqReset ch) t = .next { t with bq := t.bq.set ch.toNat { u with state := ⟨0, 0, 0, 0⟩ } }) ∧
  (∀ xs : List ℝ, runBlock (dfiiStep realNum ⟨1, 0, 0, 0, 0⟩) ⟨0, 0, 0, 0⟩ xs = (⟨0, 0, 0, 0⟩, xs))

/-- R107 (an inference the spec marks as its own): over the reals the biquad step is linear in state and input, and its
impulse response satisfies the recurrence. -/
def Obligations.BiquadLinear : Prop :=
  (∀ (c : FilterCoefficients ℝ) (z z' : FilterState ℝ) (a b x x' : ℝ),
    let r := dfiiStep realNum c z x
    let r' := dfiiStep realNum c z' x'
    let mixed := dfiiStep realNum c
      ⟨a * z.x1 + b * z'.x1, a * z.x2 + b * z'.x2, a * z.y1 + b * z'.y1, a * z.y2 + b * z'.y2⟩ (a * x + b * x')
    mixed.2 = a * r.2 + b * r'.2 ∧ mixed.1.y1 = a * r.1.y1 + b * r'.1.y1 ∧ mixed.1.y2 = a * r.1.y2 + b * r'.1.y2) ∧
  (∀ c : FilterCoefficients ℝ,
    let h := fun k : Nat => (runBlock (dfiiStep realNum c) ⟨0, 0, 0, 0⟩ (1 :: List.replicate k 0)).2.getD k 0
    h 0 = c.b0 ∧ h 1 = c.b1 - c.a1 * c.b0 ∧ h 2 = c.b2 - c.a2 * c.b0 - c.a1 * h 1 ∧
    ∀ k, h (k + 3) = -c.a1 * h (k + 2) - c.a2 * h (k + 1))

/-- R102 (an inference the spec marks as its own): over the reals every point of the domain of BQ.LOWPASS gives a stable
filter and divides by no zero. -/
def Obligations.LowpassStable : Prop :=
  ∀ cutoff q : ℝ,
    (lowpassDomain realNum cutoff q = true ↔ 0 < cutoff ∧ cutoff < 0.5 ∧ 0 < q) ∧
    (0 < cutoff → cutoff < 0.5 → 0 < q →
      let w0 := 2 * Real.pi * cutoff
      let alpha := Real.sin w0 / (2 * q)
      let c := lowpassCoefficients realNum cutoff q
      1 < 1 + alpha ∧ c.b0 = (1 - Real.cos w0) / 2 / (1 + alpha) ∧ c.b1 = (1 - Real.cos w0) / (1 + alpha) ∧
      c.b2 = c.b0 ∧ c.a1 = -2 * Real.cos w0 / (1 + alpha) ∧ c.a2 = (1 - alpha) / (1 + alpha) ∧
      |c.a2| < 1 ∧ |c.a1| < 1 + c.a2)

/-- R122 (its second sentence is the spec's own inference): `snap` gives 44100 exactly up to 46050 in the reals; in
binary32 up to 46050, and 48000 from there up to `2^35`, where two distances that differ by 3900 still round apart. -/
def Obligations.SnapNearest : Prop :=
  (∀ sr : ℝ, snapRate realNum sr = (if |sr - 44100| ≤ |sr - 48000| then .hz44100 else .hz48000) ∧
    (snapRate realNum sr = .hz44100 ↔ sr ≤ 46050)) ∧
  (∀ w : Word, F32.isFinite w = true →
    (F32.value w ≤ 46050 → snapRate binary32 w = .hz44100) ∧
    (46050 < F32.value w → F32.value w ≤ 2 ^ 35 → snapRate binary32 w = .hz48000))

/-- R134: the shaper is odd-symmetric, in the reals for all parameters, and in binary32 at parameters in [0, 1] for every
sample whose drive cannot overflow. (Over the reals the parameters that make the drive 0 are outside the spec's domain of
`/`; there the statement speaks of the model's total division, log 19.) -/
def Obligations.ShaperOdd : Prop :=
  (∀ sat h x : ℝ, shape realNum sat h (-x) = -shape realNum sat h x) ∧
  (∀ sat h x : Word, F32.In01 sat → F32.In01 h → F32.mag x ≤ 0x7E000000 →
    F32.SameValue (shape binary32 sat h (F32.neg x)) (F32.neg (shape binary32 sat h x)))

/-- R132, corner cases 6 and 7 (inferences the spec marks as its own): over the reals the shaper is bounded and
non-decreasing. -/
def Obligations.ShaperBounded : Prop :=
  ∀ sat h : ℝ, 0 ≤ sat → sat ≤ 1 → 0 ≤ h → h ≤ 1 →
    (∀ x, |shape realNum sat h x| ≤ (1 + 0.1 * h) / (0.8 * (1 + sat * 5))) ∧
    (1 + 0.1 * h) / (0.8 * (1 + sat * 5)) ≤ 1.375 ∧
    (∀ x y, x ≤ y → shape realNum sat h x ≤ shape realNum sat h y)

/-- R142, corner cases 1, 2 and 4, and R143: over the reals intensity 0 and a repeated input pass through and intensity 1
gives `1.5 * input - 0.5 * state`; a block leaves its last input as the history, in binary32. That the output is
`input + t/2 * (input - state)` (corner case 3) is an inference the spec marks as its own, by algebra on the pseudocode. -/
def Obligations.HfLaws : Prop :=
  (∀ t z x : ℝ, hfOutput realNum t z x = x + 0.5 * t * (x - z) ∧ hfOutput realNum 0 z x = x ∧
    hfOutput realNum t x x = x ∧ hfOutput realNum 1 z x = 1.5 * x - 0.5 * z) ∧
  (∀ (s t : State) (ch : BitVec 8) (n : BitVec 16) (xs : List Word) (x : Word), InBlock s n (xs ++ [x]) →
    exec (.hfProcb ch n) s = .next t → ∃ u, t.hf[ch.toNat]? = some u ∧ u.state = x)

/-- R155, R157 (inferences the spec marks as its own): over the reals every sample above the threshold leaves at exactly
the threshold, in a run of any length, and `k` samples at or below it decay the envelope by `exp(-k / release_time)`. (A
release time of 0, which LIM.NEW never leaves, is outside the spec's domain of `/`; there the statement speaks of the
model's total division, log 19.) -/
def Obligations.LimiterAttackRelease : Prop :=
  ∀ (b : Bool) (u : LimUnit ℝ), 0 ≤ u.threshold →
    (∀ xs : List ℝ, (∀ x ∈ xs, u.threshold < |x|) →
      (∀ y ∈ (runBlock (LimUnit.proc realNum b) u xs).2, |y| = u.threshold) ∧
      ∀ x, u.threshold < |x| → (runBlock (LimUnit.proc realNum b) u (xs ++ [x])).1.envelope = |x|) ∧
    (∀ xs : List ℝ, (∀ x ∈ xs, |x| ≤ u.threshold) →
      (runBlock (LimUnit.proc realNum b) u xs).1.envelope = u.envelope * Real.exp (-(xs.length : ℝ) / u.releaseTime))

/-- R156 (an inference the spec marks as its own): over the reals the gain in the release phase has no bound: after enough
silent samples a quiet sample leaves more than `B` times larger. -/
def Obligations.LimiterExpands : Prop :=
  ∀ (b : Bool) (B : ℝ) (u : LimUnit ℝ) (x : ℝ), 0 < u.threshold → 0.001 ≤ u.releaseTime → 0 < u.envelope → x ≠ 0 →
    |x| ≤ u.threshold →
    ∃ k : Nat, B * |x| <
      |(LimUnit.proc realNum b (runBlock (LimUnit.proc realNum b) u (List.replicate k 0)).1 x).2|

/-- R239 and R152, corner cases 3 and 4. In binary32 a limiter with zero envelope passes a sample at or below its threshold
unchanged and keeps the envelope zero; a decaying envelope settles after finitely many releases `k` at one number, not above
the least normal one; and by a factor of at most 1/2, for which R14's rounding gives it, or with `releaseUnderflow` set (it is
not on the default hardware, log 20), that number is exactly 0 and every such sample passes unchanged from then on. Over the
reals a positive envelope never reaches 0. In binary32 `exp` is uninterpreted (log 10, R14), so that the release factor is a
number, and for a decay that it lies in [0, 1), are premises (U6). -/
def Obligations.LimiterPasses : Prop :=
  (∀ (s : State) (ch : BitVec 8) (x : Word) (u : LimUnit Word), s.lim[ch.toNat]? = some u → u.V = true →
    F32.IsZero u.envelope → F32.In01 u.threshold →
    F32.isFinite (F32.exp (F32.div 0xBF800000 u.releaseTime)) = true → F32.isFinite x = true →
    F32.le (F32.abs x) u.threshold = true →
    ∃ v, exec (.limProc ch x) s =
      .next { s with lim := s.lim.set ch.toNat { u with envelope := v }, resp := s.resp ++ [x] } ∧ F32.IsZero v) ∧
  (∀ (s : State) (ch : BitVec 8) (u : LimUnit Word), s.lim[ch.toNat]? = some u → u.V = true →
    F32.isFinite u.envelope = true → 0 ≤ F32.units u.envelope → F32.In01 u.threshold →
    F32.In01 (F32.exp (F32.div 0xBF800000 u.releaseTime)) →
    F32.lt (F32.exp (F32.div 0xBF800000 u.releaseTime)) 0x3F800000 = true →
    F32.le (F32.exp (F32.div 0xBF800000 u.releaseTime)) 0x3F000000 = true ∨ s.cfg.releaseUnderflow = true →
    ∃ k : Nat, ∀ xs : List Word, k ≤ xs.length →
      (∀ x ∈ xs, F32.isFinite x = true ∧ F32.le (F32.abs x) u.threshold = true) →
      ∃ (t : State) (ys : List Word) (v : Word),
        execAll (xs.map (Instr.limProc ch)) s = .next t ∧ t.lim[ch.toNat]? = some { u with envelope := v } ∧
        F32.IsZero v ∧ t.resp = s.resp ++ ys ∧ ys.length = xs.length ∧ ys.drop k = xs.drop k) ∧
  (∀ (s : State) (ch : BitVec 8) (u : LimUnit Word), s.lim[ch.toNat]? = some u → u.V = true →
    F32.isFinite u.envelope = true → 0 ≤ F32.units u.envelope → F32.In01 u.threshold →
    F32.In01 (F32.exp (F32.div 0xBF800000 u.releaseTime)) →
    F32.lt (F32.exp (F32.div 0xBF800000 u.releaseTime)) 0x3F800000 = true →
    ∃ (k : Nat) (settled : Int), 0 ≤ settled ∧ settled ≤ F32.units 0x00800000 ∧
      ∀ xs : List Word, k ≤ xs.length → (∀ x ∈ xs, F32.isFinite x = true ∧ F32.le (F32.abs x) u.threshold = true) →
        ∃ (t : State) (v : Word), execAll (xs.map (Instr.limProc ch)) s = .next t ∧
          t.lim[ch.toNat]? = some { u with envelope := v } ∧ F32.isFinite v = true ∧ F32.units v = settled) ∧
  (∀ (b : Bool) (u : LimUnit ℝ) (xs : List ℝ), 0 ≤ u.threshold → 0 < u.envelope →
    0 < (runBlock (LimUnit.proc realNum b) u xs).1.envelope)

/-- R239: with `release_time` at its floor 0.001 the release factor is 0 in binary32, so a sample at or below the threshold
leaves the envelope zero and passes unchanged, whatever finite envelope stood before. It rests on the one underflow of
`exp` that R239 states, which the model places at the floor's own factor, `-1` over the binary32 literal 0.001 (log 10). -/
def Obligations.LimiterFloorRelease : Prop :=
  ∀ (s : State) (ch : BitVec 8) (x : Word) (u : LimUnit Word), s.lim[ch.toNat]? = some u → u.V = true →
    F32.isFinite u.envelope = true → F32.In01 u.threshold → u.releaseTime = 0x3A83126F → F32.isFinite x = true →
    F32.le (F32.abs x) u.threshold = true →
    ∃ v, exec (.limProc ch x) s =
      .next { s with lim := s.lim.set ch.toNat { u with envelope := v }, resp := s.resp ++ [x] } ∧ F32.IsZero v

/-- R162, R163, R164 in the reference semantics: the root of the mean square, the largest absolute value over it, and the
energy of the first quarter over that of both. -/
def Obligations.AnalyzerReference : Prop :=
  ∀ xs : List ℝ,
    let n := xs.length
    let energy := fun ys : List ℝ => (ys.map (fun x => x * x)).sum
    rms realNum xs = (if n = 0 then 0 else Real.sqrt (energy xs / n)) ∧
    (rms realNum xs = 0 → crest realNum xs = 0) ∧
    (rms realNum xs ≠ 0 → ∃ p, crest realNum xs = p / rms realNum xs ∧ (∃ x ∈ xs, |x| = p) ∧ ∀ x ∈ xs, |x| ≤ p) ∧
    tilt realNum xs =
      (if n < 4 then 0.5
        else if energy (xs.take (n / 4)) = 0 ∧ energy (xs.drop (n - n / 4)) = 0 then 0.5
        else energy (xs.take (n / 4)) / (energy (xs.take (n / 4)) + energy (xs.drop (n - n / 4))))

/-- R162 to R164, R168, R169 (bounds, mostly inferences the spec marks as its own), over the reals. -/
def Obligations.AnalyzerBounds : Prop :=
  ∀ xs : List ℝ,
    0 ≤ rms realNum xs ∧ (rms realNum xs = 0 ↔ ∀ x ∈ xs, x = 0) ∧
    (0 < rms realNum xs → 1 ≤ crest realNum xs ∧ crest realNum xs ≤ Real.sqrt xs.length) ∧
    (0 ≤ tilt realNum xs ∧ tilt realNum xs ≤ 1) ∧
    rmsNorm realNum xs = min (rms realNum xs * 10) 1 ∧
    crestNorm realNum xs = min (max ((crest realNum xs - 1) / 10) 0) 1 ∧
    score realNum xs = 0.5 * rmsNorm realNum xs + 0.3 * crestNorm realNum xs + 0.2 * tilt realNum xs ∧
    (0 ≤ score realNum xs ∧ score realNum xs ≤ 1) ∧
    velocity realNum xs = 1 / (1 + Real.exp (-(score realNum xs * 2 - 1))) ∧
    1 / (1 + Real.exp 1) ≤ velocity realNum xs ∧ velocity realNum xs ≤ 1 / (1 + Real.exp (-1))

/-- R171: for an all-zero or empty block RMS and crest are 0 (in binary32 a zero of either sign, R14), and the velocity score
is one fixed constant. That tilt is 0.5 and that the constant is `1 / (1 + exp 0.8)` in the reals are inferences the spec
marks as its own; that the constant word of binary32 is the same for zeros of either sign rests on the model's signs of
zeros (log 12). -/
def Obligations.Silence : Prop :=
  (∀ xs : List ℝ, (∀ x ∈ xs, x = 0) → rms realNum xs = 0 ∧ crest realNum xs = 0 ∧ tilt realNum xs = 0.5 ∧
    velocity realNum xs = 1 / (1 + Real.exp 0.8)) ∧
  (∃ constant : Word, ∀ (s : State) (n : BitVec 16) (xs : List Word), n.toNat ≤ s.cfg.blockMax → InBlock s n xs →
    (∀ x ∈ xs, F32.IsZero x) →
    (∃ z, exec (.vaRms n) s = .next { s with resp := s.resp ++ [z] } ∧ F32.IsZero z) ∧
    (∃ z, exec (.vaCrest n) s = .next { s with resp := s.resp ++ [z] } ∧ F32.IsZero z) ∧
    exec (.vaTilt n) s = .next { s with resp := s.resp ++ [0x3F000000] } ∧
    exec (.vaScore n) s = .next { s with resp := s.resp ++ [constant] })

/-- R172 (an inference the spec marks as its own): negating every sample changes none of RMS, crest, tilt, score and
velocity; in the reals, and in binary32 bit for bit for samples whose squares cannot overflow. -/
def Obligations.SignInvariance : Prop :=
  (∀ xs : List ℝ, rms realNum (xs.map (-·)) = rms realNum xs ∧ crest realNum (xs.map (-·)) = crest realNum xs ∧
    tilt realNum (xs.map (-·)) = tilt realNum xs ∧ score realNum (xs.map (-·)) = score realNum xs ∧
    velocity realNum (xs.map (-·)) = velocity realNum xs) ∧
  (∀ xs : List Word, (∀ x ∈ xs, F32.mag x ≤ 0x5F000000) →
    rms binary32 (xs.map F32.neg) = rms binary32 xs ∧ crest binary32 (xs.map F32.neg) = crest binary32 xs ∧
    tilt binary32 (xs.map F32.neg) = tilt binary32 xs ∧ score binary32 (xs.map F32.neg) = score binary32 xs ∧
    velocity binary32 (xs.map F32.neg) = velocity binary32 xs)

/-- R182 (an inference the spec marks as its own): over the reals `db_to_linear` is positive, increasing and onto the
positive reals, with 0 dB giving 1 and 20 dB giving 10. -/
def Obligations.DbToLinearBijective : Prop :=
  (∀ db : ℝ, dbToLinear realNum db = (10 : ℝ) ^ (db / 20) ∧ 0 < dbToLinear realNum db) ∧
  (∀ a b : ℝ, a < b → dbToLinear realNum a < dbToLinear realNum b) ∧
  (∀ g : ℝ, 0 < g → ∃ db, dbToLinear realNum db = g) ∧
  dbToLinear realNum 0 = 1 ∧ dbToLinear realNum 20 = 10

/-- R183, R185: over the reals the first soft clip is the cubic up to unit magnitude and two thirds beyond. That it is odd,
non-decreasing and bounded by two thirds, which bounds the legacy entry point at every gain, is an inference the spec
marks as its own. -/
def Obligations.SoftClipShape : Prop :=
  (∀ x : ℝ, (|x| ≤ 1 → softClipA realNum x = x - x * x * x / 3) ∧ (1 < x → softClipA realNum x = 2 / 3) ∧
    (x < -1 → softClipA realNum x = -(2 / 3)) ∧ softClipA realNum (-x) = -softClipA realNum x ∧
    |softClipA realNum x| ≤ 2 / 3) ∧
  (∀ x y : ℝ, x ≤ y → softClipA realNum x ≤ softClipA realNum y) ∧
  (∀ g x : ℝ, legacySample realNum g x = softClipA realNum (x * g) ∧ |legacySample realNum g x| ≤ 2 / 3)

/-- R188: mix 0 gives the dry and mix 1 the wet operand, exactly under `==`, in binary32 for all numbers and in the
reals. -/
def Obligations.MixEndpoints : Prop :=
  (∀ (s : State) (a b zero : Word), F32.isFinite a = true → F32.isFinite b = true → F32.IsZero zero →
    (∃ w, exec (.mix a b zero) s = .next { s with resp := s.resp ++ [w] } ∧ F32.SameValue w a) ∧
    (∃ w, exec (.mix a b 0x3F800000) s = .next { s with resp := s.resp ++ [w] } ∧ F32.SameValue w b)) ∧
  (∀ a b m : ℝ, mixDryWet realNum a b m = a * (1 - m) + b * m ∧ mixDryWet realNum a b 0 = a ∧
    mixDryWet realNum a b 1 = b)

/-! ### The parameters of an instance -/

/-- R24, R28, R30, R31, R33: the coefficients of BQ and RIAA, the RIAA rate, and the parameters of SAT, HF and LIM are written
only by the constructor or setter of their own instance; every other completed command leaves them as they were. -/
def Obligations.CoefficientsOnlyByConstruction : Prop :=
  ∀ (i : Instr) (s t : State), exec i s = .next t → ∀ c,
    ((∀ ch, configures i = some (.BQ, ch) → ch.toNat ≠ c) →
      (t.bq[c]?).map (·.coeffs) = (s.bq[c]?).map (·.coeffs)) ∧
    ((∀ ch, configures i = some (.RIAA, ch) → ch.toNat ≠ c) →
      (t.riaa[c]?).map (fun u => (u.rate, u.coeffs)) = (s.riaa[c]?).map (fun u => (u.rate, u.coeffs))) ∧
    ((∀ ch, configures i = some (.SAT, ch) → ch.toNat ≠ c) →
      (t.sat[c]?).map (fun u => (u.saturation, u.hardness)) = (s.sat[c]?).map (fun u => (u.saturation, u.hardness))) ∧
    ((∀ ch, configures i = some (.HF, ch) → ch.toNat ≠ c) →
      (t.hf[c]?).map (·.intensity) = (s.hf[c]?).map (·.intensity)) ∧
    ((∀ ch, configures i = some (.LIM, ch) → ch.toNat ≠ c) →
      (t.lim[c]?).map (fun u => (u.threshold, u.releaseTime)) = (s.lim[c]?).map (fun u => (u.threshold, u.releaseTime)))
end

