-- ==== Sys2Proof/Laws/Binary32.lean ====
section
/-! SUPPORT. The laws of binary32 arithmetic: patterns and words, the grid of representable magnitudes, and that
`roundMag` is the nearest of them, ties to even (R14). -/

namespace Sys2Proof.Machine

/-! ### Words and patterns -/

theorem F32.mag_lt (w : Word) : F32.mag w < 2 ^ 31 := Nat.mod_lt _ (by norm_num)

theorem F32.toNat_pack {b : Bool} {m : Nat} (hm : m < 2 ^ 31) :
    (F32.pack b m).toNat = (if b then 2 ^ 31 else 0) + m := by
  unfold F32.pack
  rw [BitVec.toNat_ofNat]
  exact Nat.mod_eq_of_lt (by cases b <;> simp <;> omega)

@[simp] theorem F32.mag_pack {b : Bool} {m : Nat} (hm : m < 2 ^ 31) : F32.mag (F32.pack b m) = m := by
  unfold F32.mag
  rw [F32.toNat_pack hm]
  cases b
  · simp; omega
  · simp; omega

theorem F32.sign_eq (w : Word) : F32.sign w = decide (2 ^ 31 ≤ w.toNat) := by
  simp [F32.sign, BitVec.msb_eq_decide]

@[simp] theorem F32.sign_pack {b : Bool} {m : Nat} (hm : m < 2 ^ 31) : F32.sign (F32.pack b m) = b := by
  rw [F32.sign_eq, F32.toNat_pack hm]
  cases b
  · simp; omega
  · simp

/-- A word is its sign and its magnitude pattern. -/
theorem F32.pack_sign_mag (w : Word) : F32.pack (F32.sign w) (F32.mag w) = w := by
  apply BitVec.eq_of_toNat_eq
  rw [F32.toNat_pack (F32.mag_lt w), F32.sign_eq, F32.mag]
  have := w.isLt
  by_cases h : 2 ^ 31 ≤ w.toNat
  · rw [decide_eq_true h, if_pos rfl]; omega
  · rw [decide_eq_false h, if_neg Bool.false_ne_true]; omega

theorem F32.ext {v w : Word} (hs : F32.sign v = F32.sign w) (hm : F32.mag v = F32.mag w) : v = w := by
  rw [← F32.pack_sign_mag v, ← F32.pack_sign_mag w, hs, hm]

theorem F32.isFinite_iff {w : Word} : F32.isFinite w = true ↔ F32.mag w < F32.infMag := by simp [F32.isFinite]

theorem F32.lt_two_pow_31 {m : Nat} (h : m < F32.infMag) : m < 2 ^ 31 := lt_trans h (by norm_num [F32.infMag])

@[simp] theorem F32.isFinite_pack {b : Bool} {m : Nat} (hm : m < F32.infMag) : F32.isFinite (F32.pack b m) = true := by
  rw [F32.isFinite_iff, F32.mag_pack (F32.lt_two_pow_31 hm)]; exact hm

theorem F32.units_pack {b : Bool} {m : Nat} (hm : m < 2 ^ 31) :
    F32.units (F32.pack b m) = if b then -(F32.magUnits m : Int) else F32.magUnits m := by
  simp only [F32.units, F32.mag_pack hm, F32.sign_pack hm]

theorem F32.natAbs_units (w : Word) : (F32.units w).natAbs = F32.magUnits (F32.mag w) := by
  unfold F32.units; split <;> simp

/-! ### The grid of representable magnitudes -/

@[simp] theorem F32.magUnits_zero : F32.magUnits 0 = 0 := rfl

/-- The pattern of significand `n` at quantum `2^k` has the value `n * 2^k`; at `n = 2^24` the pattern carries into the
exponent field and the value is still right. -/
theorem F32.magUnits_grid {k n : Nat} (h : (k = 0 ∧ n ≤ 2 ^ 24) ∨ (2 ^ 23 ≤ n ∧ n ≤ 2 ^ 24)) :
    F32.magUnits (k * 2 ^ 23 + n) = n * 2 ^ k := by
  unfold F32.magUnits
  by_cases hlow : k * 2 ^ 23 + n < 2 ^ 23
  · have hk : k = 0 := by omega
    rw [if_pos hlow, hk, Nat.zero_mul, Nat.zero_add, Nat.pow_zero, Nat.mul_one]
  · rw [if_neg hlow]
    by_cases hn : n = 2 ^ 24
    · have h1 : (k * 2 ^ 23 + n) % 2 ^ 23 = 0 := by omega
      have h2 : (k * 2 ^ 23 + n) / 2 ^ 23 - 1 = k + 1 := by omega
      have h3 : n = 2 ^ 23 * 2 := by omega
      rw [h1, h2, h3, Nat.add_zero, pow_succ 2 k, Nat.mul_assoc (2 ^ 23), Nat.mul_comm 2]
    · have h1 : (k * 2 ^ 23 + n) % 2 ^ 23 = n - 2 ^ 23 := by omega
      have h2 : (k * 2 ^ 23 + n) / 2 ^ 23 - 1 = k := by omega
      rw [h1, h2, Nat.add_sub_of_le (by omega)]

/-- Every pattern is on the grid. -/
theorem F32.exists_grid (m : Nat) :
    ∃ k n, m = k * 2 ^ 23 + n ∧ ((k = 0 ∧ n < 2 ^ 23) ∨ (2 ^ 23 ≤ n ∧ n < 2 ^ 24)) := by
  by_cases h : m < 2 ^ 23
  · exact ⟨0, m, by omega, .inl ⟨rfl, h⟩⟩
  · exact ⟨m / 2 ^ 23 - 1, 2 ^ 23 + m % 2 ^ 23, by omega, .inr ⟨by omega, by omega⟩⟩

/-- Consecutive patterns are consecutive magnitudes. -/
theorem F32.magUnits_lt_succ (m : Nat) : F32.magUnits m < F32.magUnits (m + 1) := by
  obtain ⟨k, n, rfl, h⟩ := F32.exists_grid m
  rw [F32.magUnits_grid (by omega), add_assoc, F32.magUnits_grid (by omega)]
  exact Nat.mul_lt_mul_of_pos_right (by omega) (by positivity)

theorem F32.magUnits_strictMono : StrictMono F32.magUnits := strictMono_nat_of_lt_succ F32.magUnits_lt_succ

@[simp] theorem F32.magUnits_eq_zero {m : Nat} : F32.magUnits m = 0 ↔ m = 0 :=
  ⟨fun h => F32.magUnits_strictMono.injective (h.trans F32.magUnits_zero.symm), fun h => by rw [h, F32.magUnits_zero]⟩

/-! ### Rounding -/

/-- `roundMag p q` lies between two consecutive magnitudes: with `L` the pattern below `p / q`, it is `L` or `L + 1`,
the nearer of the two, and the even one of a tie. -/
theorem F32.roundMag_spec (p : Nat) {q : Nat} (hq : 0 < q) :
    ∃ L, F32.magUnits L * q ≤ p ∧ p < F32.magUnits (L + 1) * q ∧
      ((F32.roundMag p q = L ∧ 2 * p ≤ (F32.magUnits L + F32.magUnits (L + 1)) * q ∧
          (2 * p = (F32.magUnits L + F32.magUnits (L + 1)) * q → L % 2 = 0)) ∨
       (F32.roundMag p q = L + 1 ∧ (F32.magUnits L + F32.magUnits (L + 1)) * q ≤ 2 * p ∧
          (2 * p = (F32.magUnits L + F32.magUnits (L + 1)) * q → (L + 1) % 2 = 0))) := by
  obtain ⟨k, hk⟩ : ∃ k, k = if p / q < 2 ^ 24 then 0 else (p / q).log2 - 23 := ⟨_, rfl⟩
  obtain ⟨n, hn⟩ : ∃ n, n = p / (q * 2 ^ k) := ⟨_, rfl⟩
  have hd : 0 < q * 2 ^ k := Nat.mul_pos hq (by positivity)
  have hnk : n = p / q / 2 ^ k := by rw [hn, Nat.div_div_eq_div_mul]
  have hrange : (k = 0 ∧ n < 2 ^ 24) ∨ (2 ^ 23 ≤ n ∧ n < 2 ^ 24) := by
    by_cases hf : p / q < 2 ^ 24
    · left; rw [if_pos hf] at hk; subst hk; simpa [hnk] using hf
    · right
      rw [if_neg hf] at hk
      have hf0 : p / q ≠ 0 := by omega
      have hlog : 24 ≤ (p / q).log2 := (Nat.le_log2 hf0).2 (by omega)
      have h1 : 2 ^ (p / q).log2 ≤ p / q := Nat.log2_self_le hf0
      have h2 : p / q < 2 ^ ((p / q).log2 + 1) := Nat.lt_log2_self
      have e1 : (2 : Nat) ^ (p / q).log2 = 2 ^ 23 * 2 ^ k := by rw [hk, ← pow_add]; congr 1; omega
      have e2 : (2 : Nat) ^ ((p / q).log2 + 1) = 2 ^ 24 * 2 ^ k := by rw [hk, ← pow_add]; congr 1; omega
      rw [hnk]
      exact ⟨(Nat.le_div_iff_mul_le (by positivity)).2 (e1 ▸ h1), (Nat.div_lt_iff_lt_mul (by positivity)).2 (e2 ▸ h2)⟩
  have hL : F32.magUnits (k * 2 ^ 23 + n) = n * 2 ^ k := F32.magUnits_grid (by omega)
  have hU : F32.magUnits (k * 2 ^ 23 + n + 1) = (n + 1) * 2 ^ k := by
    rw [add_assoc]; exact F32.magUnits_grid (by omega)
  have hp : p = n * (q * 2 ^ k) + p % (q * 2 ^ k) := by rw [hn, Nat.mul_comm]; exact (Nat.div_add_mod _ _).symm
  have hr : p % (q * 2 ^ k) < q * 2 ^ k := Nat.mod_lt _ hd
  have hround : F32.roundMag p q = k * 2 ^ 23 +
      (if decide (q * 2 ^ k < 2 * (p % (q * 2 ^ k))) ||
        (decide (2 * (p % (q * 2 ^ k)) = q * 2 ^ k) && decide (n % 2 = 1)) then n + 1 else n) := by
    unfold F32.roundMag; simp only [← hk, ← hn]
  generalize p % (q * 2 ^ k) = r at *
  generalize hdd : q * 2 ^ k = d at *
  have eL : F32.magUnits (k * 2 ^ 23 + n) * q = n * d := by rw [hL, ← hdd]; ring
  have eU : F32.magUnits (k * 2 ^ 23 + n + 1) * q = n * d + d := by rw [hU, ← hdd]; ring
  refine ⟨k * 2 ^ 23 + n, by omega, by omega, ?_⟩
  rw [Nat.add_mul, eL, eU, hround]
  have hpar : (k * 2 ^ 23 + n) % 2 = n % 2 := by omega
  by_cases c1 : d < 2 * r
  · right
    rw [if_pos (by rw [decide_eq_true c1, Bool.true_or])]
    refine ⟨Nat.add_assoc _ _ _ |>.symm, by omega, ?_⟩
    intro h; exfalso; omega
  · by_cases c2 : 2 * r = d
    · by_cases c3 : n % 2 = 1
      · right
        rw [if_pos (by rw [decide_eq_true c2, decide_eq_true c3, Bool.and_self, Bool.or_true])]
        refine ⟨Nat.add_assoc _ _ _ |>.symm, by omega, ?_⟩
        intro _; rw [Nat.add_mod, hpar]; omega
      · left
        rw [if_neg (by rw [decide_eq_false c1, decide_eq_false c3, Bool.and_false, Bool.or_self]; exact Bool.false_ne_true)]
        refine ⟨Eq.refl _, by omega, ?_⟩
        intro _; omega
    · left
      rw [if_neg (by rw [decide_eq_false c1, decide_eq_false c2, Bool.false_and, Bool.or_self]; exact Bool.false_ne_true)]
      refine ⟨Eq.refl _, by omega, ?_⟩
      intro h; omega

/-- No representable magnitude is nearer (R14): twice the distances, cleared of the denominator. -/
theorem F32.roundMag_nearest (p : Nat) {q : Nat} (hq : 0 < q) (m : Nat) :
    |(F32.magUnits (F32.roundMag p q) * q : Int) - p| ≤ |(F32.magUnits m * q : Int) - p| := by
  obtain ⟨L, hL, hU, h⟩ := F32.roundMag_spec p hq
  have hlu : F32.magUnits L * q ≤ F32.magUnits (L + 1) * q := by omega
  have hm : F32.magUnits m * q ≤ F32.magUnits L * q ∨ F32.magUnits (L + 1) * q ≤ F32.magUnits m * q := by
    rcases Nat.lt_or_ge L m with hlt | hge
    · exact .inr (Nat.mul_le_mul_right _ (F32.magUnits_strictMono.monotone hlt))
    · exact .inl (Nat.mul_le_mul_right _ (F32.magUnits_strictMono.monotone hge))
  rw [Nat.add_mul] at h
  rcases h with ⟨e, h, -⟩ | ⟨e, h, -⟩ <;> rw [e] <;> rcases hm with hm | hm <;> zify at hL hU h hm hlu <;>
    (rw [abs_le']; constructor <;> (rw [le_abs]; omega))

/-- A magnitude on the grid is not changed by rounding. -/
theorem F32.roundMag_exact (m : Nat) {q : Nat} (hq : 0 < q) : F32.roundMag (F32.magUnits m * q) q = m := by
  have h := F32.roundMag_nearest (F32.magUnits m * q) hq m
  push_cast at h
  rw [sub_self, abs_zero, abs_nonpos_iff, sub_eq_zero] at h
  have h' : F32.magUnits (F32.roundMag (F32.magUnits m * q) q) * q = F32.magUnits m * q := by exact_mod_cast h
  exact F32.magUnits_strictMono.injective (Nat.eq_of_mul_eq_mul_right hq h')

theorem F32.roundMag_zero {q : Nat} (hq : 0 < q) : F32.roundMag 0 q = 0 := by
  have h := F32.roundMag_exact 0 hq
  rwa [F32.magUnits_zero, Nat.zero_mul] at h

/-- What is at most a representable magnitude rounds to at most that. -/
theorem F32.roundMag_le {p q m : Nat} (hq : 0 < q) (h : p ≤ F32.magUnits m * q) : F32.roundMag p q ≤ m := by
  obtain ⟨L, hL, hU, hr⟩ := F32.roundMag_spec p hq
  rcases Nat.lt_or_ge L m with hlt | hge
  · rcases hr with ⟨e, -⟩ | ⟨e, -⟩ <;> omega
  · have hLm : L = m := by
      have : F32.magUnits L ≤ F32.magUnits m := Nat.le_of_mul_le_mul_right (hL.trans h) hq
      exact le_antisymm (F32.magUnits_strictMono.le_iff_le.1 this) hge
    subst hLm
    have hp : p = F32.magUnits L * q := le_antisymm h hL
    rw [hp, F32.roundMag_exact L hq]

/-- Rounding half of a magnitude or less stays below it: at the least magnitude the tie goes to the even pattern 0. -/
theorem F32.roundMag_lt_of_half {p q m : Nat} (hq : 0 < q) (hm : 0 < m) (h : 2 * p ≤ F32.magUnits m * q) :
    F32.roundMag p q < m := by
  obtain ⟨L, hL, hU, hr⟩ := F32.roundMag_spec p hq
  have hM : 0 < F32.magUnits m * q :=
    Nat.mul_pos (Nat.pos_of_ne_zero fun h0 => hm.ne' (F32.magUnits_eq_zero.1 h0)) hq
  by_contra hge
  have hle : F32.magUnits m * q ≤ F32.magUnits (F32.roundMag p q) * q :=
    Nat.mul_le_mul_right _ (F32.magUnits_strictMono.monotone (not_lt.1 hge))
  rcases hr with ⟨e, -, -⟩ | ⟨e, h1, h2⟩
  · rw [e] at hle; omega
  · rw [e] at hle
    rw [Nat.add_mul] at h1 h2
    have h0 : F32.magUnits L * q = 0 := by omega
    have hL0 : L = 0 := F32.magUnits_eq_zero.1 ((Nat.mul_eq_zero.1 h0).resolve_right hq.ne')
    subst hL0
    exact absurd (h2 (by omega)) (by decide)

/-- Above the least normal magnitude, rounding a magnitude times the greatest number below 1, or less, stays below it. -/
theorem F32.roundMag_lt_of_pred_one {p m : Nat} (hm : 2 ^ 23 < m) (h : p ≤ F32.magUnits m * (2 ^ 149 - 2 ^ 125)) :
    F32.roundMag p (2 ^ 149) < m := by
  obtain ⟨L, hL, hU, hr⟩ := F32.roundMag_spec p (q := 2 ^ 149) (by positivity)
  have hM : 0 < F32.magUnits m := Nat.pos_of_ne_zero fun h0 => by rw [F32.magUnits_eq_zero] at h0; omega
  have hLm : L < m := by
    by_contra hge
    have := F32.magUnits_strictMono.monotone (not_lt.1 hge)
    omega
  rcases hr with ⟨e, -, -⟩ | ⟨e, h1, -⟩
  · omega
  · by_contra hge
    obtain rfl : m = L + 1 := by omega
    obtain ⟨k, n, rfl, hg⟩ := F32.exists_grid L
    rw [F32.magUnits_grid (by omega)] at h1
    rw [add_assoc, F32.magUnits_grid (by omega)] at h h1
    have hn : 2 ^ 23 ≤ n := by omega
    have hk : 0 < 2 ^ k := by positivity
    have : 2 ^ 23 * 2 ^ k ≤ n * 2 ^ k := Nat.mul_le_mul_right _ hn
    rw [Nat.succ_mul n] at h h1
    omega

/-- What is at least a representable magnitude rounds to at least that. -/
theorem F32.le_roundMag {p q m : Nat} (hq : 0 < q) (h : F32.magUnits m * q ≤ p) : m ≤ F32.roundMag p q := by
  obtain ⟨L, hL, hU, hr⟩ := F32.roundMag_spec p hq
  have hlt : F32.magUnits m < F32.magUnits (L + 1) := Nat.lt_of_mul_lt_mul_right (h.trans_lt hU)
  have hm : m < L + 1 := F32.magUnits_strictMono.lt_iff_lt.1 hlt
  rcases hr with ⟨e, -⟩ | ⟨e, -⟩ <;> omega

/-! ### The primitives on finite words -/

theorem F32.finish_of_lt {free : Word} {b : Bool} {m : Nat} (h : m < F32.infMag) :
    F32.finish free b m = F32.pack b m := if_pos h

theorem F32.neg_finite {a : Word} (h : F32.isFinite a = true) : F32.neg a = F32.pack (!F32.sign a) (F32.mag a) :=
  if_pos h

theorem F32.abs_finite {a : Word} (h : F32.isFinite a = true) : F32.abs a = F32.pack false (F32.mag a) := if_pos h

theorem F32.isFinite_neg {a : Word} (h : F32.isFinite a = true) : F32.isFinite (F32.neg a) = true := by
  rw [F32.neg_finite h]; exact F32.isFinite_pack (F32.isFinite_iff.1 h)

theorem F32.isFinite_abs {a : Word} (h : F32.isFinite a = true) : F32.isFinite (F32.abs a) = true := by
  rw [F32.abs_finite h]; exact F32.isFinite_pack (F32.isFinite_iff.1 h)

theorem F32.units_neg {a : Word} (h : F32.isFinite a = true) : F32.units (F32.neg a) = -F32.units a := by
  rw [F32.neg_finite h, F32.units_pack (F32.mag_lt a), F32.units]
  cases F32.sign a <;> simp

theorem F32.units_abs {a : Word} (h : F32.isFinite a = true) : F32.units (F32.abs a) = |F32.units a| := by
  rw [F32.abs_finite h, F32.units_pack (F32.mag_lt a), F32.units]
  cases F32.sign a <;> simp

theorem F32.lt_finite {a b : Word} (ha : F32.isFinite a = true) (hb : F32.isFinite b = true) :
    F32.lt a b = decide (F32.units a < F32.units b) := by simp [F32.lt, ha, hb]

theorem F32.le_finite {a b : Word} (ha : F32.isFinite a = true) (hb : F32.isFinite b = true) :
    F32.le a b = decide (F32.units a ≤ F32.units b) := by simp [F32.le, ha, hb]

theorem F32.eq_finite {a b : Word} (ha : F32.isFinite a = true) (hb : F32.isFinite b = true) :
    F32.eq a b = decide (F32.units a = F32.units b) := by simp [F32.eq, ha, hb]

theorem F32.min_finite {a b : Word} (ha : F32.isFinite a = true) (hb : F32.isFinite b = true) :
    F32.min a b = if F32.units b < F32.units a then b else a := by simp [F32.min, ha, hb]

theorem F32.max_finite {a b : Word} (ha : F32.isFinite a = true) (hb : F32.isFinite b = true) :
    F32.max a b = if F32.units a < F32.units b then b else a := by simp [F32.max, ha, hb]

theorem F32.mul_finite {a b : Word} (ha : F32.isFinite a = true) (hb : F32.isFinite b = true) :
    F32.mul a b = F32.finish (Config.freeWord .mul a b) (F32.sign a ^^ F32.sign b)
      (F32.roundMag (F32.magUnits (F32.mag a) * F32.magUnits (F32.mag b)) (2 ^ 149)) := by simp [F32.mul, ha, hb]

theorem F32.add_finite {a b : Word} (ha : F32.isFinite a = true) (hb : F32.isFinite b = true) :
    F32.add a b = F32.sumResult (Config.freeWord .add a b) (F32.sign a && F32.sign b) (F32.units a + F32.units b) := by
  simp [F32.add, ha, hb]

theorem F32.sub_finite {a b : Word} (ha : F32.isFinite a = true) (hb : F32.isFinite b = true) :
    F32.sub a b = F32.sumResult (Config.freeWord .sub a b) (F32.sign a && !F32.sign b) (F32.units a - F32.units b) := by
  simp [F32.sub, ha, hb]

theorem F32.div_finite {a b : Word} (ha : F32.isFinite a = true) (hb : F32.isFinite b = true) (h0 : F32.mag b ≠ 0) :
    F32.div a b = F32.finish (Config.freeWord .div a b) (F32.sign a ^^ F32.sign b)
      (F32.roundMag (F32.magUnits (F32.mag a) * 2 ^ 149) (F32.magUnits (F32.mag b))) := by simp [F32.div, ha, hb, h0]

/-- A sum whose exact value is a representable number is that number (up to the sign of zero). -/
theorem F32.sumResult_exact {free : Word} {b : Bool} {z : Int} {w : Word} (hw : F32.isFinite w = true)
    (hz : F32.units w = z) :
    F32.isFinite (F32.sumResult free b z) = true ∧ F32.units (F32.sumResult free b z) = z := by
  unfold F32.sumResult
  by_cases h0 : z = 0
  · have : (0 : Nat) < F32.infMag := by decide
    rw [if_pos h0, h0]
    exact ⟨F32.isFinite_pack this, by rw [F32.units_pack (F32.lt_two_pow_31 this)]; cases b <;> simp⟩
  · rw [if_neg h0]
    have hn : z.natAbs = F32.magUnits (F32.mag w) := by rw [← hz, F32.natAbs_units]
    have hr : F32.roundMag z.natAbs 1 = F32.mag w := by
      have := F32.roundMag_exact (F32.mag w) (q := 1) Nat.one_pos
      rwa [Nat.mul_one, ← hn] at this
    have hm := F32.isFinite_iff.1 hw
    rw [hr, F32.finish_of_lt hm]
    refine ⟨F32.isFinite_pack hm, ?_⟩
    rw [F32.units_pack (F32.lt_two_pow_31 hm), ← hn]
    by_cases hz' : z < 0
    · rw [decide_eq_true hz', if_pos rfl]; omega
    · rw [decide_eq_false hz', if_neg Bool.false_ne_true]; omega

/-- Adding a zero of either sign keeps the value. -/
theorem F32.units_add_zero {a z : Word} (ha : F32.isFinite a = true) (hz : F32.isFinite z = true)
    (h0 : F32.units z = 0) : F32.isFinite (F32.add a z) = true ∧ F32.units (F32.add a z) = F32.units a := by
  rw [F32.add_finite ha hz, h0, add_zero]
  exact F32.sumResult_exact ha rfl

theorem F32.units_zero_add {a z : Word} (ha : F32.isFinite a = true) (hz : F32.isFinite z = true)
    (h0 : F32.units z = 0) : F32.isFinite (F32.add z a) = true ∧ F32.units (F32.add z a) = F32.units a := by
  rw [F32.add_finite hz ha, h0, zero_add]
  exact F32.sumResult_exact ha rfl

theorem F32.mag_eq_zero_iff {w : Word} : F32.units w = 0 ↔ F32.mag w = 0 := by
  rw [← Int.natAbs_eq_zero, F32.natAbs_units, F32.magUnits_eq_zero]

/-- A product with a zero of either sign is a zero. -/
theorem F32.mul_zero {a z : Word} (ha : F32.isFinite a = true) (hz : F32.isFinite z = true) (h0 : F32.units z = 0) :
    F32.mul a z = F32.pack (F32.sign a ^^ F32.sign z) 0 := by
  have h : F32.roundMag 0 (2 ^ 149) = 0 := F32.roundMag_zero (by positivity)
  rw [F32.mul_finite ha hz, F32.mag_eq_zero_iff.1 h0, F32.magUnits_zero, Nat.mul_zero, h]
  exact F32.finish_of_lt (by decide)

theorem F32.zero_mul {a z : Word} (ha : F32.isFinite a = true) (hz : F32.isFinite z = true) (h0 : F32.units z = 0) :
    F32.mul z a = F32.pack (F32.sign z ^^ F32.sign a) 0 := by
  have h : F32.roundMag 0 (2 ^ 149) = 0 := F32.roundMag_zero (by positivity)
  rw [F32.mul_finite hz ha, F32.mag_eq_zero_iff.1 h0, F32.magUnits_zero, Nat.zero_mul, h]
  exact F32.finish_of_lt (by decide)

/-- The word of 1. -/
theorem F32.lit_one : F32.lit 1 1 = 0x3F800000 := by decide +kernel

/-- The word of 0. -/
theorem F32.lit_zero : F32.lit 0 1 = 0 := by decide +kernel

theorem F32.magUnits_one : F32.magUnits (F32.mag 0x3F800000) = 2 ^ 149 := by decide +kernel

/-- A product with 1 is the other factor, bit for bit. -/
theorem F32.mul_one {a : Word} (ha : F32.isFinite a = true) : F32.mul a 0x3F800000 = a := by
  rw [F32.mul_finite ha (by decide), F32.magUnits_one, F32.roundMag_exact _ (by positivity),
    F32.finish_of_lt (F32.isFinite_iff.1 ha), show F32.sign 0x3F800000 = false from by decide, Bool.xor_false,
    F32.pack_sign_mag]

theorem F32.one_mul {a : Word} (ha : F32.isFinite a = true) : F32.mul 0x3F800000 a = a := by
  rw [F32.mul_finite (by decide) ha, F32.magUnits_one, Nat.mul_comm, F32.roundMag_exact _ (by positivity),
    F32.finish_of_lt (F32.isFinite_iff.1 ha), show F32.sign 0x3F800000 = false from by decide, Bool.false_xor,
    F32.pack_sign_mag]

/-- The binary search yields the integer square root. -/
theorem F32.isqrt_spec (n : Nat) : ∀ (bits acc : Nat), acc * acc ≤ n → n < (acc + 2 ^ bits) * (acc + 2 ^ bits) →
    F32.isqrt n bits acc * F32.isqrt n bits acc ≤ n ∧
      n < (F32.isqrt n bits acc + 1) * (F32.isqrt n bits acc + 1) := by
  intro bits
  induction bits with
  | zero => intro acc h1 h2; exact ⟨h1, by simpa [F32.isqrt] using h2⟩
  | succ i ih =>
    intro acc h1 h2
    simp only [F32.isqrt]
    by_cases h : (acc + 2 ^ i) * (acc + 2 ^ i) ≤ n
    · rw [if_pos h]
      refine ih _ h ?_
      have : acc + 2 ^ i + 2 ^ i = acc + 2 ^ (i + 1) := by rw [pow_succ]; ring
      rwa [this]
    · rw [if_neg h]; exact ih _ h1 (by omega)

/-! ### The literals of the units (R10), each rounded once -/

theorem F32.lit_half : F32.lit 1 2 = 0x3F000000 := by decide +kernel

theorem F32.lit_fifth : F32.lit 1 5 = 0x3E4CCCCD := by decide +kernel

theorem F32.lit_three_tenths : F32.lit 3 10 = 0x3E99999A := by decide +kernel

theorem F32.lit_tenth : F32.lit 1 10 = 0x3DCCCCCD := by decide +kernel

theorem F32.lit_four_fifths : F32.lit 4 5 = 0x3F4CCCCD := by decide +kernel

theorem F32.lit_thousandth : F32.lit 1 1000 = 0x3A83126F := by decide +kernel

theorem F32.lit_two_thirds : F32.lit 2 3 = 0x3F2AAAAB := by decide +kernel

theorem F32.lit_two : F32.lit 2 1 = 0x40000000 := by decide +kernel

theorem F32.lit_three : F32.lit 3 1 = 0x40400000 := by decide +kernel

theorem F32.lit_five : F32.lit 5 1 = 0x40A00000 := by decide +kernel

theorem F32.lit_ten : F32.lit 10 1 = 0x41200000 := by decide +kernel

theorem F32.lit_twenty : F32.lit 20 1 = 0x41A00000 := by decide +kernel

theorem F32.lit_hz44100 : F32.lit 44100 1 = 0x472C4400 := by decide +kernel

theorem F32.lit_hz48000 : F32.lit 48000 1 = 0x473B8000 := by decide +kernel

/-- A word is a number exactly when its exponent field is not all ones (R14). -/
theorem F32.isFinite_iff_exponent (w : Word) : F32.isFinite w = true ↔ w.extractLsb' 23 8 ≠ 0xFF := by
  rw [F32.isFinite_iff, Ne, ← BitVec.toNat_inj, BitVec.extractLsb'_toNat, Nat.shiftRight_eq_div_pow]
  have := w.isLt
  have h255 : (0xFF : BitVec 8).toNat = 255 := rfl
  simp only [F32.mag, F32.infMag, h255]
  omega

end Sys2Proof.Machine
end

