-- ==== Sys2Proof/Laws/Buffers.lean ====
section
/-! SUPPORT. The laws of the sample buffers: a read after a write, and the canonical form every write keeps. -/

namespace Sys2Proof.Machine

variable {α : Type}

@[simp] theorem Buffer.read_nil (i : Nat) : Buffer.read ([] : Buffer α) i = none := rfl

theorem Buffer.read_cons (c : Cell α) (b : Buffer α) (i : Nat) :
    Buffer.read (c :: b) i = if c.1 = i then some c.2 else Buffer.read b i := rfl

/-- A write is seen at its own index and nowhere else (R53, R56); no canonical form is needed. -/
theorem Buffer.read_write (b : Buffer α) (i : Nat) (v : α) (j : Nat) :
    Buffer.read (Buffer.write b i v) j = if j = i then some v else Buffer.read b j := by
  induction b with
  | nil => simp [Buffer.write, Buffer.read_cons, eq_comm]
  | cons c b ih =>
    obtain ⟨k, w⟩ := c
    simp only [Buffer.write]
    split_ifs with h1 h2 <;> simp only [Buffer.read_cons, ih] <;> split_ifs <;> first | rfl | omega

/-- The written cells of a buffer after one write. -/
theorem Buffer.mem_write {b : Buffer α} {i : Nat} {v : α} {c : Cell α} (h : c ∈ Buffer.write b i v) :
    c = (i, v) ∨ c ∈ b := by
  induction b with
  | nil => simpa [Buffer.write] using h
  | cons d b ih =>
    obtain ⟨k, w⟩ := d
    simp only [Buffer.write] at h
    split_ifs at h
    · simpa using h
    · rcases List.mem_cons.1 h with h | h
      · exact .inl h
      · exact .inr (List.mem_cons_of_mem _ h)
    · rcases List.mem_cons.1 h with h | h
      · exact .inr (h ▸ List.mem_cons_self)
      · exact (ih h).imp_right (List.mem_cons_of_mem _)

/-- A write keeps the indexes strictly rising. -/
theorem Buffer.wf_write {b : Buffer α} (hb : Buffer.wf b) (i : Nat) (v : α) : Buffer.wf (Buffer.write b i v) := by
  induction b with
  | nil => simp [Buffer.write, Buffer.wf]
  | cons d b ih =>
    obtain ⟨k, w⟩ := d
    have hd := List.pairwise_cons.1 hb
    simp only [Buffer.write]
    split_ifs with h1 h2
    · refine List.pairwise_cons.2 ⟨fun c hc => ?_, hb⟩
      rcases List.mem_cons.1 hc with rfl | hc
      · exact h1
      · exact lt_trans h1 (hd.1 c hc)
    · exact List.pairwise_cons.2 ⟨fun c hc => h2 ▸ hd.1 c hc, hd.2⟩
    · refine List.pairwise_cons.2 ⟨fun c hc => ?_, ih hd.2⟩
      rcases Buffer.mem_write hc with rfl | hc
      · show k < i; omega
      · exact hd.1 c hc

/-- A write inside the buffer keeps every element inside it. -/
theorem Buffer.within_write {b : Buffer α} {m : Nat} (hb : Buffer.within b m) {i : Nat} (hi : i < m) (v : α) :
    Buffer.within (Buffer.write b i v) m := fun c hc =>
  (Buffer.mem_write hc).elim (fun h => h ▸ hi) (hb c)

/-- Writing a list from index `i` on is seen on exactly those indexes (R203). -/
theorem Buffer.read_writeFrom (ys : List α) : ∀ (b : Buffer α) (i j : Nat),
    Buffer.read (Buffer.writeFrom b i ys) j =
      if i ≤ j ∧ j < i + ys.length then ys[j - i]? else Buffer.read b j := by
  induction ys with
  | nil => intro b i j; simp [Buffer.writeFrom]
  | cons y ys ih =>
    intro b i j
    simp only [Buffer.writeFrom, ih, Buffer.read_write, List.length_cons]
    by_cases h1 : j = i
    · subst h1; simp
    · by_cases h2 : i + 1 ≤ j ∧ j < i + 1 + ys.length
      · have h3 : i ≤ j ∧ j < i + (ys.length + 1) := by omega
        obtain ⟨d, hd⟩ : ∃ d, j - i = d + 1 := ⟨j - i - 1, by omega⟩
        have : j - (i + 1) = d := by omega
        simp [h2, h3, hd, this]
      · have h3 : ¬ (i ≤ j ∧ j < i + (ys.length + 1)) := by omega
        rw [if_neg h2, if_neg h3, if_neg h1]

theorem Buffer.wf_writeFrom (ys : List α) : ∀ {b : Buffer α} (_ : Buffer.wf b) (i : Nat),
    Buffer.wf (Buffer.writeFrom b i ys) := by
  induction ys with
  | nil => intro b hb i; exact hb
  | cons y ys ih => intro b hb i; exact ih (Buffer.wf_write hb i y) (i + 1)

theorem Buffer.within_writeFrom (ys : List α) : ∀ {b : Buffer α} {m : Nat} (_ : Buffer.within b m) {i : Nat}
    (_ : i + ys.length ≤ m), Buffer.within (Buffer.writeFrom b i ys) m := by
  induction ys with
  | nil => intro b m hb i _; exact hb
  | cons y ys ih =>
    intro b m hb i hi
    have hi' : i + (ys.length + 1) ≤ m := by simpa using hi
    exact ih (Buffer.within_write hb (by omega) y) (by omega)

/-- Reading `k` elements from index `i` succeeds exactly when all are written, and gives them in order (R53). -/
theorem Buffer.readFrom_ok_iff (b : Buffer α) : ∀ (k i : Nat) (xs : List α),
    Buffer.readFrom b i k = .ok xs ↔ xs.length = k ∧ ∀ j < k, Buffer.read b (i + j) = xs[j]? := by
  intro k
  induction k with
  | zero => intro i xs; simp [Buffer.readFrom, eq_comm (a := [])]
  | succ k ih =>
    intro i xs
    simp only [Buffer.readFrom]
    constructor
    · intro h
      cases hr : Buffer.read b i with
      | none => simp [hr] at h
      | some v =>
        cases hf : Buffer.readFrom b (i + 1) k with
        | error j => simp [hr, hf] at h
        | ok vs =>
          simp only [hr, hf, Except.ok.injEq] at h
          subst h
          obtain ⟨hl, hv⟩ := (ih (i + 1) vs).1 hf
          refine ⟨by simp [hl], fun j hj => ?_⟩
          cases j with
          | zero => simpa using hr
          | succ j => simpa [Nat.add_assoc, Nat.add_comm 1 j] using hv j (by omega)
    · rintro ⟨hl, hv⟩
      cases xs with
      | nil => simp at hl
      | cons v vs =>
        have h0 : Buffer.read b i = some v := by simpa using hv 0 (by omega)
        have hrest : Buffer.readFrom b (i + 1) k = .ok vs := by
          refine (ih (i + 1) vs).2 ⟨by simpa using hl, fun j hj => ?_⟩
          simpa [Nat.add_assoc, Nat.add_comm 1 j] using hv (j + 1) (by omega)
        simp [h0, hrest]

/-- It fails exactly at the least unwritten element (R53, R218). -/
theorem Buffer.readFrom_error_iff (b : Buffer α) : ∀ (k i m : Nat),
    Buffer.readFrom b i k = .error m ↔
      i ≤ m ∧ m < i + k ∧ Buffer.read b m = none ∧ ∀ j, i ≤ j → j < m → Buffer.written b j = true := by
  intro k
  induction k with
  | zero => intro i m; simp [Buffer.readFrom]; omega
  | succ k ih =>
    intro i m
    simp only [Buffer.readFrom]
    cases hr : Buffer.read b i with
    | none =>
      simp only [Except.error.injEq]
      constructor
      · rintro rfl; exact ⟨le_rfl, by omega, hr, fun j h1 h2 => by omega⟩
      · rintro ⟨h1, -, -, h4⟩
        by_contra hne
        have := h4 i le_rfl (by omega)
        simp [Buffer.written, hr] at this
    | some v =>
      have key : (match Buffer.readFrom b (i + 1) k with
          | .error j => Except.error j
          | .ok vs => .ok (v :: vs)) = (Except.error m : Except Nat (List α)) ↔
          Buffer.readFrom b (i + 1) k = .error m := by
        cases Buffer.readFrom b (i + 1) k <;> simp
      refine Iff.trans key ?_
      rw [ih]
      constructor
      · rintro ⟨h1, h2, h3, h4⟩
        refine ⟨by omega, by omega, h3, fun j hj hjm => ?_⟩
        by_cases hji : j = i
        · subst hji; simp [Buffer.written, hr]
        · exact h4 j (by omega) hjm
      · rintro ⟨h1, h2, h3, h4⟩
        have hmi : m ≠ i := by rintro rfl; simp [hr] at h3
        exact ⟨by omega, by omega, h3, fun j hj hjm => h4 j (by omega) hjm⟩

/-- In canonical form a listed cell is what its index reads as, so equal reads are equal buffers' cells. -/
theorem Buffer.read_of_mem {b : Buffer α} (hb : Buffer.wf b) {c : Cell α} (hc : c ∈ b) : Buffer.read b c.1 = some c.2 := by
  induction b with
  | nil => simp at hc
  | cons d b ih =>
    have hd := List.pairwise_cons.1 hb
    rw [Buffer.read_cons]
    rcases List.mem_cons.1 hc with rfl | hc
    · simp
    · have := hd.1 c hc
      rw [if_neg (by omega), ih hd.2 hc]

end Sys2Proof.Machine
end

