-- ==== Sys2Proof/Laws/Decode.lean ====
section
/-! SUPPORT. The fields of a command word (R71) and the rows of the opcode table (R76), said once. -/

namespace Sys2Proof

@[simp] theorem opField_commandWord (op ch : BitVec 8) (imm : BitVec 16) : opField (commandWord op ch imm) = op := by
  unfold opField commandWord
  ext k hk
  simp only [BitVec.getElem_extractLsb', BitVec.getLsbD_append]
  rw [if_neg (by omega), if_neg (by omega)]
  simp [show 24 + k - 16 - 8 = k by omega, hk]

@[simp] theorem chField_commandWord (op ch : BitVec 8) (imm : BitVec 16) : chField (commandWord op ch imm) = ch := by
  unfold chField commandWord
  ext k hk
  simp only [BitVec.getElem_extractLsb', BitVec.getLsbD_append]
  rw [if_neg (by omega), if_pos (by omega)]
  simp [hk]

@[simp] theorem immField_commandWord (op ch : BitVec 8) (imm : BitVec 16) :
    immField (commandWord op ch imm) = imm := by
  unfold immField commandWord
  ext k hk
  simp only [BitVec.getElem_extractLsb', BitVec.getLsbD_append]
  rw [if_pos (by omega)]
  simp [hk]

/-- A command word is its three fields (R71). -/
theorem commandWord_fields (cw : Word) : commandWord (opField cw) (chField cw) (immField cw) = cw := by
  unfold opField chField immField commandWord
  ext k hk
  rw [← BitVec.getLsbD_eq_getElem, ← BitVec.getLsbD_eq_getElem]
  simp only [BitVec.getLsbD_append, BitVec.getLsbD_extractLsb']
  split
  · simp [*]
  · split
    · rw [show 16 + (k - 16) = k by omega]; simp [*]
    · rw [show 24 + (k - 16 - 8) = k by omega, decide_eq_true (show k - 16 - 8 < 8 by omega), Bool.true_and]

/-- A command word written with the shifts of R76's encodings. -/
theorem commandWord_eq_or (op ch : BitVec 8) (imm : BitVec 16) :
    commandWord op ch imm = op.setWidth 32 <<< 24 ||| ch.setWidth 32 <<< 16 ||| imm.setWidth 32 := by
  unfold commandWord
  ext k hk
  rw [← BitVec.getLsbD_eq_getElem, ← BitVec.getLsbD_eq_getElem]
  simp only [BitVec.getLsbD_append, BitVec.getLsbD_or, BitVec.getLsbD_shiftLeft, BitVec.getLsbD_setWidth, hk,
    decide_true, Bool.true_and]
  by_cases h1 : k < 16
  · simp [h1, show k < 24 by omega]
  · have himm : imm.getLsbD k = false := BitVec.getLsbD_of_ge imm k (by omega)
    by_cases h2 : k < 24
    · simp [h1, h2, himm, show k - 16 < 8 by omega, show k - 16 < 32 by omega]
    · have hch : ch.getLsbD (k - 16) = false := BitVec.getLsbD_of_ge ch _ (by omega)
      simp [h1, h2, himm, hch, show ¬ k - 16 < 8 by omega, show k - 16 - 8 = k - 24 by omega,
        show k - 24 < 32 by omega]

/-- Which fields of an encoding a format asks to be zero. -/
theorem reservedZero_encodeHead (f : Format) (i : Instr) :
    f.reservedZero (encodeHead i) =
      match f with
      | .UC => immOf i == 0
      | .UB => true
      | .GX => chOf i == 0
      | .GP => chOf i == 0 && immOf i == 0 := by
  cases f <;> simp [Format.reservedZero, encodeHead]

/-- Decoding a word of given fields looks its opcode up and tests its format's reserved fields (R77). -/
theorem decode_of_rowOf {cw : Word} {ops : List Word} {row : OpRow} (h : rowOf (opField cw) = some row)
    (hz : row.format.reservedZero cw = true) :
    decode cw ops = .ok (row.make (chField cw) (immField cw) (operandAt ops)) := by
  simp [decode, h, hz]

/-- Every word that decodes is one of its row's (R77). -/
theorem decode_ok {cw : Word} {ops : List Word} {i : Instr} (h : decode cw ops = .ok i) :
    ∃ row, rowOf (opField cw) = some row ∧ row.format.reservedZero cw = true ∧
      i = row.make (chField cw) (immField cw) (operandAt ops) := by
  unfold decode at h
  cases hr : rowOf (opField cw) with
  | none => simp [hr] at h
  | some row =>
    simp only [hr] at h
    split at h
    · rename_i hz; cases h; exact ⟨row, rfl, hz, rfl⟩
    · cases h

/-- The two refusals of decoding (R212, R213). -/
theorem decode_error {cw : Word} {ops : List Word} {e : DecodeError} (h : decode cw ops = .error e) :
    (rowOf (opField cw) = none ∧ e = .undefinedOpcode (opField cw)) ∨
    (∃ row, rowOf (opField cw) = some row ∧ row.format.reservedZero cw = false ∧ e = .reservedFieldNonzero) := by
  unfold decode at h
  cases hr : rowOf (opField cw) with
  | none => exact .inl ⟨rfl, by simpa [hr, eq_comm] using h⟩
  | some row =>
    simp only [hr] at h
    split at h
    · cases h
    · rename_i hz; exact .inr ⟨row, rfl, by simpa using hz, by cases h; rfl⟩

/-- A row found under an opcode is in the table and has that opcode. -/
theorem rowOf_some {op : BitVec 8} {row : OpRow} (h : rowOf op = some row) : row ∈ opcodeTable ∧ row.op = op :=
  ⟨List.mem_of_find?_eq_some h, by simpa using List.find?_some h⟩

end Sys2Proof
end

