-- ==== Sys2Proof/Laws/State.lean ====
section
/-! SUPPORT. One lemma per field per update of the block's state and of State, so that no later proof unfolds a record
update. -/

namespace Sys2Proof.Machine

variable {α : Type}

section
variable (s : BlockState α) (ch : BitVec 8) (u : BiquadUnit α)
@[simp] theorem BlockState.setBq_cfg : (s.setBq ch u).cfg = s.cfg := rfl
@[simp] theorem BlockState.setBq_bq : (s.setBq ch u).bq = s.bq.set ch.toNat u := rfl
@[simp] theorem BlockState.setBq_riaa : (s.setBq ch u).riaa = s.riaa := rfl
@[simp] theorem BlockState.setBq_sat : (s.setBq ch u).sat = s.sat := rfl
@[simp] theorem BlockState.setBq_hf : (s.setBq ch u).hf = s.hf := rfl
@[simp] theorem BlockState.setBq_lim : (s.setBq ch u).lim = s.lim := rfl
@[simp] theorem BlockState.setBq_mem : (s.setBq ch u).mem = s.mem := rfl
@[simp] theorem BlockState.setBq_resp : (s.setBq ch u).resp = s.resp := rfl
end

section
variable (s : BlockState α) (ch : BitVec 8) (u : RiaaUnit α)
@[simp] theorem BlockState.setRiaa_cfg : (s.setRiaa ch u).cfg = s.cfg := rfl
@[simp] theorem BlockState.setRiaa_bq : (s.setRiaa ch u).bq = s.bq := rfl
@[simp] theorem BlockState.setRiaa_riaa : (s.setRiaa ch u).riaa = s.riaa.set ch.toNat u := rfl
@[simp] theorem BlockState.setRiaa_sat : (s.setRiaa ch u).sat = s.sat := rfl
@[simp] theorem BlockState.setRiaa_hf : (s.setRiaa ch u).hf = s.hf := rfl
@[simp] theorem BlockState.setRiaa_lim : (s.setRiaa ch u).lim = s.lim := rfl
@[simp] theorem BlockState.setRiaa_mem : (s.setRiaa ch u).mem = s.mem := rfl
@[simp] theorem BlockState.setRiaa_resp : (s.setRiaa ch u).resp = s.resp := rfl
end

section
variable (s : BlockState α) (ch : BitVec 8) (u : SatUnit α)
@[simp] theorem BlockState.setSat_cfg : (s.setSat ch u).cfg = s.cfg := rfl
@[simp] theorem BlockState.setSat_bq : (s.setSat ch u).bq = s.bq := rfl
@[simp] theorem BlockState.setSat_riaa : (s.setSat ch u).riaa = s.riaa := rfl
@[simp] theorem BlockState.setSat_sat : (s.setSat ch u).sat = s.sat.set ch.toNat u := rfl
@[simp] theorem BlockState.setSat_hf : (s.setSat ch u).hf = s.hf := rfl
@[simp] theorem BlockState.setSat_lim : (s.setSat ch u).lim = s.lim := rfl
@[simp] theorem BlockState.setSat_mem : (s.setSat ch u).mem = s.mem := rfl
@[simp] theorem BlockState.setSat_resp : (s.setSat ch u).resp = s.resp := rfl
end

section
variable (s : BlockState α) (ch : BitVec 8) (u : HfUnit α)
@[simp] theorem BlockState.setHf_cfg : (s.setHf ch u).cfg = s.cfg := rfl
@[simp] theorem BlockState.setHf_bq : (s.setHf ch u).bq = s.bq := rfl
@[simp] theorem BlockState.setHf_riaa : (s.setHf ch u).riaa = s.riaa := rfl
@[simp] theorem BlockState.setHf_sat : (s.setHf ch u).sat = s.sat := rfl
@[simp] theorem BlockState.setHf_hf : (s.setHf ch u).hf = s.hf.set ch.toNat u := rfl
@[simp] theorem BlockState.setHf_lim : (s.setHf ch u).lim = s.lim := rfl
@[simp] theorem BlockState.setHf_mem : (s.setHf ch u).mem = s.mem := rfl
@[simp] theorem BlockState.setHf_resp : (s.setHf ch u).resp = s.resp := rfl
end

section
variable (s : BlockState α) (ch : BitVec 8) (u : LimUnit α)
@[simp] theorem BlockState.setLim_cfg : (s.setLim ch u).cfg = s.cfg := rfl
@[simp] theorem BlockState.setLim_bq : (s.setLim ch u).bq = s.bq := rfl
@[simp] theorem BlockState.setLim_riaa : (s.setLim ch u).riaa = s.riaa := rfl
@[simp] theorem BlockState.setLim_sat : (s.setLim ch u).sat = s.sat := rfl
@[simp] theorem BlockState.setLim_hf : (s.setLim ch u).hf = s.hf := rfl
@[simp] theorem BlockState.setLim_lim : (s.setLim ch u).lim = s.lim.set ch.toNat u := rfl
@[simp] theorem BlockState.setLim_mem : (s.setLim ch u).mem = s.mem := rfl
@[simp] theorem BlockState.setLim_resp : (s.setLim ch u).resp = s.resp := rfl
end

section
variable (s : BlockState α) (v : α)
@[simp] theorem BlockState.respond_cfg : (s.respond v).cfg = s.cfg := rfl
@[simp] theorem BlockState.respond_bq : (s.respond v).bq = s.bq := rfl
@[simp] theorem BlockState.respond_riaa : (s.respond v).riaa = s.riaa := rfl
@[simp] theorem BlockState.respond_sat : (s.respond v).sat = s.sat := rfl
@[simp] theorem BlockState.respond_hf : (s.respond v).hf = s.hf := rfl
@[simp] theorem BlockState.respond_lim : (s.respond v).lim = s.lim := rfl
@[simp] theorem BlockState.respond_mem : (s.respond v).mem = s.mem := rfl
@[simp] theorem BlockState.respond_resp : (s.respond v).resp = s.resp ++ [v] := rfl
end

section
variable (s : BlockState α) (i : Nat) (v : α)
@[simp] theorem BlockState.writeIn_cfg : (s.writeIn i v).cfg = s.cfg := rfl
@[simp] theorem BlockState.writeIn_bq : (s.writeIn i v).bq = s.bq := rfl
@[simp] theorem BlockState.writeIn_riaa : (s.writeIn i v).riaa = s.riaa := rfl
@[simp] theorem BlockState.writeIn_sat : (s.writeIn i v).sat = s.sat := rfl
@[simp] theorem BlockState.writeIn_hf : (s.writeIn i v).hf = s.hf := rfl
@[simp] theorem BlockState.writeIn_lim : (s.writeIn i v).lim = s.lim := rfl
@[simp] theorem BlockState.writeIn_mem : (s.writeIn i v).mem = ⟨Buffer.write s.mem.inBuf i v, s.mem.outBuf⟩ := rfl
@[simp] theorem BlockState.writeIn_resp : (s.writeIn i v).resp = s.resp := rfl
end

section
variable (s : BlockState α) (ys : List α)
@[simp] theorem BlockState.writeOut_cfg : (s.writeOut ys).cfg = s.cfg := rfl
@[simp] theorem BlockState.writeOut_bq : (s.writeOut ys).bq = s.bq := rfl
@[simp] theorem BlockState.writeOut_riaa : (s.writeOut ys).riaa = s.riaa := rfl
@[simp] theorem BlockState.writeOut_sat : (s.writeOut ys).sat = s.sat := rfl
@[simp] theorem BlockState.writeOut_hf : (s.writeOut ys).hf = s.hf := rfl
@[simp] theorem BlockState.writeOut_lim : (s.writeOut ys).lim = s.lim := rfl
@[simp] theorem BlockState.writeOut_mem : (s.writeOut ys).mem = ⟨s.mem.inBuf, Buffer.writeFrom s.mem.outBuf 0 ys⟩ := rfl
@[simp] theorem BlockState.writeOut_resp : (s.writeOut ys).resp = s.resp := rfl
end

section
variable (z : α) (c : Config α) (r : List α)
@[simp] theorem BlockState.afterReset_cfg : (BlockState.afterReset z c r).cfg = c := rfl
@[simp] theorem BlockState.afterReset_bq : (BlockState.afterReset z c r).bq = List.replicate c.nch (BiquadUnit.reset z) := rfl
@[simp] theorem BlockState.afterReset_riaa : (BlockState.afterReset z c r).riaa = List.replicate c.nch (RiaaUnit.reset z) := rfl
@[simp] theorem BlockState.afterReset_sat : (BlockState.afterReset z c r).sat = List.replicate c.nch (SatUnit.reset z) := rfl
@[simp] theorem BlockState.afterReset_hf : (BlockState.afterReset z c r).hf = List.replicate c.nch (HfUnit.reset z) := rfl
@[simp] theorem BlockState.afterReset_lim : (BlockState.afterReset z c r).lim = List.replicate c.nch (LimUnit.reset z) := rfl
@[simp] theorem BlockState.afterReset_mem : (BlockState.afterReset z c r).mem = Memory.reset := rfl
@[simp] theorem BlockState.afterReset_resp : (BlockState.afterReset z c r).resp = r := rfl
end

section
variable (c : Config Word) (p : List HostEvent) (r : List Word)
@[simp] theorem State.afterReset_cfg : (State.afterReset c p r).cfg = c := rfl
@[simp] theorem State.afterReset_bq : (State.afterReset c p r).bq = List.replicate c.nch (BiquadUnit.reset 0) := rfl
@[simp] theorem State.afterReset_riaa : (State.afterReset c p r).riaa = List.replicate c.nch (RiaaUnit.reset 0) := rfl
@[simp] theorem State.afterReset_sat : (State.afterReset c p r).sat = List.replicate c.nch (SatUnit.reset 0) := rfl
@[simp] theorem State.afterReset_hf : (State.afterReset c p r).hf = List.replicate c.nch (HfUnit.reset 0) := rfl
@[simp] theorem State.afterReset_lim : (State.afterReset c p r).lim = List.replicate c.nch (LimUnit.reset 0) := rfl
@[simp] theorem State.afterReset_mem : (State.afterReset c p r).mem = Memory.reset := rfl
@[simp] theorem State.afterReset_resp : (State.afterReset c p r).resp = r := rfl
@[simp] theorem State.afterReset_port : (State.afterReset c p r).port = p := rfl
@[simp] theorem State.afterReset_toBlockState :
    (State.afterReset c p r).toBlockState = BlockState.afterReset 0 c r := rfl
end

end Sys2Proof.Machine
end

