-- ==== Sys2Proof/Laws/Ops.lean ====
section
/-! SUPPORT. What each shared operation can answer, said once; later proofs cite these and never unfold them. -/

namespace Sys2Proof.Machine

variable {α : Type}

@[simp] theorem checked_ok {A : Type} (a : A) (f : A → Effect α) : checked (.ok a) f = f a := rfl

@[simp] theorem checked_error {A : Type} (r : Refusal) (f : A → Effect α) :
    checked (.error r : Except Refusal A) f = .error (.plain r) := rfl

/-- A command of the machine completes exactly where its effect on the block is a next state, which it takes; the command
port is untouched. -/
theorem perform_next_iff {s t : State} {f : BlockState Word → Effect Word} :
    s.perform f = .next t ↔ ∃ b, f s.toBlockState = .ok b ∧ t = { s with toBlockState := b } := by
  unfold State.perform
  split <;> simp_all [eq_comm (a := t)]

/-- It is refused exactly where the effect is a reason, which it names. -/
theorem perform_refused_iff {s : State} {f : BlockState Word → Effect Word} {r : Refusal} :
    s.perform f = .refused r ↔ f s.toBlockState = .error (.plain r) ∨
      ∃ cutoff q, f s.toBlockState = .error (.lowpassDomain cutoff q) ∧ r = .lowpassDomain cutoff q := by
  unfold State.perform
  split <;> simp_all [eq_comm (a := r)]

theorem instanceAt_some {U : Type} {us : List U} {ch : BitVec 8} {u : U} (h : us[ch.toNat]? = some u) :
    instanceAt us ch = .ok u := by unfold instanceAt; rw [h]

theorem instanceAt_none {U : Type} {us : List U} {ch : BitVec 8} (h : us[ch.toNat]? = none) :
    instanceAt us ch = .error (.outOfRange (.channel ch.toNat)) := by unfold instanceAt; rw [h]

theorem instanceAt_ok_iff {U : Type} {us : List U} {ch : BitVec 8} {u : U} :
    instanceAt us ch = .ok u ↔ us[ch.toNat]? = some u := by
  cases h : us[ch.toNat]? with
  | none => simp [instanceAt_none h]
  | some v => simp [instanceAt_some h]

theorem requireValid_ok_iff {U : Type} {k : UnitKind} {ch : BitVec 8} {V : Bool} {u v : U} :
    requireValid k ch V u = .ok v ↔ V = true ∧ u = v := by
  unfold requireValid; split <;> simp_all

theorem requireValid_error_iff {U : Type} {k : UnitKind} {ch : BitVec 8} {V : Bool} {u : U} {r : Refusal} :
    requireValid k ch V u = .error r ↔ V = false ∧ r = .notConstructed k ch.toNat := by
  unfold requireValid; split <;> simp_all [eq_comm (a := r)]

theorem constructedAt_ok_iff {U : Type} {k : UnitKind} {V : U → Bool} {us : List U} {ch : BitVec 8} {u : U} :
    constructedAt k V us ch = .ok u ↔ us[ch.toNat]? = some u ∧ V u = true := by
  unfold constructedAt
  cases h : us[ch.toNat]? with
  | none => simp [instanceAt_none h]
  | some v =>
    rw [instanceAt_some h]
    show requireValid k ch (V v) v = .ok u ↔ _
    rw [requireValid_ok_iff]
    constructor
    · rintro ⟨hv, rfl⟩; exact ⟨rfl, hv⟩
    · rintro ⟨hv, hV⟩; cases hv; exact ⟨hV, rfl⟩

/-- A processing or reset command is refused `OutOfRange` where no instance stands, else `NotConstructed` (R215, R218). -/
theorem constructedAt_error_iff {U : Type} {k : UnitKind} {V : U → Bool} {us : List U} {ch : BitVec 8} {r : Refusal} :
    constructedAt k V us ch = .error r ↔
      (us[ch.toNat]? = none ∧ r = .outOfRange (.channel ch.toNat)) ∨
      (∃ u, us[ch.toNat]? = some u ∧ V u = false ∧ r = .notConstructed k ch.toNat) := by
  unfold constructedAt
  cases h : us[ch.toNat]? with
  | none => simp [instanceAt_none h, eq_comm (a := r)]
  | some v =>
    rw [instanceAt_some h]
    show requireValid k ch (V v) v = .error r ↔ _
    simp [requireValid_error_iff]

theorem requireLength_ok_iff {s : BlockState α} {n : BitVec 16} :
    requireLength s n = .ok () ↔ n.toNat ≤ s.cfg.blockMax := by
  unfold requireLength; split <;> simp_all

theorem requireLength_error_iff {s : BlockState α} {n : BitVec 16} {r : Refusal} :
    requireLength s n = .error r ↔ s.cfg.blockMax < n.toNat ∧ r = .outOfRange (.length n.toNat) := by
  unfold requireLength; split <;> simp_all [eq_comm (a := r)]

theorem requireIndex_ok_iff {s : BlockState α} {i : BitVec 16} :
    requireIndex s i = .ok () ↔ i.toNat < s.cfg.blockMax := by
  unfold requireIndex; split <;> simp_all

theorem requireIndex_error_iff {s : BlockState α} {i : BitVec 16} {r : Refusal} :
    requireIndex s i = .error r ↔ s.cfg.blockMax ≤ i.toNat ∧ r = .outOfRange (.index i.toNat) := by
  unfold requireIndex; split <;> simp_all [eq_comm (a := r)]

theorem readBlock_ok_iff {s : BlockState α} {n : BitVec 16} {xs : List α} :
    readBlock s n = .ok xs ↔ Buffer.readFrom s.mem.inBuf 0 n.toNat = .ok xs := by
  unfold readBlock
  cases Buffer.readFrom s.mem.inBuf 0 n.toNat <;> simp

theorem readBlock_error_iff {s : BlockState α} {n : BitVec 16} {r : Refusal} :
    readBlock s n = .error r ↔
      ∃ i, Buffer.readFrom s.mem.inBuf 0 n.toNat = .error i ∧ r = .unwrittenElement .IN i := by
  unfold readBlock
  cases Buffer.readFrom s.mem.inBuf 0 n.toNat <;> simp [eq_comm (a := r)]

/-- The checks of a block command with a unit pass exactly when the instance exists and is constructed, the length
fits and the whole of `IN[0..n-1]` is written (R203). -/
theorem blockOperands_ok_iff {U : Type} {k : UnitKind} {V : U → Bool} {us : List U} {ch : BitVec 8} {n : BitVec 16}
    {s : BlockState α} {u : U} {xs : List α} :
    blockOperands k V us ch n s = .ok (u, xs) ↔
      us[ch.toNat]? = some u ∧ n.toNat ≤ s.cfg.blockMax ∧ V u = true ∧
        Buffer.readFrom s.mem.inBuf 0 n.toNat = .ok xs := by
  unfold blockOperands requireLength requireValid readBlock
  cases h : us[ch.toNat]? with
  | none => simp [instanceAt_none h]
  | some v =>
    rw [instanceAt_some h]
    by_cases hl : n.toNat ≤ s.cfg.blockMax <;> cases hV : V v <;>
      cases hr : Buffer.readFrom s.mem.inBuf 0 n.toNat <;> simp [hl, hV] <;> rintro rfl <;> simp [hV]

/-- The refusals of a block command with a unit, in their order (R203, R218). -/
theorem blockOperands_error_iff {U : Type} {k : UnitKind} {V : U → Bool} {us : List U} {ch : BitVec 8} {n : BitVec 16}
    {s : BlockState α} {r : Refusal} :
    blockOperands k V us ch n s = .error r ↔
      (us[ch.toNat]? = none ∧ r = .outOfRange (.channel ch.toNat)) ∨
      ∃ u, us[ch.toNat]? = some u ∧
        ((s.cfg.blockMax < n.toNat ∧ r = .outOfRange (.length n.toNat)) ∨
         (n.toNat ≤ s.cfg.blockMax ∧ V u = false ∧ r = .notConstructed k ch.toNat) ∨
         (n.toNat ≤ s.cfg.blockMax ∧ V u = true ∧
            ∃ i, Buffer.readFrom s.mem.inBuf 0 n.toNat = .error i ∧ r = .unwrittenElement .IN i)) := by
  unfold blockOperands requireLength requireValid readBlock
  cases h : us[ch.toNat]? with
  | none => simp [instanceAt_none h, eq_comm (a := r)]
  | some v =>
    rw [instanceAt_some h]
    by_cases hl : n.toNat ≤ s.cfg.blockMax <;> cases hV : V v <;>
      cases hr : Buffer.readFrom s.mem.inBuf 0 n.toNat <;>
      simp [hl, hV, eq_comm (a := r), Nat.lt_of_not_le, Nat.not_lt_of_le]

theorem plainBlock_ok_iff {n : BitVec 16} {s : BlockState α} {xs : List α} :
    plainBlock n s = .ok xs ↔ n.toNat ≤ s.cfg.blockMax ∧ Buffer.readFrom s.mem.inBuf 0 n.toNat = .ok xs := by
  unfold plainBlock requireLength
  by_cases hl : n.toNat ≤ s.cfg.blockMax <;> simp [hl, readBlock_ok_iff]

theorem plainBlock_error_iff {n : BitVec 16} {s : BlockState α} {r : Refusal} :
    plainBlock n s = .error r ↔
      (s.cfg.blockMax < n.toNat ∧ r = .outOfRange (.length n.toNat)) ∨
      (n.toNat ≤ s.cfg.blockMax ∧
        ∃ i, Buffer.readFrom s.mem.inBuf 0 n.toNat = .error i ∧ r = .unwrittenElement .IN i) := by
  unfold plainBlock requireLength
  by_cases hl : n.toNat ≤ s.cfg.blockMax
  · simp [hl, readBlock_error_iff, not_lt.2 hl]
  · simp [hl, not_le.1 hl, eq_comm (a := r)]

@[simp] theorem runBlock_nil {σ : Type} (f : σ → α → σ × α) (u : σ) : runBlock f u [] = (u, []) := rfl

@[simp] theorem runBlock_cons {σ : Type} (f : σ → α → σ × α) (u : σ) (x : α) (xs : List α) :
    runBlock f u (x :: xs) = ((runBlock f (f u x).1 xs).1, (f u x).2 :: (runBlock f (f u x).1 xs).2) := rfl

/-- A block of `n` samples yields `n` samples (R203). -/
@[simp] theorem runBlock_length {σ : Type} (f : σ → α → σ × α) (u : σ) (xs : List α) :
    (runBlock f u xs).2.length = xs.length := by
  induction xs generalizing u with
  | nil => rfl
  | cons x xs ih => simp [ih]

/-- History carries across blocks: processing a stream in two blocks is processing it in one (R241). -/
theorem runBlock_append {σ : Type} (f : σ → α → σ × α) (u : σ) (xs ys : List α) :
    runBlock f u (xs ++ ys) =
      ((runBlock f (runBlock f u xs).1 ys).1, (runBlock f u xs).2 ++ (runBlock f (runBlock f u xs).1 ys).2) := by
  induction xs generalizing u with
  | nil => rfl
  | cons x xs ih => simp [ih]

/-- Writing a sample of `IN` keeps the memory canonical. -/
theorem BlockState.writeIn_wf {s : BlockState α} (h : Memory.wf s.mem) (i : Nat) (v : α) : Memory.wf (s.writeIn i v).mem :=
  ⟨Buffer.wf_write h.1 i v, h.2⟩

/-- Writing a block of `OUT` keeps the memory canonical. -/
theorem BlockState.writeOut_wf {s : BlockState α} (h : Memory.wf s.mem) (ys : List α) : Memory.wf (s.writeOut ys).mem :=
  ⟨h.1, Buffer.wf_writeFrom ys h.2 0⟩

theorem Memory.wf_reset : Memory.wf (Memory.reset : Memory α) := ⟨List.Pairwise.nil, List.Pairwise.nil⟩

end Sys2Proof.Machine
end

