-- ==== Sys2Proof/Laws/Exec.lean ====
section
/-! SUPPORT. For each command, over any `NUM`, everything it can do when it completes: the condition on the state and the
operands, and the next state. The machine's meanings are these at N: `exec_eq_perform` with `perform_next_iff`.
Later proofs cite them and never unfold a meaning. -/

namespace Sys2Proof.Machine

variable {α : Type} {N : Numerics α}

section
variable {U : Type} {k : UnitKind} {V : U → Bool} {us : List U} {ch : BitVec 8} {n : BitVec 16} {s t : BlockState α}

/-- A constructor or setter completes exactly where the instance exists. -/
theorem next_of_instance {f : U → Effect α} :
    checked (instanceAt us ch) f = .ok t ↔ ∃ u, us[ch.toNat]? = some u ∧ f u = .ok t := by
  cases h : us[ch.toNat]? with
  | none => simp [instanceAt_none h]
  | some v => simp [instanceAt_some h]

/-- A processing or reset command completes exactly where the instance exists and is constructed (R215). -/
theorem next_of_constructed {f : U → Effect α} :
    checked (constructedAt k V us ch) f = .ok t ↔
      ∃ u, us[ch.toNat]? = some u ∧ V u = true ∧ f u = .ok t := by
  cases h : constructedAt k V us ch with
  | error r =>
    simp only [checked_error, reduceCtorEq, false_iff, not_exists]
    rintro u ⟨h1, h2, -⟩
    simp [constructedAt_ok_iff.2 ⟨h1, h2⟩] at h
  | ok v =>
    obtain ⟨h1, h2⟩ := constructedAt_ok_iff.1 h
    constructor
    · exact fun hf => ⟨v, h1, h2, hf⟩
    · rintro ⟨u, hu, -, hf⟩
      rw [h1] at hu
      cases hu
      exact hf

/-- A block command with a unit completes exactly under the checks of R203. -/
theorem next_of_block {f : U × List α → Effect α} :
    checked (blockOperands k V us ch n s) f = .ok t ↔
      ∃ u xs, us[ch.toNat]? = some u ∧ n.toNat ≤ s.cfg.blockMax ∧ V u = true ∧
        Buffer.readFrom s.mem.inBuf 0 n.toNat = .ok xs ∧ f (u, xs) = .ok t := by
  cases h : blockOperands k V us ch n s with
  | error r =>
    simp only [checked_error, reduceCtorEq, false_iff, not_exists]
    rintro u xs ⟨h1, h2, h3, h4, -⟩
    simp [blockOperands_ok_iff.2 ⟨h1, h2, h3, h4⟩] at h
  | ok p =>
    obtain ⟨v, ys⟩ := p
    obtain ⟨h1, h2, h3, h4⟩ := blockOperands_ok_iff.1 h
    constructor
    · exact fun hf => ⟨v, ys, h1, h2, h3, h4, hf⟩
    · rintro ⟨u, xs, hu, -, -, hx, hf⟩
      rw [h1] at hu
      rw [h4] at hx
      cases hu
      cases hx
      exact hf

/-- A block or analyzer command without a unit completes exactly where the length fits and `IN[0..n-1]` is written. -/
theorem next_of_plainBlock {f : List α → Effect α} :
    checked (plainBlock n s) f = .ok t ↔
      ∃ xs, n.toNat ≤ s.cfg.blockMax ∧ Buffer.readFrom s.mem.inBuf 0 n.toNat = .ok xs ∧ f xs = .ok t := by
  cases h : plainBlock n s with
  | error r =>
    simp only [checked_error, reduceCtorEq, false_iff, not_exists]
    rintro xs ⟨h1, h2, -⟩
    simp [plainBlock_ok_iff.2 ⟨h1, h2⟩] at h
  | ok ys =>
    obtain ⟨h1, h2⟩ := plainBlock_ok_iff.1 h
    constructor
    · exact fun hf => ⟨ys, h1, h2, hf⟩
    · rintro ⟨xs, -, hx, hf⟩
      rw [h2] at hx
      cases hx
      exact hf

end

section
variable {s t : BlockState α}

theorem runNop_ok_iff : runNop s = .ok t ↔ t = s := by simp [runNop, eq_comm]

theorem runWrin_ok_iff {i : BitVec 16} {v : α} :
    runWrin i v s = .ok t ↔ i.toNat < s.cfg.blockMax ∧ t = s.writeIn i.toNat v := by
  unfold runWrin requireIndex
  by_cases h : i.toNat < s.cfg.blockMax <;> simp [h, eq_comm]

theorem runRdout_ok_iff {i : BitVec 16} :
    runRdout i s = .ok t ↔
      i.toNat < s.cfg.blockMax ∧ ∃ v, Buffer.read s.mem.outBuf i.toNat = some v ∧ t = s.respond v := by
  unfold runRdout requireIndex
  by_cases h : i.toNat < s.cfg.blockMax
  · cases hr : Buffer.read s.mem.outBuf i.toNat <;> simp [h, eq_comm]
  · simp [h]

theorem runBqSetc_ok_iff {ch : BitVec 8} {b0 b1 b2 a1 a2 : α} :
    runBqSetc N ch b0 b1 b2 a1 a2 s = .ok t ↔ ∃ u, s.bq[ch.toNat]? = some u ∧ t = s.setBq ch (BiquadUnit.construct N ⟨b0, b1, b2, a1, a2⟩) := by
  unfold runBqSetc
  rw [next_of_instance]
  simp [eq_comm (a := t)]

theorem runBqLowpass_ok_iff {ch : BitVec 8} {cutoff q : α} :
    runBqLowpass N ch cutoff q s = .ok t ↔ ∃ u, s.bq[ch.toNat]? = some u ∧ lowpassDomain N cutoff q = true ∧
      t = s.setBq ch (BiquadUnit.construct N (lowpassCoefficients N cutoff q)) := by
  unfold runBqLowpass
  rw [next_of_instance]
  cases lowpassDomain N cutoff q <;> simp [eq_comm (a := t)]

theorem runBqProc_ok_iff {ch : BitVec 8} {x : α} :
    runBqProc N ch x s = .ok t ↔ ∃ u, s.bq[ch.toNat]? = some u ∧ u.V = true ∧
      t = (s.setBq ch (BiquadUnit.proc N u x).1).respond (BiquadUnit.proc N u x).2 := by
  unfold runBqProc
  rw [next_of_constructed]
  simp [eq_comm (a := t)]

theorem runBqProcb_ok_iff {ch : BitVec 8} {n : BitVec 16} :
    runBqProcb N ch n s = .ok t ↔ ∃ u xs, s.bq[ch.toNat]? = some u ∧ n.toNat ≤ s.cfg.blockMax ∧ u.V = true ∧
      Buffer.readFrom s.mem.inBuf 0 n.toNat = .ok xs ∧
      t = (s.setBq ch (runBlock (BiquadUnit.proc N) u xs).1).writeOut (runBlock (BiquadUnit.proc N) u xs).2 := by
  unfold runBqProcb
  rw [next_of_block]
  simp [eq_comm (a := t)]

theorem runBqReset_ok_iff {ch : BitVec 8} :
    runBqReset N ch s = .ok t ↔ ∃ u, s.bq[ch.toNat]? = some u ∧ u.V = true ∧
      t = s.setBq ch (BiquadUnit.cleared N u) := by
  unfold runBqReset
  rw [next_of_constructed]
  simp [eq_comm (a := t)]

theorem runRiaaNew_ok_iff {ch : BitVec 8} {sampleRate : α} :
    runRiaaNew N ch sampleRate s = .ok t ↔ ∃ u, s.riaa[ch.toNat]? = some u ∧ t = s.setRiaa ch (RiaaUnit.construct N s.cfg.riaaTable sampleRate) := by
  unfold runRiaaNew
  rw [next_of_instance]
  simp [eq_comm (a := t)]

theorem runRiaaProc_ok_iff {ch : BitVec 8} {x : α} :
    runRiaaProc N ch x s = .ok t ↔ ∃ u, s.riaa[ch.toNat]? = some u ∧ u.V = true ∧
      t = (s.setRiaa ch (RiaaUnit.proc N u x).1).respond (RiaaUnit.proc N u x).2 := by
  unfold runRiaaProc
  rw [next_of_constructed]
  simp [eq_comm (a := t)]

theorem runRiaaProcb_ok_iff {ch : BitVec 8} {n : BitVec 16} :
    runRiaaProcb N ch n s = .ok t ↔ ∃ u xs, s.riaa[ch.toNat]? = some u ∧ n.toNat ≤ s.cfg.blockMax ∧ u.V = true ∧
      Buffer.readFrom s.mem.inBuf 0 n.toNat = .ok xs ∧
      t = (s.setRiaa ch (runBlock (RiaaUnit.proc N) u xs).1).writeOut (runBlock (RiaaUnit.proc N) u xs).2 := by
  unfold runRiaaProcb
  rw [next_of_block]
  simp [eq_comm (a := t)]

theorem runRiaaReset_ok_iff {ch : BitVec 8} :
    runRiaaReset N ch s = .ok t ↔ ∃ u, s.riaa[ch.toNat]? = some u ∧ u.V = true ∧
      t = s.setRiaa ch (RiaaUnit.cleared N u) := by
  unfold runRiaaReset
  rw [next_of_constructed]
  simp [eq_comm (a := t)]

theorem runSatSet_ok_iff {ch : BitVec 8} {saturation hardness : α} :
    runSatSet N ch saturation hardness s = .ok t ↔ ∃ u, s.sat[ch.toNat]? = some u ∧ t = s.setSat ch (SatUnit.construct N saturation hardness) := by
  unfold runSatSet
  rw [next_of_instance]
  simp [eq_comm (a := t)]

theorem runSatProc_ok_iff {ch : BitVec 8} {x : α} :
    runSatProc N ch x s = .ok t ↔ ∃ u, s.sat[ch.toNat]? = some u ∧ u.V = true ∧
      t = s.respond (SatUnit.proc N u x).2 := by
  unfold runSatProc
  rw [next_of_constructed]
  simp [eq_comm (a := t)]

theorem runSatProcb_ok_iff {ch : BitVec 8} {n : BitVec 16} :
    runSatProcb N ch n s = .ok t ↔ ∃ u xs, s.sat[ch.toNat]? = some u ∧ n.toNat ≤ s.cfg.blockMax ∧ u.V = true ∧
      Buffer.readFrom s.mem.inBuf 0 n.toNat = .ok xs ∧
      t = s.writeOut (runBlock (SatUnit.proc N) u xs).2 := by
  unfold runSatProcb
  rw [next_of_block]
  simp [eq_comm (a := t)]

theorem runHfSet_ok_iff {ch : BitVec 8} {intensity : α} :
    runHfSet N ch intensity s = .ok t ↔ ∃ u, s.hf[ch.toNat]? = some u ∧ t = s.setHf ch (HfUnit.configure N u intensity) := by
  unfold runHfSet
  rw [next_of_instance]
  simp [eq_comm (a := t)]

theorem runHfProc_ok_iff {ch : BitVec 8} {x : α} :
    runHfProc N ch x s = .ok t ↔ ∃ u, s.hf[ch.toNat]? = some u ∧ u.V = true ∧
      t = (s.setHf ch (HfUnit.proc N u x).1).respond (HfUnit.proc N u x).2 := by
  unfold runHfProc
  rw [next_of_constructed]
  simp [eq_comm (a := t)]

theorem runHfProcb_ok_iff {ch : BitVec 8} {n : BitVec 16} :
    runHfProcb N ch n s = .ok t ↔ ∃ u xs, s.hf[ch.toNat]? = some u ∧ n.toNat ≤ s.cfg.blockMax ∧ u.V = true ∧
      Buffer.readFrom s.mem.inBuf 0 n.toNat = .ok xs ∧
      t = (s.setHf ch (runBlock (HfUnit.proc N) u xs).1).writeOut (runBlock (HfUnit.proc N) u xs).2 := by
  unfold runHfProcb
  rw [next_of_block]
  simp [eq_comm (a := t)]

theorem runHfReset_ok_iff {ch : BitVec 8} :
    runHfReset N ch s = .ok t ↔ ∃ u, s.hf[ch.toNat]? = some u ∧ u.V = true ∧
      t = s.setHf ch (HfUnit.cleared N u) := by
  unfold runHfReset
  rw [next_of_constructed]
  simp [eq_comm (a := t)]

theorem runLimNew_ok_iff {ch : BitVec 8} {threshold releaseTime : α} :
    runLimNew N ch threshold releaseTime s = .ok t ↔ ∃ u, s.lim[ch.toNat]? = some u ∧ t = s.setLim ch (LimUnit.construct N threshold releaseTime) := by
  unfold runLimNew
  rw [next_of_instance]
  simp [eq_comm (a := t)]

theorem runLimProc_ok_iff {ch : BitVec 8} {x : α} :
    runLimProc N ch x s = .ok t ↔ ∃ u, s.lim[ch.toNat]? = some u ∧ u.V = true ∧
      t = (s.setLim ch (LimUnit.proc N s.cfg.releaseUnderflow u x).1).respond
        (LimUnit.proc N s.cfg.releaseUnderflow u x).2 := by
  unfold runLimProc
  rw [next_of_constructed]
  simp [eq_comm (a := t)]

theorem runLimProcb_ok_iff {ch : BitVec 8} {n : BitVec 16} :
    runLimProcb N ch n s = .ok t ↔ ∃ u xs, s.lim[ch.toNat]? = some u ∧ n.toNat ≤ s.cfg.blockMax ∧ u.V = true ∧
      Buffer.readFrom s.mem.inBuf 0 n.toNat = .ok xs ∧
      t = (s.setLim ch (runBlock (LimUnit.proc N s.cfg.releaseUnderflow) u xs).1).writeOut
        (runBlock (LimUnit.proc N s.cfg.releaseUnderflow) u xs).2 := by
  unfold runLimProcb
  rw [next_of_block]
  simp [eq_comm (a := t)]

theorem runLimReset_ok_iff {ch : BitVec 8} :
    runLimReset N ch s = .ok t ↔ ∃ u, s.lim[ch.toNat]? = some u ∧ u.V = true ∧
      t = s.setLim ch (LimUnit.cleared N u) := by
  unfold runLimReset
  rw [next_of_constructed]
  simp [eq_comm (a := t)]

theorem runVaRms_ok_iff {n : BitVec 16} :
    runVaRms N n s = .ok t ↔ ∃ xs, n.toNat ≤ s.cfg.blockMax ∧
      Buffer.readFrom s.mem.inBuf 0 n.toNat = .ok xs ∧ t = s.respond (rms N xs) := by
  unfold runVaRms
  rw [next_of_plainBlock]
  simp [eq_comm (a := t)]

theorem runVaCrest_ok_iff {n : BitVec 16} :
    runVaCrest N n s = .ok t ↔ ∃ xs, n.toNat ≤ s.cfg.blockMax ∧
      Buffer.readFrom s.mem.inBuf 0 n.toNat = .ok xs ∧ t = s.respond (crest N xs) := by
  unfold runVaCrest
  rw [next_of_plainBlock]
  simp [eq_comm (a := t)]

theorem runVaTilt_ok_iff {n : BitVec 16} :
    runVaTilt N n s = .ok t ↔ ∃ xs, n.toNat ≤ s.cfg.blockMax ∧
      Buffer.readFrom s.mem.inBuf 0 n.toNat = .ok xs ∧ t = s.respond (tilt N xs) := by
  unfold runVaTilt
  rw [next_of_plainBlock]
  simp [eq_comm (a := t)]

theorem runVaScore_ok_iff {n : BitVec 16} :
    runVaScore N n s = .ok t ↔ ∃ xs, n.toNat ≤ s.cfg.blockMax ∧
      Buffer.readFrom s.mem.inBuf 0 n.toNat = .ok xs ∧ t = s.respond (velocity N xs) := by
  unfold runVaScore
  rw [next_of_plainBlock]
  simp [eq_comm (a := t)]

theorem runLegacyProcb_ok_iff {n : BitVec 16} {driveDb : α} :
    runLegacyProcb N n driveDb s = .ok t ↔ ∃ xs, n.toNat ≤ s.cfg.blockMax ∧
      Buffer.readFrom s.mem.inBuf 0 n.toNat = .ok xs ∧ t = s.writeOut (xs.map (legacySample N (dbToLinear N driveDb))) := by
  unfold runLegacyProcb
  rw [next_of_plainBlock]
  simp [eq_comm (a := t)]

theorem runMix_ok_iff {dry wet mix : α} : runMix N dry wet mix s = .ok t ↔ t = s.respond (mixDryWet N dry wet mix) := by
  simp [runMix, eq_comm (a := t)]

theorem runDb2lin_ok_iff {db : α} : runDb2lin N db s = .ok t ↔ t = s.respond (dbToLinear N db) := by
  simp [runDb2lin, eq_comm (a := t)]

theorem runSclipa_ok_iff {x : α} : runSclipa N x s = .ok t ↔ t = s.respond (softClipA N x) := by
  simp [runSclipa, eq_comm (a := t)]

end

/-- The machine's meaning of an instruction is the command over binary32 on its operand words (R7, R14). -/
theorem exec_eq_perform (i : Instr) (s : State) :
    exec i s = s.perform (execute binary32 i (operandAt (operandsOf i))) := by
  cases i <;> rfl

end Sys2Proof.Machine
end

