-- ==== Sys2Proof/Laws/Limiter.lean ====
section
/-! SUPPORT. What one release of the limiter's envelope can do (R152, R14, R239): over the reals, and on the default hardware,
it is the product; in binary32 it is strictly below the envelope while that is above the least normal number, and by a factor
of at most 1/2, or with R239's underflow, always strictly below or a zero. -/

namespace Sys2Proof.Machine

/-- Without the underflow a release is the product, rounded once (R14). -/
@[simp] theorem limRelease_plain {α : Type} (N : Numerics α) (e f : α) : limRelease N false e f = N.mul e f := rfl

/-- Over the reals the underflow of R239 never occurs: a release is the product with the factor (R152). -/
theorem limRelease_real (b : Bool) (e f : ℝ) : limRelease realNum b e f = e * f := by
  have h : ¬ (0 < e ∧ f < 1 ∧ e ≤ e * f) := by rintro ⟨h1, h2, h3⟩; nlinarith
  refine if_neg fun hc => h ?_
  have hc' : b = true ∧ 0 < e ∧ f < 1 ∧ e ≤ e * f := by simpa [realNum, Numerics.nat, and_assoc] using hc
  exact hc'.2

theorem F32.sign_or_mag_of_nonneg {a : Word} (h : 0 ≤ F32.units a) : F32.sign a = false ∨ F32.mag a = 0 := by
  cases hs : F32.sign a with
  | false => exact .inl rfl
  | true =>
    rw [F32.units, hs, if_pos rfl] at h
    exact .inr (F32.magUnits_eq_zero.1 (by omega))

/-- A product of two numbers that are not negative, one of them at most 1, is a number between 0 and the other. -/
theorem F32.mul_le_left {e f : Word} (he : F32.isFinite e = true) (h0 : 0 ≤ F32.units e) (hf : F32.isFinite f = true)
    (hf0 : 0 ≤ F32.units f) (hf1 : F32.units f ≤ F32.units 0x3F800000) :
    F32.isFinite (F32.mul e f) = true ∧ 0 ≤ F32.units (F32.mul e f) ∧ F32.units (F32.mul e f) ≤ F32.units e := by
  have hm : F32.roundMag (F32.magUnits (F32.mag e) * F32.magUnits (F32.mag f)) (2 ^ 149) ≤ F32.mag e := by
    refine F32.roundMag_le (by positivity) (Nat.mul_le_mul_left _ ?_)
    have : (F32.units f).natAbs ≤ (F32.units 0x3F800000).natAbs := by omega
    rwa [F32.natAbs_units, F32.natAbs_units, F32.magUnits_one] at this
  have hlt := lt_of_le_of_lt hm (F32.isFinite_iff.1 he)
  have hue : F32.units e = F32.magUnits (F32.mag e) := by rw [← F32.natAbs_units]; omega
  have hle := F32.magUnits_strictMono.monotone hm
  rw [F32.mul_finite he hf, F32.finish_of_lt hlt]
  refine ⟨F32.isFinite_pack hlt, ?_⟩
  rw [F32.units_pack (F32.lt_two_pow_31 hlt), hue]
  by_cases hz : F32.mag e = 0 ∨ F32.mag f = 0
  · have h2 : F32.magUnits (F32.mag e) * F32.magUnits (F32.mag f) = 0 := by
      rcases hz with h | h <;> simp [h]
    rw [h2, F32.roundMag_zero (by positivity), F32.magUnits_zero, Nat.cast_zero, neg_zero, ite_self]
    exact ⟨le_rfl, Int.natCast_nonneg _⟩
  · rw [not_or] at hz
    rw [(F32.sign_or_mag_of_nonneg h0).resolve_right hz.1, (F32.sign_or_mag_of_nonneg hf0).resolve_right hz.2]
    simp only [Bool.xor_self, Bool.false_eq_true, if_false]
    omega

/-- A release is the product, or a zero. -/
theorem limRelease_cases (b : Bool) (e f : Word) :
    limRelease binary32 b e f = F32.mul e f ∨ limRelease binary32 b e f = 0 := by
  simp only [limRelease, binary32, Numerics.nat, F32.lit_zero]
  split
  · exact .inr rfl
  · exact .inl rfl

/-- In binary32 a release by a factor in [0, 1] leaves a number that is not negative and not above the envelope. -/
theorem limRelease_range (b : Bool) {e f : Word} (he : F32.isFinite e = true) (h0 : 0 ≤ F32.units e) (hf : F32.isFinite f = true)
    (hf0 : 0 ≤ F32.units f) (hf1 : F32.units f ≤ F32.units 0x3F800000) :
    F32.isFinite (limRelease binary32 b e f) = true ∧ 0 ≤ F32.units (limRelease binary32 b e f) ∧
      F32.units (limRelease binary32 b e f) ≤ F32.units e := by
  rcases limRelease_cases b e f with hr | hr <;> rw [hr]
  · exact F32.mul_le_left he h0 hf hf0 hf1
  · exact ⟨by decide, by decide, h0⟩

/-- A product whose rounded magnitude stays below the first operand's is strictly below it. -/
theorem F32.mul_lt_left {e f : Word} (he : F32.isFinite e = true) (h0 : 0 ≤ F32.units e) (hf : F32.isFinite f = true)
    (hp : 0 ≤ F32.units (F32.mul e f))
    (hlt : F32.roundMag (F32.magUnits (F32.mag e) * F32.magUnits (F32.mag f)) (2 ^ 149) < F32.mag e) :
    F32.units (F32.mul e f) < F32.units e := by
  have hfin := hlt.trans (F32.isFinite_iff.1 he)
  have hm : F32.mag (F32.mul e f) = F32.roundMag (F32.magUnits (F32.mag e) * F32.magUnits (F32.mag f)) (2 ^ 149) := by
    rw [F32.mul_finite he hf, F32.finish_of_lt hfin, F32.mag_pack (F32.lt_two_pow_31 hfin)]
  have hu := F32.magUnits_strictMono hlt
  rw [← hm, ← F32.natAbs_units, ← F32.natAbs_units] at hu
  omega

/-- A product with a factor of at most 1/2 leaves a zero or a number strictly below, by R14's rounding alone. -/
theorem F32.mul_half_decays {e f : Word} (he : F32.isFinite e = true) (h0 : 0 ≤ F32.units e) (hf : F32.isFinite f = true)
    (hf0 : 0 ≤ F32.units f) (hf1 : F32.units f ≤ F32.units 0x3F000000) :
    F32.units (F32.mul e f) = 0 ∨ F32.units (F32.mul e f) < F32.units e := by
  have hp := F32.mul_le_left he h0 hf hf0 (hf1.trans (by decide +kernel))
  rcases Nat.eq_zero_or_pos (F32.mag e) with hz | hpos
  · have : F32.units e = 0 := F32.mag_eq_zero_iff.2 hz
    left; omega
  refine .inr (F32.mul_lt_left he h0 hf hp.2.1 (F32.roundMag_lt_of_half (by positivity) hpos ?_))
  have hhalf : F32.magUnits (F32.mag 0x3F000000) = 2 ^ 148 := by decide +kernel
  have hb : (F32.units f).natAbs ≤ (F32.units 0x3F000000).natAbs := by omega
  rw [F32.natAbs_units, F32.natAbs_units, hhalf] at hb
  calc 2 * (F32.magUnits (F32.mag e) * F32.magUnits (F32.mag f))
      = F32.magUnits (F32.mag e) * (2 * F32.magUnits (F32.mag f)) := by ring
    _ ≤ F32.magUnits (F32.mag e) * 2 ^ 149 := Nat.mul_le_mul_left _ (by omega)

/-- A product of a number above the least normal one with a factor below 1 is strictly below it, by R14's rounding alone. -/
theorem F32.mul_normal_decays {e f : Word} (he : F32.isFinite e = true) (h0 : F32.units 0x00800000 < F32.units e)
    (hf : F32.isFinite f = true) (hf0 : 0 ≤ F32.units f) (hf1 : F32.units f < F32.units 0x3F800000) :
    F32.units (F32.mul e f) < F32.units e := by
  have hn : F32.units 0x00800000 = 2 ^ 23 := by decide +kernel
  have hp := F32.mul_le_left he (by omega) hf hf0 hf1.le
  refine F32.mul_lt_left he (by omega) hf hp.2.1 (F32.roundMag_lt_of_pred_one ?_ (Nat.mul_le_mul_left _ ?_))
  · have h1 : F32.magUnits (F32.mag 0x00800000) < F32.magUnits (F32.mag e) := by
      rw [← F32.natAbs_units, ← F32.natAbs_units]; omega
    have h2 := F32.magUnits_strictMono.lt_iff_lt.1 h1
    rwa [show F32.mag 0x00800000 = 2 ^ 23 by decide] at h2
  · have h1 : F32.magUnits (F32.mag f) < F32.magUnits (F32.mag 0x3F800000) := by
      rw [← F32.natAbs_units, ← F32.natAbs_units]; omega
    have h2 := F32.magUnits_strictMono.lt_iff_lt.1 h1
    have h3 : F32.magUnits (F32.mag 0x3F7FFFFF) = 2 ^ 149 - 2 ^ 125 := by decide +kernel
    rw [← h3]
    refine F32.magUnits_strictMono.monotone ?_
    have h4 : F32.mag 0x3F800000 = F32.mag 0x3F7FFFFF + 1 := by decide
    omega

/-- A release by a factor below 1 that leaves the envelope as it is meets at most the least normal number. -/
theorem limRelease_settles {b : Bool} {e f : Word} (he : F32.isFinite e = true) (hf : F32.isFinite f = true)
    (hf0 : 0 ≤ F32.units f) (hf1 : F32.units f < F32.units 0x3F800000)
    (h : F32.units (limRelease binary32 b e f) = F32.units e) : F32.units e ≤ F32.units 0x00800000 := by
  have hz : F32.units 0 = 0 := by decide
  have hn : F32.units 0x00800000 = 2 ^ 23 := by decide +kernel
  by_contra hc
  rcases limRelease_cases b e f with hr | hr <;> rw [hr] at h
  · have := F32.mul_normal_decays he (not_le.1 hc) hf hf0 hf1
    omega
  · omega

/-- By a factor below 1 it leaves a zero, or a number strictly below the envelope, where the underflow of R239 is on or the
factor is at most 1/2. -/
theorem limRelease_decays {b : Bool} {e f : Word} (he : F32.isFinite e = true) (h0 : 0 ≤ F32.units e)
    (hf : F32.isFinite f = true) (hf0 : 0 ≤ F32.units f) (hf1 : F32.units f < F32.units 0x3F800000)
    (hb : b = true ∨ F32.units f ≤ F32.units 0x3F000000) :
    F32.units (limRelease binary32 b e f) = 0 ∨ F32.units (limRelease binary32 b e f) < F32.units e := by
  have hp := F32.mul_le_left he h0 hf hf0 hf1.le
  have hz : F32.units 0 = 0 := by decide
  rcases hb with rfl | hhalf
  swap
  · rcases limRelease_cases b e f with hr | hr <;> rw [hr]
    · exact F32.mul_half_decays he h0 hf hf0 hhalf
    · exact .inl hz
  simp only [limRelease, binary32, Numerics.nat, F32.lit_zero, F32.lit_one]
  rw [F32.lt_finite (by decide) he, F32.lt_finite hf (by decide), F32.le_finite he hp.1, hz]
  split
  · exact .inl hz
  · rename_i h
    simp only [Bool.true_and, Bool.and_eq_true, decide_eq_true_eq, hf1, and_true, not_and, not_le] at h
    rcases h0.lt_or_eq with h1 | h1
    · exact .inr (h h1)
    · left; omega

end Sys2Proof.Machine
end

