-- ==== Sys2Proof/Laws/PerInstr.lean ====
section
/-! SUPPORT. The family `EncodeShape`: for every constructor, its encoding is a word of its table row (R71, R72, R76):
the row's opcode, its fields in their places, zeros where the format reserves a field, and the row's number of operand
words. -/

namespace Sys2Proof.Laws.EncodeShape

/-- The instruction has a row under its opcode, whose operand and result columns and whose format its encoding obeys, and
from whose fields the row makes the instruction again. -/
def Statement (i : Instr) : Prop :=
  ∃ row, rowOf (opOf i) = some row ∧ row.operands = (Machine.operandsOf i).length ∧
    row.result = Machine.hasResult i ∧ row.format.reservedZero (encodeHead i) = true ∧
    ∀ more, row.make (chOf i) (immOf i) (operandAt (Machine.operandsOf i ++ more)) = i

/-- A row witnesses the statement when it is the one its opcode selects. -/
theorem of_row {i : Instr} (row : OpRow) (h : rowOf (opOf i) = some row)
    (ho : row.operands = (Machine.operandsOf i).length) (hr : row.result = Machine.hasResult i)
    (hz : row.format.reservedZero (encodeHead i) = true)
    (hm : ∀ more, row.make (chOf i) (immOf i) (operandAt (Machine.operandsOf i ++ more)) = i) : Statement i :=
  ⟨row, h, ho, hr, hz, hm⟩

theorem nop : Statement .nop :=
  of_row _ rfl rfl rfl ((reservedZero_encodeHead _ _).trans rfl) (fun _ => rfl)

theorem wrin (i : BitVec 16) (v : Word) : Statement (.wrin i v) :=
  of_row _ rfl rfl rfl ((reservedZero_encodeHead _ _).trans rfl) (fun _ => rfl)

theorem rdout (i : BitVec 16) : Statement (.rdout i) :=
  of_row _ rfl rfl rfl ((reservedZero_encodeHead _ _).trans rfl) (fun _ => rfl)

theorem bqProc (ch : BitVec 8) (x : Word) : Statement (.bqProc ch x) :=
  of_row _ rfl rfl rfl ((reservedZero_encodeHead _ _).trans rfl) (fun _ => rfl)

theorem bqProcb (ch : BitVec 8) (n : BitVec 16) : Statement (.bqProcb ch n) :=
  of_row _ rfl rfl rfl ((reservedZero_encodeHead _ _).trans rfl) (fun _ => rfl)

theorem bqReset (ch : BitVec 8) : Statement (.bqReset ch) :=
  of_row _ rfl rfl rfl ((reservedZero_encodeHead _ _).trans rfl) (fun _ => rfl)

theorem bqSetc (ch : BitVec 8) (b0 b1 b2 a1 a2 : Word) : Statement (.bqSetc ch b0 b1 b2 a1 a2) :=
  of_row _ rfl rfl rfl ((reservedZero_encodeHead _ _).trans rfl) (fun _ => rfl)

theorem bqLowpass (ch : BitVec 8) (cutoff q : Word) : Statement (.bqLowpass ch cutoff q) :=
  of_row _ rfl rfl rfl ((reservedZero_encodeHead _ _).trans rfl) (fun _ => rfl)

theorem riaaProc (ch : BitVec 8) (x : Word) : Statement (.riaaProc ch x) :=
  of_row _ rfl rfl rfl ((reservedZero_encodeHead _ _).trans rfl) (fun _ => rfl)

theorem riaaProcb (ch : BitVec 8) (n : BitVec 16) : Statement (.riaaProcb ch n) :=
  of_row _ rfl rfl rfl ((reservedZero_encodeHead _ _).trans rfl) (fun _ => rfl)

theorem riaaReset (ch : BitVec 8) : Statement (.riaaReset ch) :=
  of_row _ rfl rfl rfl ((reservedZero_encodeHead _ _).trans rfl) (fun _ => rfl)

theorem riaaNew (ch : BitVec 8) (sampleRate : Word) : Statement (.riaaNew ch sampleRate) :=
  of_row _ rfl rfl rfl ((reservedZero_encodeHead _ _).trans rfl) (fun _ => rfl)

theorem satProc (ch : BitVec 8) (x : Word) : Statement (.satProc ch x) :=
  of_row _ rfl rfl rfl ((reservedZero_encodeHead _ _).trans rfl) (fun _ => rfl)

theorem satProcb (ch : BitVec 8) (n : BitVec 16) : Statement (.satProcb ch n) :=
  of_row _ rfl rfl rfl ((reservedZero_encodeHead _ _).trans rfl) (fun _ => rfl)

theorem satSet (ch : BitVec 8) (saturation hardness : Word) : Statement (.satSet ch saturation hardness) :=
  of_row _ rfl rfl rfl ((reservedZero_encodeHead _ _).trans rfl) (fun _ => rfl)

theorem hfProc (ch : BitVec 8) (x : Word) : Statement (.hfProc ch x) :=
  of_row _ rfl rfl rfl ((reservedZero_encodeHead _ _).trans rfl) (fun _ => rfl)

theorem hfProcb (ch : BitVec 8) (n : BitVec 16) : Statement (.hfProcb ch n) :=
  of_row _ rfl rfl rfl ((reservedZero_encodeHead _ _).trans rfl) (fun _ => rfl)

theorem hfReset (ch : BitVec 8) : Statement (.hfReset ch) :=
  of_row _ rfl rfl rfl ((reservedZero_encodeHead _ _).trans rfl) (fun _ => rfl)

theorem hfSet (ch : BitVec 8) (intensity : Word) : Statement (.hfSet ch intensity) :=
  of_row _ rfl rfl rfl ((reservedZero_encodeHead _ _).trans rfl) (fun _ => rfl)

theorem limProc (ch : BitVec 8) (x : Word) : Statement (.limProc ch x) :=
  of_row _ rfl rfl rfl ((reservedZero_encodeHead _ _).trans rfl) (fun _ => rfl)

theorem limProcb (ch : BitVec 8) (n : BitVec 16) : Statement (.limProcb ch n) :=
  of_row _ rfl rfl rfl ((reservedZero_encodeHead _ _).trans rfl) (fun _ => rfl)

theorem limReset (ch : BitVec 8) : Statement (.limReset ch) :=
  of_row _ rfl rfl rfl ((reservedZero_encodeHead _ _).trans rfl) (fun _ => rfl)

theorem limNew (ch : BitVec 8) (threshold releaseTime : Word) : Statement (.limNew ch threshold releaseTime) :=
  of_row _ rfl rfl rfl ((reservedZero_encodeHead _ _).trans rfl) (fun _ => rfl)

theorem vaRms (n : BitVec 16) : Statement (.vaRms n) :=
  of_row _ rfl rfl rfl ((reservedZero_encodeHead _ _).trans rfl) (fun _ => rfl)

theorem vaCrest (n : BitVec 16) : Statement (.vaCrest n) :=
  of_row _ rfl rfl rfl ((reservedZero_encodeHead _ _).trans rfl) (fun _ => rfl)

theorem vaTilt (n : BitVec 16) : Statement (.vaTilt n) :=
  of_row _ rfl rfl rfl ((reservedZero_encodeHead _ _).trans rfl) (fun _ => rfl)

theorem vaScore (n : BitVec 16) : Statement (.vaScore n) :=
  of_row _ rfl rfl rfl ((reservedZero_encodeHead _ _).trans rfl) (fun _ => rfl)

theorem mix (dry wet mix : Word) : Statement (.mix dry wet mix) :=
  of_row _ rfl rfl rfl ((reservedZero_encodeHead _ _).trans rfl) (fun _ => rfl)

theorem db2lin (db : Word) : Statement (.db2lin db) :=
  of_row _ rfl rfl rfl ((reservedZero_encodeHead _ _).trans rfl) (fun _ => rfl)

theorem sclipa (x : Word) : Statement (.sclipa x) :=
  of_row _ rfl rfl rfl ((reservedZero_encodeHead _ _).trans rfl) (fun _ => rfl)

theorem legacyProcb (n : BitVec 16) (driveDb : Word) : Statement (.legacyProcb n driveDb) :=
  of_row _ rfl rfl rfl ((reservedZero_encodeHead _ _).trans rfl) (fun _ => rfl)

end Sys2Proof.Laws.EncodeShape
end

