-- ==== Sys2Proof/Laws/Step.lean ====
section
/-! SUPPORT. What fetching and a step can answer, said once. -/

namespace Sys2Proof.Machine

/-- An instruction's operand words are the operands a step over binary32 reads (R13, R73). -/
theorem map_operandAt_operandsOf (i : Instr) :
    (List.range (operandsOf i).length).map (operandAt (operandsOf i)) = operandsOf i := by
  cases i <;> rfl

/-- A command over any number system completes exactly where decoding passes (R77) and its own rule completes. -/
theorem blockStep_ok_iff {α : Type} {N : Numerics α} {i : Instr} {opnd : Nat → α} {s t : BlockState α} :
    blockStep N (.command i opnd) s = .ok t ↔
      rangeRefusal s.cfg i = none ∧
        nonFiniteRefusal N.isNumber ((List.range (operandsOf i).length).map opnd) = none ∧
        execute N i opnd s = .ok t := by
  simp only [blockStep]
  cases rangeRefusal s.cfg i <;>
    cases nonFiniteRefusal N.isNumber ((List.range (operandsOf i).length).map opnd) <;> simp

/-- The words that have arrived before the next reset, when words stand in front. -/
@[simp] theorem leadingWords_words (ws : List Word) (rest : List HostEvent) :
    leadingWords (ws.map HostEvent.word ++ rest) = ws ++ leadingWords rest := by
  induction ws with
  | nil => rfl
  | cons w ws ih => simp [leadingWords, ih]

@[simp] theorem leadingWords_nil : leadingWords [] = [] := rfl

@[simp] theorem leadingWords_reset (rest : List HostEvent) : leadingWords (.reset :: rest) = [] := rfl

theorem leadingWords_length_le (es : List HostEvent) : (leadingWords es).length ≤ es.length := by
  induction es with
  | nil => exact Nat.le_refl _
  | cons e es ih => cases e <;> simp [leadingWords, ih]

/-- With no reset in sight every event is a word. -/
theorem leadingWords_of_no_reset {es : List HostEvent} (h : HostEvent.reset ∉ es) :
    (leadingWords es).map HostEvent.word = es := by
  induction es with
  | nil => rfl
  | cons e es ih =>
    cases e with
    | word w => simp [leadingWords, ih (by simpa using h)]
    | reset => simp at h

/-- Steps 3 and 4 of decoding pass exactly on fields in range (R77). -/
theorem rangeRefusal_eq_none {α : Type} {cfg : Config α} {i : Instr} :
    rangeRefusal cfg i = none ↔ i.channelOk cfg = true ∧ i.indexOk cfg = true ∧ i.lengthOk cfg = true := by
  unfold rangeRefusal Instr.channelOk Instr.indexOk Instr.lengthOk
  cases channelOf i <;> cases indexOf i <;> cases lengthOf i <;>
    simp [channelRefusal, indexRefusal, lengthRefusal, Option.or_eq_none_iff]

/-- The channel is checked before the index and the length (R218). -/
theorem rangeRefusal_eq_some {α : Type} {cfg : Config α} {i : Instr} {r : Refusal} (h : rangeRefusal cfg i = some r) :
    (∃ ch, channelOf i = some ch ∧ cfg.nch ≤ ch.toNat ∧ r = .outOfRange (.channel ch.toNat)) ∨
    (i.channelOk cfg = true ∧ ∃ j, indexOf i = some j ∧ cfg.blockMax ≤ j.toNat ∧ r = .outOfRange (.index j.toNat)) ∨
    (i.channelOk cfg = true ∧ ∃ n, lengthOf i = some n ∧ cfg.blockMax < n.toNat ∧
      r = .outOfRange (.length n.toNat)) := by
  unfold rangeRefusal at h
  rcases Option.or_eq_some_iff.1 h with h | ⟨hc, h⟩
  · obtain ⟨ch, hch, hr⟩ := Option.bind_eq_some_iff.1 h
    unfold channelRefusal at hr
    split_ifs at hr with hlt
    exact .inl ⟨ch, hch, Nat.le_of_not_lt hlt, (Option.some.inj hr).symm⟩
  · have hok : i.channelOk cfg = true := by
      unfold Instr.channelOk
      cases hch : channelOf i with
      | none => rfl
      | some ch => simpa [hch, channelRefusal] using hc
    rcases Option.or_eq_some_iff.1 h with h | ⟨-, h⟩
    · obtain ⟨j, hj, hr⟩ := Option.bind_eq_some_iff.1 h
      unfold indexRefusal at hr
      split_ifs at hr with hlt
      exact .inr (.inl ⟨hok, j, hj, Nat.le_of_not_lt hlt, (Option.some.inj hr).symm⟩)
    · obtain ⟨n, hn, hr⟩ := Option.bind_eq_some_iff.1 h
      unfold lengthRefusal at hr
      split_ifs at hr with hle
      exact .inr (.inr ⟨hok, n, hn, Nat.lt_of_not_le hle, (Option.some.inj hr).symm⟩)

/-- `firstNonFinite` finds nothing exactly when every value is a number. -/
theorem firstNonFinite_eq_none {α : Type} {p : α → Bool} {ws : List α} : ∀ {k : Nat},
    firstNonFinite p ws k = none ↔ ws.all p = true := by
  induction ws with
  | nil => simp [firstNonFinite]
  | cons w ws ih =>
    intro k
    by_cases h : p w = true <;> simp [firstNonFinite, h, ih]

/-- Otherwise it is the place of the least value that is no number (R216). -/
theorem firstNonFinite_eq_some {α : Type} {p : α → Bool} {ws : List α} : ∀ {k m : Nat}, firstNonFinite p ws k = some m ↔
    ∃ j w, m = k + j ∧ ws[j]? = some w ∧ p w = false ∧
      ∀ j' < j, ∃ v, ws[j']? = some v ∧ p v = true := by
  induction ws with
  | nil => simp [firstNonFinite]
  | cons w ws ih =>
    intro k m
    by_cases h : p w = true
    · simp only [firstNonFinite, h, if_true, ih]
      constructor
      · rintro ⟨j, v, rfl, h1, h2, h3⟩
        refine ⟨j + 1, v, by omega, by simpa using h1, h2, fun j' hj' => ?_⟩
        cases j' with
        | zero => exact ⟨w, rfl, h⟩
        | succ j' => simpa using h3 j' (by omega)
      · rintro ⟨j, v, rfl, h1, h2, h3⟩
        cases j with
        | zero => simp at h1; subst h1; simp [h] at h2
        | succ j => exact ⟨j, v, by omega, by simpa using h1, h2, fun j' hj' => by simpa using h3 (j' + 1) (by omega)⟩
    · simp only [firstNonFinite, h, Bool.false_eq_true, if_false, Option.some.injEq]
      constructor
      · rintro rfl; exact ⟨0, w, rfl, rfl, by simpa using h, fun j' hj' => by omega⟩
      · rintro ⟨j, v, rfl, h1, h2, h3⟩
        cases j with
        | zero => rfl
        | succ j => obtain ⟨v', hv', hf⟩ := h3 0 (by omega); simp at hv'; subst hv'; exact absurd hf h

theorem operandRefusal_eq_none {i : Instr} : operandRefusal i = none ↔ i.operandsOk = true := by
  simp [operandRefusal, nonFiniteRefusal, Instr.operandsOk, firstNonFinite_eq_none]

theorem operandRefusal_eq_some {i : Instr} {r : Refusal} : operandRefusal i = some r ↔
    ∃ k w, r = .nonFiniteOperand k ∧ (operandsOf i)[k]? = some w ∧ F32.isFinite w = false ∧
      ∀ j < k, ∃ v, (operandsOf i)[j]? = some v ∧ F32.isFinite v = true := by
  simp only [operandRefusal, nonFiniteRefusal, Option.map_eq_some_iff, firstNonFinite_eq_some]
  constructor
  · rintro ⟨k, ⟨j, w, rfl, h1, h2, h3⟩, rfl⟩; exact ⟨j, w, by simp, h1, h2, h3⟩
  · rintro ⟨k, w, rfl, h1, h2, h3⟩; exact ⟨k, ⟨k, w, by simp, h1, h2, h3⟩, rfl⟩

theorem wf_iff {c : Config Word} {i : Instr} : i.wf c = true ↔
    i.channelOk c = true ∧ i.indexOk c = true ∧ i.lengthOk c = true ∧ i.operandsOk = true := by
  simp [Instr.wf, and_assoc]

/-- A command is fetched exactly when it decodes, is well formed, and all its words have arrived (R70, R77). -/
theorem fetchCommand_command {cfg : Config Word} {cw : Word} {rest rest' : List HostEvent} {i : Instr} :
    fetchCommand cfg cw rest = .command i rest' ↔
      decode cw (leadingWords rest) = .ok i ∧ i.wf cfg = true ∧
        (operandsOf i).length ≤ (leadingWords rest).length ∧ rest' = rest.drop (operandsOf i).length := by
  unfold fetchCommand
  cases hd : decode cw (leadingWords rest) with
  | error e => simp
  | ok j =>
    cases hr : rangeRefusal cfg j with
    | some r =>
      simp only [hr, reduceCtorEq, false_iff, not_and]
      intro hj hw
      cases hj
      have h := wf_iff.1 hw
      simp [rangeRefusal_eq_none.2 ⟨h.1, h.2.1, h.2.2.1⟩] at hr
    | none =>
      have hrange := rangeRefusal_eq_none.1 hr
      simp only [hr]
      by_cases hl : (leadingWords rest).length < (operandsOf j).length
      · simp only [hl, if_true]
        constructor
        · split <;> simp
        · rintro ⟨h, -, h2, -⟩; cases h; omega
      · simp only [hl, if_false]
        cases ho : operandRefusal j with
        | some r =>
          simp only [reduceCtorEq, false_iff, not_and]
          intro hj hw
          cases hj
          simp [operandRefusal_eq_none.2 (wf_iff.1 hw).2.2.2] at ho
        | none =>
          have := operandRefusal_eq_none.1 ho
          simp only [Fetched.command.injEq, Except.ok.injEq]
          constructor
          · rintro ⟨rfl, rfl⟩; exact ⟨rfl, wf_iff.2 ⟨hrange.1, hrange.2.1, hrange.2.2, this⟩, by omega, rfl⟩
          · rintro ⟨rfl, -, -, rfl⟩; exact ⟨rfl, rfl⟩

/-- The refusals of decoding, each where the earlier checks have passed (R77, R218). -/
theorem fetchCommand_refuse {cfg : Config Word} {cw : Word} {rest : List HostEvent} {r : Refusal}
    (h : fetchCommand cfg cw rest = .refuse r) :
    (∃ e, decode cw (leadingWords rest) = .error e ∧ r = decodeRefusal e) ∨
    (∃ i, decode cw (leadingWords rest) = .ok i ∧
      (rangeRefusal cfg i = some r ∨
       (rangeRefusal cfg i = none ∧ (leadingWords rest).length < (operandsOf i).length ∧
          (leadingWords rest).length < rest.length ∧ r = .commandSplitByReset) ∨
       (rangeRefusal cfg i = none ∧ (operandsOf i).length ≤ (leadingWords rest).length ∧
          operandRefusal i = some r))) := by
  unfold fetchCommand at h
  cases hd : decode cw (leadingWords rest) with
  | error e => exact .inl ⟨e, rfl, by simpa [hd, eq_comm] using h⟩
  | ok j =>
    refine .inr ⟨j, rfl, ?_⟩
    simp only [hd] at h
    cases hr : rangeRefusal cfg j with
    | some r' => simp only [hr, Fetched.refuse.injEq] at h; exact .inl (by rw [h])
    | none =>
      simp only [hr] at h
      by_cases hl : (leadingWords rest).length < (operandsOf j).length
      · simp only [hl, if_true] at h
        split_ifs at h with h2
        exact .inr (.inl ⟨rfl, hl, h2, by simpa [eq_comm] using h⟩)
      · simp only [hl, if_false] at h
        cases ho : operandRefusal j with
        | some r' =>
          simp only [ho, Fetched.refuse.injEq] at h
          exact .inr (.inr ⟨rfl, by omega, by rw [h]⟩)
        | none => simp [ho] at h

/-- Everything a step that answers a next state can have done (R16, R230, log 3). -/
theorem step_next_cases {s t : State} (h : step s = .next t) :
    (fetch s = .idle ∧ t = s) ∨
    (∃ rest, s.port = .reset :: rest ∧ t = State.afterReset s.cfg rest s.resp) ∨
    (∃ cw rest i, s.port = .word cw :: rest ∧ decode cw (leadingWords rest) = .ok i ∧ i.wf s.cfg = true ∧
      (operandsOf i).length ≤ (leadingWords rest).length ∧
      exec i { s with port := rest.drop (operandsOf i).length } = .next t) := by
  unfold step at h
  cases hf : fetch s with
  | idle => simp only [hf, Host.Outcome.next.injEq] at h; exact .inl ⟨rfl, h.symm⟩
  | refuse r => simp [hf] at h
  | reset rest =>
    refine .inr (.inl ⟨rest, ?_, ?_⟩)
    · unfold fetch at hf
      split at hf
      · cases hf
      · rename_i hp; cases hf; exact hp
      · unfold fetchCommand at hf
        repeat' split at hf
        all_goals cases hf
    · simpa [hf, resetEvent, eq_comm] using h
  | command i rest' =>
    refine .inr (.inr ?_)
    unfold fetch at hf
    split at hf
    · cases hf
    · cases hf
    · rename_i cw rest hp
      obtain ⟨h1, h2, h3, rfl⟩ := fetchCommand_command.1 hf
      exact ⟨cw, rest, i, hp, h1, h2, h3, by simpa [fetch, hp, hf] using h⟩

/-- Everything a refused step can have met: a refusal of decoding, or of the command's own rule (R77, R211). -/
theorem step_refused_cases {s : State} {r : Refusal} (h : step s = .refused r) :
    ∃ cw rest, s.port = .word cw :: rest ∧
      (fetchCommand s.cfg cw rest = .refuse r ∨
       ∃ i, decode cw (leadingWords rest) = .ok i ∧ i.wf s.cfg = true ∧
         (operandsOf i).length ≤ (leadingWords rest).length ∧
         exec i { s with port := rest.drop (operandsOf i).length } = .refused r) := by
  unfold step fetch at h
  split at h
  · cases h
  · cases h
  · rename_i r' hf
    split at hf
    · cases hf
    · cases hf
    · rename_i cw rest hp; cases h; exact ⟨cw, rest, hp, .inl hf⟩
  · rename_i i rest' hf
    split at hf
    · cases hf
    · cases hf
    · rename_i cw rest hp
      obtain ⟨h1, h2, h3, rfl⟩ := fetchCommand_command.1 hf
      exact ⟨cw, rest, hp, .inr ⟨i, h1, h2, h3, h⟩⟩

end Sys2Proof.Machine
end

