-- ==== Sys2Proof/Machine/Pseudo.lean ====
section
/-! DEFINITION. The pseudo-instructions of the assembler (R82): each expands to real commands and adds no semantics. -/

namespace Sys2Proof.Machine

/-- `BQ.IDENT ch` = `BQ.SETC ch, 1, 0, 0, 0, 0`, the identity filter (R82). The operand words are binary32 (R73). -/
def pseudoBqIdent (ch : BitVec 8) : List Instr := [.bqSetc ch 0x3F800000 0 0 0 0]

/-- `LDBLK v0, v1, …` = `WRIN 0, v0`; `WRIN 1, v1`; … (R82). DESIGN CHOICE (log 21): an index beyond 65535, which has no
16-bit encoding and of which the spec says nothing, wraps modulo 2^16. -/
def pseudoLdblk (vs : List Word) : List Instr :=
  vs.zipIdx.map fun p => .wrin (BitVec.ofNat 16 p.2) p.1

/-- `RDBLK m` = `RDOUT 0`; …; `RDOUT m-1` (R82). DESIGN CHOICE (log 21): an index beyond 65535 wraps modulo 2^16. -/
def pseudoRdblk (m : Nat) : List Instr := (List.range m).map fun i => .rdout (BitVec.ofNat 16 i)

end Sys2Proof.Machine
end

