-- ==== Sys2Proof/Tests/Slice0.lean ====
section
/-! SUPPORT. The model's own tests. Words and values come from `spec/95_test_vectors.md` (the section is named in each
comment); witnesses show that the hypotheses of each obligation can be met. -/

namespace Sys2Proof.Tests

open Sys2Proof Sys2Proof.Machine

/-! ### A small state -/

/-- The coefficients of L2.1: `(1/2, 1/4, 1/8, -1/2, 1/4)`. -/
def coeffs : FilterCoefficients Word := ⟨0x3F000000, 0x3E800000, 0x3E000000, 0xBF000000, 0x3E800000⟩

/-- Two channels and buffers of eight samples; the 48000 row of the table is L2.1's, for test. -/
def config : Config Word := { nch := 2, blockMax := 8, riaaTable := ⟨⟨0, 0, 0, 0, 0⟩, coeffs⟩, releaseUnderflow := false }

/-- Channel 0 of every kind constructed, channel 1 not; `IN[0..3] = 1/2, 1/2, 1/2, 1`, `OUT[0..1] = 1, 2`. -/
def demo : State :=
  { cfg := config
    bq := [{ V := true, coeffs := coeffs, state := ⟨0, 0, 0xBD800000, 0⟩ }, (BiquadUnit.reset 0)]
    riaa := [{ V := true, rate := .hz48000, coeffs := coeffs, state := ⟨0, 0, 0, 0⟩ }, (RiaaUnit.reset 0)]
    sat := [{ V := true, saturation := 0x3F000000, hardness := 0x3F000000 }, (SatUnit.reset 0)]
    hf := [{ V := true, intensity := 0x3F000000, state := 0 }, (HfUnit.reset 0)]
    lim := [{ V := true, threshold := 0x3F000000, releaseTime := 0x3F800000, envelope := 0 }, (LimUnit.reset 0)]
    mem := { inBuf := [(0, 0x3F000000), (1, 0x3F000000), (2, 0x3F000000), (3, 0x3F800000)]
             outBuf := [(0, 0x3F800000), (1, 0x40000000)] }
    port := []
    resp := [] }

/-- The same state with words next on the command port. -/
def sent (ws : List Word) : State := { demo with port := ws.map HostEvent.word }

/-- The words on the response port after a completed command. -/
def results : Outcome → Option (List Word)
  | .next t => some t.resp
  | .fault _ => none
  | .refused _ => none

/-- Why a command was refused. -/
def reason : Outcome → Option Refusal
  | .next _ => none
  | .fault _ => none
  | .refused r => some r

/-- A part of the state after a completed command. -/
def after {A : Type} (o : Outcome) (part : State → A) : Option A :=
  match o with
  | .next t => some (part t)
  | .fault _ => none
  | .refused _ => none

/-- A completed command has a next state. -/
theorem next_of_after {o : Outcome} (h : (after o (fun _ => ())).isSome = true) : ∃ t, o = .next t := by
  cases o with
  | next t => exact ⟨t, rfl⟩
  | fault r => cases h
  | refused r => cases h

/-- A refused command names its reason. -/
theorem refused_of_reason {o : Outcome} {r : Refusal} (h : reason o = some r) : o = .refused r := by
  cases o with
  | next t => cases h
  | fault f => cases f
  | refused r' => cases h; rfl

/-! ### Well-formedness: one ill-formed term for each check (R77) -/

theorem test_wf_accepts : Instr.wf config (.bqProcb 1 8) = true ∧ Instr.wf config (.wrin 7 0xFF7FFFFF) = true := by
  decide +kernel

theorem test_wf_refuses_channel : Instr.channelOk config (.bqProc 2 0) = false ∧
    Instr.wf config (.bqProc 2 0) = false := by decide +kernel

theorem test_wf_refuses_index : Instr.indexOk config (.rdout 8) = false ∧ Instr.wf config (.rdout 8) = false := by
  decide +kernel

theorem test_wf_refuses_length : Instr.lengthOk config (.vaRms 9) = false ∧ Instr.wf config (.vaRms 9) = false := by
  decide +kernel

theorem test_wf_refuses_operand : Instr.operandsOk (.mix 0 0x7FC00000 0) = false ∧
    Instr.wf config (.mix 0 0xFF800000 0) = false := by decide +kernel

/-! ### Decoding: every constructor, words of L2.0 -/

theorem test_decode_sys : decode 0x00000000 [] = .ok .nop ∧ decode 0x01000FFF [0x3F800000] = .ok (.wrin 4095 0x3F800000) ∧
    decode 0x02000003 [] = .ok (.rdout 3) := ⟨rfl, rfl, rfl⟩

theorem test_decode_bq : decode 0x10010000 [0x3F000000] = .ok (.bqProc 1 0x3F000000) ∧
    decode 0x11010100 [] = .ok (.bqProcb 1 256) ∧ decode 0x12010000 [] = .ok (.bqReset 1) ∧
    decode 0x13000000 [0x3F000000, 0x3E800000, 0x3E000000, 0xBF000000, 0x3E800001] =
      .ok (.bqSetc 0 0x3F000000 0x3E800000 0x3E000000 0xBF000000 0x3E800001) ∧
    decode 0x14010000 [0x3DCCCCCD, 0x3F800000] = .ok (.bqLowpass 1 0x3DCCCCCD 0x3F800000) :=
  ⟨rfl, rfl, rfl, rfl, rfl⟩

theorem test_decode_riaa : decode 0x20000000 [0x3F800000] = .ok (.riaaProc 0 0x3F800000) ∧
    decode 0x21000002 [] = .ok (.riaaProcb 0 2) ∧ decode 0x22000000 [] = .ok (.riaaReset 0) ∧
    decode 0x23010000 [0x472C4400] = .ok (.riaaNew 1 0x472C4400) := ⟨rfl, rfl, rfl, rfl⟩

theorem test_decode_sat : decode 0x30000000 [0x3E99999A] = .ok (.satProc 0 0x3E99999A) ∧
    decode 0x31000004 [] = .ok (.satProcb 0 4) ∧
    decode 0x33000000 [0x3FD9999A, 0xBE4CCCCD] = .ok (.satSet 0 0x3FD9999A 0xBE4CCCCD) := ⟨rfl, rfl, rfl⟩

theorem test_decode_hf : decode 0x40010000 [0x3F800000] = .ok (.hfProc 1 0x3F800000) ∧
    decode 0x41000004 [] = .ok (.hfProcb 0 4) ∧ decode 0x42000000 [] = .ok (.hfReset 0) ∧
    decode 0x43010000 [0x40200000] = .ok (.hfSet 1 0x40200000) := ⟨rfl, rfl, rfl, rfl⟩

theorem test_decode_lim : decode 0x50000000 [0x40000000] = .ok (.limProc 0 0x40000000) ∧
    decode 0x51000002 [] = .ok (.limProcb 0 2) ∧ decode 0x52000000 [] = .ok (.limReset 0) ∧
    decode 0x53000000 [0x3F666666, 0x3D4CCCCD] = .ok (.limNew 0 0x3F666666 0x3D4CCCCD) := ⟨rfl, rfl, rfl, rfl⟩

theorem test_decode_va : decode 0x60000004 [] = .ok (.vaRms 4) ∧ decode 0x61000004 [] = .ok (.vaCrest 4) ∧
    decode 0x62000004 [] = .ok (.vaTilt 4) ∧ decode 0x63000008 [] = .ok (.vaScore 8) := ⟨rfl, rfl, rfl, rfl⟩

theorem test_decode_util :
    decode 0x70000000 [0x3E800000, 0x3F400000, 0x3F000000] = .ok (.mix 0x3E800000 0x3F400000 0x3F000000) ∧
    decode 0x71000000 [0xC0C00000] = .ok (.db2lin 0xC0C00000) ∧ decode 0x72000000 [0x3F666666] = .ok (.sclipa 0x3F666666) ∧
    decode 0x74000040 [0x40C00000] = .ok (.legacyProcb 64 0x40C00000) := ⟨rfl, rfl, rfl, rfl⟩

/-- The encoder writes the words of L2.0. -/
theorem test_encode : encode (.bqProcb 1 256) = [0x11010100] ∧
    encode (.mix 0x3E800000 0x3F400000 0x3F000000) = [0x70000000, 0x3E800000, 0x3F400000, 0x3F000000] ∧
    encode (.legacyProcb 64 0x40C00000) = [0x74000040, 0x40C00000] := by decide +kernel

/-- The numbering of the opcode table: the command word lowest, operand words above it. -/
theorem test_decodeTableWord : decodeTableWord 64 0x3F00000010010000 = some (.bqProc 1 0x3F000000) ∧
    decodeTableWord 32 0x53000000 = some (.limNew 0 0 0) ∧ decodeTableWord 32 0x73000000 = none := by decide +kernel

/-- `BQ.IDENT`, `LDBLK` and `RDBLK` (R82). -/
theorem test_pseudo : pseudoBqIdent 1 = [.bqSetc 1 0x3F800000 0 0 0 0] ∧ pseudoLdblk [5, 6] = [.wrin 0 5, .wrin 1 6] ∧
    pseudoRdblk 2 = [.rdout 0, .rdout 1] := by decide +kernel

/-! ### Refusals through a step: the rows of L2.0, L2.9 and P5 -/

theorem test_refuse_decode : reason (step (sent [0x00000001])) = some .reservedFieldNonzero ∧
    reason (step (sent [0x00010000])) = some .reservedFieldNonzero ∧
    reason (step (sent [0x10020001])) = some .reservedFieldNonzero ∧
    reason (step (sent [0x60010004])) = some .reservedFieldNonzero ∧
    reason (step (sent [0x32000000])) = some (.undefinedOpcode 0x32) ∧
    reason (step (sent [0xFF000000])) = some (.undefinedOpcode 0xFF) := by decide +kernel

theorem test_refuse_range : reason (step (sent [0x11020009])) = some (.outOfRange (.channel 2)) ∧
    reason (step (sent [0x01000008])) = some (.outOfRange (.index 8)) ∧
    reason (step (sent [0x11000009])) = some (.outOfRange (.length 9)) := by decide +kernel

theorem test_refuse_operand : reason (step (sent [0x10010000, 0x7FC00000])) = some (.nonFiniteOperand 0) ∧
    reason (step (sent [0x13000000, 0x3F800000, 0, 0x7FC00000, 0, 0])) = some (.nonFiniteOperand 2) ∧
    reason (step (sent [0x14000000, 0x7F800000, 0])) = some (.nonFiniteOperand 0) := by decide +kernel

theorem test_refuse_command : reason (step (sent [0x11010008])) = some (.notConstructed .BQ 1) ∧
    reason (step (sent [0x11010000])) = some (.notConstructed .BQ 1) ∧
    reason (step (sent [0x50010000, 0x3F800000])) = some (.notConstructed .LIM 1) ∧
    reason (step (sent [0x11000006])) = some (.unwrittenElement .IN 4) ∧
    reason (step (sent [0x62000005])) = some (.unwrittenElement .IN 4) ∧
    reason (step (sent [0x02000002])) = some (.unwrittenElement .OUT 2) ∧
    reason (step (sent [0x14000000, 0x3F000000, 0x3F800000])) = some (.lowpassDomain 0x3F000000 0x3F800000) := by
  decide +kernel

/-! ### Steps -/

/-- A command and the next one's first word: the step consumes just the command (R70). -/
theorem test_step_consumes : after (step (sent [0x10000000, 0x3F000000, 0x12000000])) (·.port) =
    some [.word 0x12000000] := by decide +kernel

/-- The largest finite number, the least subnormal and `-0` are operands (L2.0). -/
theorem test_step_operands : (after (step (sent [0x10000000, 0x7F7FFFFF])) (fun _ => ())).isSome = true ∧
    (after (step (sent [0x10000000, 0x00000001])) (fun _ => ())).isSome = true ∧
    (after (step (sent [0x10000000, 0x80000000])) (fun _ => ())).isSome = true := by decide +kernel

/-- After reset, the instruction that is loaded runs (log 5). -/
theorem test_step_withFetchWord :
    after (step (State.reset.withFetchWord 64 0xBF00000001000003)) (·.mem.inBuf) = some [(3, 0xBF000000)] := by
  decide +kernel

theorem test_step_reset : after (step { demo with port := [.reset, .word 0] }) (fun t => (t.bq, t.mem, t.port)) =
    some ([(BiquadUnit.reset 0), (BiquadUnit.reset 0)], Memory.reset, [.word 0]) := by decide +kernel

/-! ### Numbers (R14): the table at the head of `95_test_vectors.md` -/

theorem test_literals : F32.lit 1 10 = 0x3DCCCCCD ∧ F32.lit 1 5 = 0x3E4CCCCD ∧ F32.lit 3 10 = 0x3E99999A ∧
    F32.lit 1 20 = 0x3D4CCCCD ∧ F32.lit 9 10 = 0x3F666666 ∧ F32.lit 1 1000 = 0x3A83126F ∧ F32.lit 3 5 = 0x3F19999A ∧
    F32.lit 4 5 = 0x3F4CCCCD ∧ F32.lit 17 10 = 0x3FD9999A ∧ F32.lit 44100 1 = 0x472C4400 ∧
    F32.lit 92101 2 = 0x4733E280 := by decide +kernel

/-! ### Results: L2.1 to L2.8 -/

/-- WRIN rewrites an element (L2.8). -/
theorem test_wrin : after (exec (.wrin 1 0x40000000) demo) (fun t => Buffer.read t.mem.inBuf 1) = some (some 0x40000000) ∧
    after (exec (.wrin 5 7) demo) (fun t => Buffer.read t.mem.outBuf 5) = some none := by decide +kernel

theorem test_rdout : results (exec (.rdout 1) demo) = some [0x40000000] := by decide +kernel

/-- L2.1, step 5: `y1 = -1/16` before; result `3/16`, `y1 = 7/32`, `y2 = 1/64`. -/
theorem test_bqProc : results (exec (.bqProc 0 0x3F000000) demo) = some [0x3E400000] ∧
    after (exec (.bqProc 0 0x3F000000) demo) (fun t => (t.bq[0]?).map (·.state)) =
      some (some ⟨0, 0, 0x3E600000, 0x3C800000⟩) := by decide +kernel

/-- P4: from `y1 = -1/16` the block `1/2` gives `3/16`, and `OUT[1]` is kept. -/
theorem test_bqProcb : after (exec (.bqProcb 0 1) demo) (·.mem.outBuf) =
    some [(0, 0x3E400000), (1, 0x40000000)] := by decide +kernel

theorem test_bqReset : after (exec (.bqReset 0) demo) (·.bq) =
    some [{ V := true, coeffs := coeffs, state := ⟨0, 0, 0, 0⟩ }, (BiquadUnit.reset 0)] := by decide +kernel

theorem test_bqSetc : after (exec (.bqSetc 1 1 2 3 4 5) demo) (fun t => t.bq[1]?) =
    some (some { V := true, coeffs := ⟨1, 2, 3, 4, 5⟩, state := ⟨0, 0, 0, 0⟩ }) := by decide +kernel

/-- L2.1: 0.1 is accepted, 0 and `q = -1` are refused. -/
theorem test_bqLowpass : after (exec (.bqLowpass 1 0x3DCCCCCD 0x3F800000) demo) (fun t => (t.bq[1]?).map (·.V)) =
      some (some true) ∧
    reason (exec (.bqLowpass 0 0 0x3F800000) demo) = some (.lowpassDomain 0 0x3F800000) ∧
    reason (exec (.bqLowpass 0 0x3DCCCCCD 0xBF800000) demo) = some (.lowpassDomain 0x3DCCCCCD 0xBF800000) := by
  decide +kernel

/-- L2.2: 46050 snaps to 44100 (the tie), 46050.5 to 48000, -1 to 44100. -/
theorem test_riaaNew : after (exec (.riaaNew 0 0x4733E200) demo) (fun t => (t.riaa[0]?).map (·.rate)) =
      some (some .hz44100) ∧
    after (exec (.riaaNew 1 0x4733E280) demo) (fun t => (t.riaa[1]?).map (fun u => (u.rate, u.coeffs))) =
      some (some (.hz48000, coeffs)) ∧
    after (exec (.riaaNew 0 0xBF800000) demo) (fun t => (t.riaa[0]?).map (·.rate)) = some (some .hz44100) := by
  decide +kernel

/-- L2.2 with the table of L2.1: `b0`, then `y1 = b1 - a1*b0 = 1/2`. -/
theorem test_riaaProc : results (exec (.riaaProc 0 0x3F800000) demo) = some [0x3F000000] ∧
    after (exec (.riaaProc 0 0x3F800000) demo) (fun t => (t.riaa[0]?).map (·.state)) =
      some (some ⟨0, 0, 0x3F000000, 0⟩) := by decide +kernel

/-- The state after one sample `1/2` of that table is half of it. -/
theorem test_riaaProcb : after (exec (.riaaProcb 0 1) demo) (fun t => (Buffer.read t.mem.outBuf 0, t.riaa[0]?.map (·.state))) =
    some (some 0x3E800000, some ⟨0, 0, 0x3E800000, 0⟩) := by decide +kernel

theorem test_riaaReset : after (exec (.riaaReset 0) demo) (fun t => (t.riaa[0]?).map (fun u => (u.V, u.rate, u.state))) =
    some (some (true, .hz48000, ⟨0, 0, 0, 0⟩)) := by decide +kernel

/-- L2.3: `SAT.SET 0, 1.7, -0.2` stores `(1, 0)`. -/
theorem test_satSet : after (exec (.satSet 1 0x3FD9999A 0xBE4CCCCD) demo) (fun t => t.sat[1]?) =
    some (some { V := true, saturation := 0x3F800000, hardness := 0 }) := by decide +kernel

/-- E5: 0.3 and -0.3 at `(0.5, 0.5)`. -/
theorem test_satProc : results (exec (.satProc 0 0x3E99999A) demo) = some [0x3EB3A83C] ∧
    results (exec (.satProc 0 0xBE99999A) demo) = some [0xBEB3A83C] := by decide +kernel

/-- L2.3: sample 1 at `(1/2, 1/2)` is capped: `3/8`; `IN[3] = 1`. The binary32 cap is `1.05 / 2.8`. -/
theorem test_satProcb : after (exec (.satProcb 0 4) demo) (fun t => Buffer.read t.mem.outBuf 3) =
    some (some 0x3EC00000) := by decide +kernel

/-- L2.4: `HF.SET 1, 2.5` stores 1. -/
theorem test_hfSet : after (exec (.hfSet 1 0x40200000) demo) (fun t => t.hf[1]?) =
    some (some { V := true, intensity := 0x3F800000, state := 0 }) := by decide +kernel

/-- L2.4: intensity 1/2, state 0, input 1: result 5/4, state 1. -/
theorem test_hfProc : results (exec (.hfProc 0 0x3F800000) demo) = some [0x3FA00000] ∧
    after (exec (.hfProc 0 0x3F800000) demo) (fun t => (t.hf[0]?).map (·.state)) = some (some 0x3F800000) := by
  decide +kernel

/-- `1/2, 1/2, 1/2, 1` at intensity 1/2: `5/8, 1/2, 1/2, 9/8` (R142 by hand), the state ends 1. -/
theorem test_hfProcb : after (exec (.hfProcb 0 4) demo) (·.mem.outBuf) =
      some [(0, 0x3F200000), (1, 0x3F000000), (2, 0x3F000000), (3, 0x3F900000)] ∧
    after (exec (.hfProcb 0 4) demo) (fun t => (t.hf[0]?).map (·.state)) = some (some 0x3F800000) := by decide +kernel

theorem test_hfReset : after (exec (.hfReset 0) { demo with hf := [⟨true, 0x3F000000, 0x3F400000⟩] }) (·.hf) =
    some [⟨true, 0x3F000000, 0⟩] := by decide +kernel

/-- L2.5: `LIM.NEW 0, 1.5, 0` stores `(1, 0.001)`; `LIM.NEW 0, -0.5, -3` stores `(0, 0.001)`. -/
theorem test_limNew : after (exec (.limNew 0 0x3FC00000 0) demo) (fun t => t.lim[0]?) =
      some (some ⟨true, 0x3F800000, 0x3A83126F, 0⟩) ∧
    after (exec (.limNew 0 0xBF000000 0xC0400000) demo) (fun t => t.lim[0]?) =
      some (some ⟨true, 0, 0x3A83126F, 0⟩) := by decide +kernel

/-- L2.5, steps 2 and 4: 2 leaves as 1/2 with envelope 2; -1 leaves as -1/2. -/
theorem test_limProc : results (exec (.limProc 0 0x40000000) demo) = some [0x3F000000] ∧
    after (exec (.limProc 0 0x40000000) demo) (fun t => (t.lim[0]?).map (·.envelope)) = some (some 0x40000000) ∧
    results (exec (.limProc 0 0xBF800000) demo) = some [0xBF000000] := by decide +kernel

/-- R153's example: `2, -1` gives `1/2, -1/2`, envelope 1. -/
theorem test_limProcb :
    after (exec (.limProcb 0 2) { demo with mem := { inBuf := [(0, 0x40000000), (1, 0xBF800000)], outBuf := [] } })
      (fun t => (t.mem.outBuf, (t.lim[0]?).map (·.envelope))) =
    some ([(0, 0x3F000000), (1, 0xBF000000)], some 0x3F800000) := by decide +kernel

theorem test_limReset : after (exec (.limReset 0) { demo with lim := [⟨true, 0x3F000000, 0x3F800000, 0x40000000⟩] })
    (·.lim) = some [⟨true, 0x3F000000, 0x3F800000, 0⟩] := by decide +kernel

/-- E8: the block `1/2, 1/2, 1/2, 1` in binary32. -/
theorem test_va : results (exec (.vaRms 4) demo) = some [0x3F2953FD] ∧
    results (exec (.vaCrest 4) demo) = some [0x3FC18490] ∧ results (exec (.vaTilt 4) demo) = some [0x3E4CCCCD] := by
  decide +kernel

/-- L2.6: empty and short blocks. -/
theorem test_va_empty : results (exec (.vaRms 0) demo) = some [0] ∧ results (exec (.vaCrest 0) demo) = some [0] ∧
    results (exec (.vaTilt 3) demo) = some [0x3F000000] := by decide +kernel

/-- L2.6: the weighted score of that block is 0.555355736761 in the reals; R169 rounded by hand operation by operation
gives 0.5553557873. -/
theorem test_vaScore : (after (exec (.vaScore 4) demo) (·.resp.length)) = some 1 ∧
    score binary32 [0x3F000000, 0x3F000000, 0x3F000000, 0x3F800000] = 0x3F0E2BCC := by decide +kernel

/-- L2.7: `MIX 0.25, 0.75, 0.5` and `MIX 1, 3, 2 -> 5`. -/
theorem test_mix : results (exec (.mix 0x3E800000 0x3F400000 0x3F000000) demo) = some [0x3F000000] ∧
    results (exec (.mix 0x3F800000 0x40400000 0x40000000) demo) = some [0x40A00000] := by decide +kernel

/-- `pow10` has no binary32 value (R14); one word is produced. -/
theorem test_db2lin : after (exec (.db2lin 0x41A00000) demo) (·.resp.length) = some 1 := by decide +kernel

/-- L2.7: 1/2, 1 and 3/2. -/
theorem test_sclipa : results (exec (.sclipa 0x3F000000) demo) = some [0x3EEAAAAB] ∧
    results (exec (.sclipa 0x3F800000) demo) = some [0x3F2AAAAA] ∧
    results (exec (.sclipa 0x3FC00000) demo) = some [0x3F2AAAAB] := by decide +kernel

/-- L2.7: accepted without any unit; it writes `OUT[0..n-1]`, and nothing for `n = 0`. -/
theorem test_legacyProcb : after (exec (.legacyProcb 3 0) demo) (·.mem.outBuf.length) = some 3 ∧
    after (exec (.legacyProcb 0 0x40C00000) demo) (·.mem) = some demo.mem := by decide +kernel

/-! ### Witnesses: states and operands that meet the hypotheses of each obligation -/

theorem sent_structured (ws : List Word) : Structured (sent ws) where
  bqLength := rfl
  riaaLength := rfl
  satLength := rfl
  hfLength := rfl
  limLength := rfl
  memory := by show Memory.wf demo.mem; decide
  inWithin := by show Buffer.within demo.mem.inBuf 8; decide
  outWithin := by show Buffer.within demo.mem.outBuf 8; decide
  bqHistory := by
    show ∀ u ∈ demo.bq, u.state.x1 = 0 ∧ u.state.x2 = 0 ∧ (u.V = false → u.state.y1 = 0 ∧ u.state.y2 = 0)
    decide
  riaaHistory := by
    show ∀ u ∈ demo.riaa, u.state.x1 = 0 ∧ u.state.x2 = 0 ∧ (u.V = false → u.state.y1 = 0 ∧ u.state.y2 = 0)
    decide
  riaaRow := by show ∀ u ∈ demo.riaa, u.V = true → u.coeffs = demo.cfg.riaaTable.row u.rate; decide
  hfHistory := by show ∀ u ∈ demo.hf, u.V = false → u.state = 0; decide
  limEnvelope := by show ∀ u ∈ demo.lim, u.V = false → u.envelope = 0; decide

/-- The samples of `IN[0..3]`. -/
def block : List Word := [0x3F000000, 0x3F000000, 0x3F000000, 0x3F800000]

theorem demo_inBlock : InBlock demo 4 block := ⟨rfl, by decide⟩

theorem demo_inBlock_empty : InBlock demo 0 [] := ⟨rfl, by decide⟩

theorem in01_half : F32.In01 0x3F000000 := by unfold F32.In01; decide +kernel

theorem in01_ends : F32.In01 0 ∧ F32.In01 0x3F800000 := by unfold F32.In01; decide +kernel

theorem zero_isZero : F32.IsZero 0 ∧ F32.IsZero 0x80000000 := by unfold F32.IsZero; decide +kernel

/-- A limiter with its release time at the floor and its envelope at 1. -/
def floorLimiter : LimUnit Word := ⟨true, 0x3F000000, 0x3A83126F, 0x3F800000⟩

theorem sent_inRange (ws : List Word) : InRange (sent ws) where
  satRange := by
    show ∀ u ∈ demo.sat, u.V = true → F32.In01 u.saturation ∧ F32.In01 u.hardness
    unfold F32.In01; decide +kernel
  hfRange := by show ∀ u ∈ demo.hf, u.V = true → F32.In01 u.intensity; unfold F32.In01; decide +kernel
  limThreshold := by show ∀ u ∈ demo.lim, u.V = true → F32.In01 u.threshold; unfold F32.In01; decide +kernel
  limRelease := by
    show ∀ u ∈ demo.lim, u.V = true →
      F32.isFinite u.releaseTime = true ∧ F32.units (F32.lit 1 1000) ≤ F32.units u.releaseTime
    decide +kernel
  limEnvelope := by
    show ∀ u ∈ demo.lim, F32.isFinite u.envelope = true ∧ 0 ≤ F32.units u.envelope
    decide +kernel
  inFinite := by show ∀ c ∈ demo.mem.inBuf, F32.isFinite c.2 = true; decide +kernel

theorem witness_EncodeOfDecode : decode 0x14010000 [1, 2, 3] = .ok (.bqLowpass 1 1 2) ∧
    (operandsOf (.bqLowpass 1 1 2)).length ≤ [1, 2, 3].length := ⟨rfl, by decide⟩

theorem witness_MaskMatchSelectsRow : ∃ row ∈ opcodeTable, (0x11010100 : Word) &&& row.format.mask = row.matchWord :=
  ⟨_, List.mem_append_left _ (List.mem_append_left _ (List.mem_append_left _ (List.mem_append_left _
    (List.mem_append_left _ (List.mem_append_left _ (List.mem_append_right _ (List.mem_cons_of_mem _
      (List.mem_cons_self)))))))), by decide⟩

theorem witness_StepRunsCommand : (sent [0x10000000, 0x3F000000, 0x12000000]).port =
      (encode (.bqProc 0 0x3F000000)).map HostEvent.word ++ [.word 0x12000000] ∧
    Instr.wf config (.bqProc 0 0x3F000000) = true := by decide +kernel

theorem witness_PortWaits : demo.port = [] ∧ Instr.wf config (.bqSetc 1 1 2 3 4 5) = true ∧
    4 < (operandsOf (.bqSetc 1 1 2 3 4 5)).length ∧
    ({ demo with port := [.word 0x13010000, .word 1, .word 2, .word 3, .word 4] } : State).port =
      .word (encodeHead (.bqSetc 1 1 2 3 4 5)) :: ((operandsOf (.bqSetc 1 1 2 3 4 5)).take 4).map HostEvent.word ∧
    ({ demo with port := [.word 0x13010000, .reset] } : State).port =
      .word (encodeHead (.bqSetc 1 1 2 3 4 5)) :: ((operandsOf (.bqSetc 1 1 2 3 4 5)).take 0).map HostEvent.word ++
        .reset :: [] := by decide +kernel

theorem witness_UndefinedOpcodeRefused : (sent [0x32000000]).port = .word 0x32000000 :: [] ∧
    opField 0x32000000 = 0x32 ∧ opField 0x73000000 = 0x73 ∧ opField 0x75FFFFFF = 0x75 ∧
    0x80 ≤ opField 0x80000000 := by decide +kernel

theorem witness_ReservedFieldRefused : (sent [0x10000001]).port = .word 0x10000001 :: [] ∧
    immField 0x10000001 ≠ 0 ∧ chField 0x60010000 ≠ 0 ∧ chField 0x70010000 ≠ 0 ∧ immField 0x70000001 ≠ 0 := by
  decide +kernel

/-- The boundaries: channel 2 of 2, index 8 of 8, length 9 of at most 8; and 1, 7, 8 in range. -/
theorem witness_OutOfRangeRefused :
    (decode 0x11020000 [] = .ok (.bqProcb 2 0) ∧ config.nch ≤ (2 : BitVec 8).toNat) ∧
    (decode 0x02000008 [] = .ok (.rdout 8) ∧ config.blockMax ≤ (8 : BitVec 16).toNat) ∧
    (decode 0x11010009 [] = .ok (.bqProcb 1 9) ∧ config.blockMax < (9 : BitVec 16).toNat ∧
      Instr.channelOk config (.bqProcb 1 9) = true) ∧
    (decode 0x11010008 [] = .ok (.bqProcb 1 8) ∧ Instr.channelOk config (.bqProcb 1 8) = true ∧
      Instr.indexOk config (.bqProcb 1 8) = true ∧ Instr.lengthOk config (.bqProcb 1 8) = true) ∧
    Instr.indexOk config (.rdout 7) = true :=
  ⟨⟨rfl, by decide⟩, ⟨rfl, by decide⟩, ⟨rfl, by decide⟩, ⟨rfl, by decide⟩, by decide⟩

/-- A NaN after a number; an infinity first; and the largest number. -/
theorem witness_NonFiniteRefused :
    decode 0x33000000 [0x7F7FFFFF, 0x7FC00000] = .ok (.satSet 0 0x7F7FFFFF 0x7FC00000) ∧
    (0x7FC00000 : Word).extractLsb' 23 8 = 0xFF ∧ (0xFF800000 : Word).extractLsb' 23 8 = 0xFF ∧
    (0x7F7FFFFF : Word).extractLsb' 23 8 ≠ 0xFF ∧
    leadingWords [.word 0x7F7FFFFF, .word 0x7FC00000] = [0x7F7FFFFF, 0x7FC00000] ∧
    Instr.channelOk config (.satSet 0 0x7F7FFFFF 0x7FC00000) = true :=
  ⟨rfl, by decide, by decide, by decide, rfl, by decide⟩

theorem witness_NotConstructedRefused : needsConstructed (.limProcb 1 8) = some (.LIM, 1) ∧
    validBit .LIM 1 demo = some false ∧ lengthOf (.limProcb 1 8) = some 8 ∧ (8 : BitVec 16).toNat ≤ demo.cfg.blockMax ∧
    reason (exec (.hfReset 1) demo) = some (.notConstructed .HF 1) := by decide +kernel

theorem witness_UnwrittenRefused : lengthOf (.bqProcb 0 6) = some 6 ∧ validBit .BQ 0 demo = some true ∧
    Buffer.read demo.mem.inBuf 4 = none ∧ (∀ j' < 4, Buffer.read demo.mem.inBuf j' ≠ none) ∧
    Buffer.read demo.mem.outBuf 2 = none ∧
    reason (exec (.vaScore 8) demo) = some (.unwrittenElement .IN 4) ∧
    reason (exec (.rdout 7) demo) = some (.unwrittenElement .OUT 7) := by decide +kernel

/-- A refused command with a reset queued behind it; and a reset inside a command. -/
theorem witness_SevenReasons : reason (step { demo with
      port := [.word 0x14000000, .word 0, .word 0x3F800000, .reset] }) = some (.lowpassDomain 0 0x3F800000) ∧
    reason (step { demo with port := [.word 0x14000000, .word 0, .reset] }) = some .commandSplitByReset := by
  decide +kernel

/-- One refused step for each reason whose place in the order is claimed. -/
theorem witness_RefusalOrder : reason (step (sent [0x10020001])) = some .reservedFieldNonzero ∧
    reason (step (sent [0x11020009])) = some (.outOfRange (.channel 2)) ∧
    reason (step (sent [0x11010009])) = some (.outOfRange (.length 9)) ∧
    reason (step (sent [0x33010000, 0, 0x7FC00000])) = some (.nonFiniteOperand 1) ∧
    reason (step (sent [0x11010008])) = some (.notConstructed .BQ 1) ∧
    reason (step (sent [0x11000006])) = some (.unwrittenElement .IN 4) ∧
    reason (step (sent [0x14000000, 0x3F000000, 0])) = some (.lowpassDomain 0x3F000000 0) ∧
    Structured (sent [0x10020001]) :=
  ⟨by decide +kernel, by decide +kernel, by decide +kernel, by decide +kernel, by decide +kernel, by decide +kernel,
    by decide +kernel, sent_structured _⟩

theorem witness_WellFormedCompletes : Structured (sent []) ∧ Instr.wf (sent []).cfg (.limProcb 0 4) = true ∧
    needsConstructed (.limProcb 0 4) = some (.LIM, 0) ∧ validBit .LIM 0 (sent []) = some true ∧
    lengthOf (.limProcb 0 4) = some 4 ∧ (∀ j < 4, Buffer.read (sent []).mem.inBuf j ≠ none) ∧
    Buffer.read (sent []).mem.outBuf (1 : BitVec 16).toNat ≠ none ∧
    F32.lt 0 0x3DCCCCCD = true ∧ F32.lt 0x3DCCCCCD 0x3F000000 = true ∧ F32.lt 0 0x00000001 = true :=
  ⟨sent_structured _, by decide +kernel, rfl, rfl, rfl, by decide, by decide, by decide +kernel, by decide +kernel,
    by decide +kernel⟩

theorem witness_ResetContents : needsConstructed (.satProcb 1 8) = some (.SAT, 1) ∧ (1 : BitVec 8).toNat < config.nch ∧
    lengthOf (.satProcb 1 8) = some 8 ∧ (8 : BitVec 16).toNat ≤ config.blockMax := by decide

theorem witness_ResetEvent : ({ demo with port := [.reset, .word 0] } : State).port = .reset :: [.word 0] ∧
    (after (step (sent [0x01000007, 0])) (·.port)) = some [] ∧ (sent [0x01000007, 0]).port.head? ≠ some .reset ∧
    validBit .BQ 0 (sent [0x01000007, 0]) = some true ∧ Buffer.read demo.mem.inBuf 3 ≠ none ∧
    Buffer.read demo.mem.outBuf 1 ≠ none := by decide +kernel

/-- The last index is written, the next one is refused; a written, an unwritten and an absent element of `OUT`. -/
theorem witness_SystemCommands : (7 : BitVec 16).toNat < demo.cfg.blockMax ∧ demo.cfg.blockMax ≤ (8 : BitVec 16).toNat ∧
    Buffer.read demo.mem.outBuf (1 : BitVec 16).toNat = some 0x40000000 ∧
    Buffer.read demo.mem.outBuf (7 : BitVec 16).toNat = none := by decide

theorem witness_BqSetcConstructs : (1 : BitVec 8).toNat < demo.bq.length := by decide

/-- Inside the domain; and the three ways out of it, at the boundaries. -/
theorem witness_BqLowpassConstructs : (1 : BitVec 8).toNat < demo.bq.length ∧
    (F32.lt 0 0x3DCCCCCD = true ∧ F32.lt 0x3DCCCCCD 0x3F000000 = true ∧ F32.lt 0 0x3F800000 = true) ∧
    F32.lt 0 0 = false ∧ F32.lt 0x3F000000 0x3F000000 = false ∧ F32.lt 0 0x80000000 = false := by decide +kernel

theorem witness_BqProcStep : (∃ u, demo.bq[(0 : BitVec 8).toNat]? = some u ∧ u.V = true) ∧
    ∃ u, demo.bq[(1 : BitVec 8).toNat]? = some u ∧ u.V = false := ⟨⟨_, rfl, rfl⟩, ⟨_, rfl, rfl⟩⟩

theorem witness_RiaaNewConstructs : (1 : BitVec 8).toNat < demo.riaa.length := by decide

theorem witness_RiaaProcStep : (∃ u, demo.riaa[(0 : BitVec 8).toNat]? = some u ∧ u.V = true) ∧
    ∃ u, demo.riaa[(1 : BitVec 8).toNat]? = some u ∧ u.V = false := ⟨⟨_, rfl, rfl⟩, ⟨_, rfl, rfl⟩⟩

theorem witness_SettersClamp : (1 : BitVec 8).toNat < demo.sat.length ∧ (1 : BitVec 8).toNat < demo.lim.length ∧
    ∃ u, demo.hf[(1 : BitVec 8).toNat]? = some u := ⟨by decide, by decide, _, rfl⟩

/-- Both instances; and, over the reals, a sample below, at and above the linear threshold. -/
theorem witness_SatProcShapes : (∃ u, demo.sat[(0 : BitVec 8).toNat]? = some u ∧ u.V = true) ∧
    (∃ u, demo.sat[(1 : BitVec 8).toNat]? = some u ∧ u.V = false) ∧
    |(0.4 : ℝ) * (1 + 0 * 5)| < 0.5 ∧ (0.5 ≤ |(0.5 : ℝ) * (1 + 0 * 5)| ∧ 0 ≤ (0.5 : ℝ) * (1 + 0 * 5)) ∧
    (0.5 ≤ |(-0.5 : ℝ) * (1 + 0 * 5)| ∧ (-0.5 : ℝ) * (1 + 0 * 5) < 0) :=
  ⟨⟨_, rfl, rfl⟩, ⟨_, rfl, rfl⟩, by norm_num [abs_lt], ⟨by norm_num [le_abs], by norm_num⟩,
    ⟨by norm_num [le_abs], by norm_num⟩⟩

theorem witness_HfProcStep : (∃ u, demo.hf[(0 : BitVec 8).toNat]? = some u ∧ u.V = true) ∧
    ∃ u, demo.hf[(1 : BitVec 8).toNat]? = some u ∧ u.V = false := ⟨⟨_, rfl, rfl⟩, ⟨_, rfl, rfl⟩⟩

/-- Both instances; and, over the reals, an attack, a release at the threshold itself, and both outputs. -/
theorem witness_LimProcStep : (∃ u, demo.lim[(0 : BitVec 8).toNat]? = some u ∧ u.V = true) ∧
    (∃ u, demo.lim[(1 : BitVec 8).toNat]? = some u ∧ u.V = false) ∧
    (0.5 : ℝ) < |(2 : ℝ)| ∧ |(0.5 : ℝ)| ≤ 0.5 ∧ (0 : ℝ) < 2 ∧ (0 : ℝ) ≤ 0 :=
  ⟨⟨_, rfl, rfl⟩, ⟨_, rfl, rfl⟩, by norm_num, by norm_num [abs_le], by norm_num, le_refl _⟩

theorem witness_UnitResets : (∃ u, demo.bq[(0 : BitVec 8).toNat]? = some u ∧ u.V = true) ∧
    (∃ u, demo.riaa[(0 : BitVec 8).toNat]? = some u ∧ u.V = true) ∧
    (∃ u, demo.hf[(0 : BitVec 8).toNat]? = some u ∧ u.V = true) ∧
    (∃ u, demo.lim[(0 : BitVec 8).toNat]? = some u ∧ u.V = true) ∧
    (∃ u, demo.bq[(1 : BitVec 8).toNat]? = some u ∧ u.V = false) ∧
    (∃ u, demo.riaa[(1 : BitVec 8).toNat]? = some u ∧ u.V = false) ∧
    (∃ u, demo.hf[(1 : BitVec 8).toNat]? = some u ∧ u.V = false) ∧
    ∃ u, demo.lim[(1 : BitVec 8).toNat]? = some u ∧ u.V = false :=
  ⟨⟨_, rfl, rfl⟩, ⟨_, rfl, rfl⟩, ⟨_, rfl, rfl⟩, ⟨_, rfl, rfl⟩, ⟨_, rfl, rfl⟩, ⟨_, rfl, rfl⟩, ⟨_, rfl, rfl⟩, ⟨_, rfl, rfl⟩⟩

/-- A whole written block and the empty one for every kind; an unconstructed instance; an unwritten element. -/
theorem witness_BlockIsSingles : (4 : BitVec 16).toNat ≤ demo.cfg.blockMax ∧ InBlock demo 4 block ∧ InBlock demo 0 [] ∧
    (validBit .BQ 0 demo = some true ∧ validBit .RIAA 0 demo = some true ∧ validBit .SAT 0 demo = some true ∧
      validBit .HF 0 demo = some true ∧ validBit .LIM 0 demo = some true) ∧
    validBit .SAT 1 demo = some false ∧ Buffer.read demo.mem.inBuf 4 = none ∧
    ∀ j' < 4, Buffer.read demo.mem.inBuf j' ≠ none :=
  ⟨by decide, demo_inBlock, demo_inBlock_empty, by decide, by decide, by decide, by decide⟩

theorem witness_AnalyzerResults : (4 : BitVec 16).toNat ≤ demo.cfg.blockMax ∧ InBlock demo 4 block ∧ InBlock demo 0 [] :=
  ⟨by decide, demo_inBlock, demo_inBlock_empty⟩

theorem witness_LegacyBlock : (8 : BitVec 16).toNat ≤ demo.cfg.blockMax ∧ InBlock demo 4 block ∧
    4 < (8 : BitVec 16).toNat ∧ Buffer.read demo.mem.inBuf 4 = none ∧ ∀ j' < 4, Buffer.read demo.mem.inBuf j' ≠ none :=
  ⟨by decide, demo_inBlock, by decide, by decide, by decide⟩

/-- A completed command of every kind that the frames distinguish. -/
theorem witness_frames : (∃ t, exec (.bqProc 0 0x3F800000) demo = .next t) ∧ (∃ t, exec (.wrin 7 0) demo = .next t) ∧
    (∃ t, exec (.rdout 1) demo = .next t) ∧ (∃ t, exec (.limNew 1 0 0) demo = .next t) ∧
    (∃ t, exec (.hfProcb 0 4) demo = .next t) ∧ (∃ t, exec (.legacyProcb 4 0) demo = .next t) ∧
    ∃ t, exec (.sclipa 0) demo = .next t :=
  ⟨next_of_after (by decide +kernel), next_of_after (by decide +kernel), next_of_after (by decide +kernel),
    next_of_after (by decide +kernel), next_of_after (by decide +kernel), next_of_after (by decide +kernel),
    next_of_after (by decide +kernel)⟩

/-- A state that differs from `demo` everywhere but in `BQ[0]`, the buffers and the configuration; a completed and a
refused command. -/
theorem witness_NothingElseIsRead :
    let other : State := { demo with bq := demo.bq.take 1, riaa := [], sat := [], hf := [], lim := [], port := [.reset], resp := [1] }
    demo.cfg = other.cfg ∧ demo.mem = other.mem ∧ SameUnit .BQ 0 demo other ∧ addressed (.bqProc 0 0) = some (.BQ, 0) ∧
    (∃ t, exec (.bqProc 0 0) demo = .next t) ∧ exec (.bqProcb 0 6) demo = .refused (.unwrittenElement .IN 4) :=
  ⟨rfl, rfl, rfl, rfl, next_of_after (by decide +kernel), refused_of_reason (by decide +kernel)⟩

theorem witness_ValidBits : configures (.satSet 1 0 0) = some (.SAT, 1) ∧
    (∃ t, exec (.satSet 1 0 0) demo = .next t) ∧ configures (.bqProcb 0 4) = none ∧ ∃ t, exec (.bqProcb 0 4) demo = .next t :=
  ⟨rfl, next_of_after (by decide +kernel), rfl, next_of_after (by decide +kernel)⟩

/-- A state with both invariants, from which an attack step of the limiter completes. -/
theorem witness_invariants : Structured (sent [0x50000000, 0x40000000]) ∧ InRange (sent [0x50000000, 0x40000000]) ∧
    ∃ t, step (sent [0x50000000, 0x40000000]) = .next t :=
  ⟨sent_structured _, sent_inRange _, next_of_after (by decide +kernel)⟩

/-- A limiter at the release floor, its envelope at 1, about to release. -/
def releasing : State := { sent [0x50000000, 0x3E800000] with lim := [floorLimiter, LimUnit.reset 0] }

theorem witness_RangesKept : InRange releasing ∧
    (∀ u ∈ releasing.lim, u.V = true → F32.In01 (F32.exp (F32.div 0xBF800000 u.releaseTime))) ∧
    ∃ t, step releasing = .next t := by
  refine ⟨{ (sent_inRange []).toInParameterRange with limThreshold := ?_, limRelease := ?_, limEnvelope := ?_ }, ?_,
    next_of_after (by decide +kernel)⟩
  · unfold F32.In01; decide +kernel
  · decide +kernel
  · decide +kernel
  · unfold F32.In01; decide +kernel

/-- A completed command that configures another instance, of another kind, and one that configures none. -/
theorem witness_CoefficientsOnlyByConstruction :
    (∃ t, exec (.satSet 1 0 0) demo = .next t) ∧ configures (.satSet 1 0 0) = some (.SAT, 1) ∧
    (∃ t, exec (.bqProcb 0 4) demo = .next t) ∧ configures (.bqProcb 0 4) = none :=
  ⟨next_of_after (by decide +kernel), rfl, next_of_after (by decide +kernel), rfl⟩

theorem value_one : (F32.value 0x3F800000 : ℝ) = 1 := by
  have h : F32.units 0x3F800000 = 2 ^ 149 := by decide +kernel
  norm_num [F32.value, h]

theorem value_largest : F32.units 0x7F7FFFFF = (2 ^ 24 - 1) * 2 ^ 253 := by decide +kernel

/-- 1 with 1, and 1 under the root; the premises hold up to the largest numbers, and not for their sum. -/
theorem witness_CorrectlyRounded : F32.isFinite 0x3F800000 = true ∧
    |(F32.value 0x3F800000 : ℝ) + F32.value 0x3F800000| < 2 ^ 128 - 2 ^ 103 ∧
    |(F32.value 0x3F800000 : ℝ) - F32.value 0x3F800000| < 2 ^ 128 - 2 ^ 103 ∧
    |(F32.value 0x3F800000 : ℝ) * F32.value 0x3F800000| < 2 ^ 128 - 2 ^ 103 ∧
    (F32.value 0x3F800000 : ℝ) ≠ 0 ∧ |(F32.value 0x3F800000 : ℝ) / F32.value 0x3F800000| < 2 ^ 128 - 2 ^ 103 ∧
    (0 : ℝ) ≤ F32.value 0x3F800000 ∧ ((2 : ℕ) : ℝ) / (3 : ℕ) < 2 ^ 128 - 2 ^ 103 ∧
    (F32.isFinite 0x7F7FFFFF = true ∧ |(F32.value 0x7F7FFFFF : ℝ) + F32.value 0| < 2 ^ 128 - 2 ^ 103) := by
  have h0 : F32.units 0 = 0 := by decide +kernel
  rw [value_one]
  refine ⟨by decide, by norm_num [abs_lt], by norm_num, by norm_num, by norm_num, by norm_num, by norm_num, by norm_num,
    by decide, ?_⟩
  rw [F32.value, F32.value, value_largest, h0]
  norm_num [abs_lt]

theorem witness_IdentityFilter : (1 : BitVec 8).toNat < demo.bq.length ∧
    ∀ x ∈ ([0x7F7FFFFF, 0x80000000, 0x3F400000] : List Word), F32.isFinite x = true := by
  simp only [List.forall_mem_cons, List.not_mem_nil, false_imp_iff, implies_true, and_true]
  decide +kernel

/-- A point inside the domain of BQ.LOWPASS. -/
theorem witness_LowpassStable : (0 : ℝ) < 0.499 ∧ (0.499 : ℝ) < 0.5 ∧ (0 : ℝ) < 0.001 := by norm_num

/-- 46050 and the rate above it, and both sides of the upper bound, which is 2^35. -/
theorem witness_SnapNearest : F32.value 0x4733E200 ≤ 46050 ∧ 46050 < F32.value 0x4733E280 ∧
    F32.value 0x4733E280 ≤ 2 ^ 35 ∧ 46050 < F32.value 0x51000000 ∧ F32.value 0x51000000 ≤ 2 ^ 35 := by
  have h1 : F32.units 0x4733E200 = 46050 * 2 ^ 149 := by decide +kernel
  have h2 : F32.units 0x4733E280 * 2 = 92101 * 2 ^ 149 := by decide +kernel
  have h3 : F32.units 0x51000000 = 2 ^ 35 * 2 ^ 149 := by decide +kernel
  have h2' : (F32.units 0x4733E280 : ℚ) * 2 = 92101 * 2 ^ 149 := by exact_mod_cast h2
  have h2'' : F32.value 0x4733E280 = 92101 / 2 := by
    rw [F32.value, div_eq_div_iff (by positivity) (by norm_num)]; linarith
  refine ⟨?_, by rw [h2'']; norm_num, by rw [h2'']; norm_num, ?_, ?_⟩
  · norm_num [F32.value, h1]
  · norm_num [F32.value, h3]
  · norm_num [F32.value, h3]

theorem witness_ShaperOdd : F32.In01 0x3F000000 ∧ F32.In01 0 ∧ F32.mag 0xFE000000 ≤ 0x7E000000 :=
  ⟨in01_half, in01_ends.1, by decide⟩

theorem witness_ShaperBounded : (0 : ℝ) ≤ 1 ∧ (1 : ℝ) ≤ 1 ∧ (0 : ℝ) ≤ 0 := by norm_num

theorem witness_HfLaws : InBlock demo 4 ([0x3F000000, 0x3F000000, 0x3F000000] ++ [0x3F800000]) ∧
    ∃ t, exec (.hfProcb 0 4) demo = .next t := ⟨demo_inBlock, next_of_after (by decide +kernel)⟩

theorem witness_LimiterAttackRelease : (0 : ℝ) ≤ 0.5 ∧ (∀ x ∈ ([2, -1] : List ℝ), (0.5 : ℝ) < |x|) ∧
    ∀ x ∈ ([0.5, 0] : List ℝ), |x| ≤ (0.5 : ℝ) := by norm_num [abs_le]

theorem witness_LimiterExpands : (0 : ℝ) < 0.9 ∧ (0.001 : ℝ) ≤ 0.05 ∧ (0 : ℝ) < 2 ∧ (0.5 : ℝ) ≠ 0 ∧ |(0.5 : ℝ)| ≤ 0.9 := by
  norm_num [abs_le]

/-- 3/4 of the least subnormal rounds to that subnormal (R14), and underflows to 0 in the other number system (R239). -/
theorem test_limRelease_stuck : limRelease binary32 false 0x00000001 0x3F400000 = 0x00000001 ∧
    limRelease binary32 true 0x00000001 0x3F400000 = 0 := by decide +kernel

/-- Elsewhere both are the product: an envelope that decays, half of the least subnormal (R14's tie to even), the factor 1. -/
theorem test_limRelease : ∀ b, limRelease binary32 b 0x00000003 0x3F000000 = 0x00000002 ∧
    limRelease binary32 b 0x3F800000 0x3F7FFFFF = 0x3F7FFFFF ∧ limRelease binary32 b 0x00000001 0x3F000000 = 0 ∧
    limRelease binary32 b 0x00000001 0x3F800000 = 0x00000001 := by decide +kernel

/-- A zero envelope; an envelope of 1 under a factor in [0, 1/2]; and the underflow of R239 set. -/
theorem witness_LimiterPasses :
    ({ demo with lim := [{ floorLimiter with envelope := 0 }] } : State).lim[(0 : BitVec 8).toNat]? =
      some { floorLimiter with envelope := 0 } ∧
    floorLimiter.V = true ∧ F32.IsZero 0 ∧ F32.In01 floorLimiter.threshold ∧
    F32.isFinite (F32.exp (F32.div 0xBF800000 floorLimiter.releaseTime)) = true ∧ F32.isFinite 0xBF000000 = true ∧
    F32.le (F32.abs 0xBF000000) floorLimiter.threshold = true ∧
    F32.isFinite floorLimiter.envelope = true ∧ 0 < F32.units floorLimiter.envelope ∧
    F32.In01 (F32.exp (F32.div 0xBF800000 floorLimiter.releaseTime)) ∧
    F32.lt (F32.exp (F32.div 0xBF800000 floorLimiter.releaseTime)) 0x3F800000 = true ∧
    F32.le (F32.exp (F32.div 0xBF800000 floorLimiter.releaseTime)) 0x3F000000 = true ∧
    ({ demo with cfg := { config with releaseUnderflow := true } } : State).cfg.releaseUnderflow = true :=
  ⟨rfl, rfl, zero_isZero.1, in01_half, by decide +kernel, by decide, by decide +kernel, by decide, by decide +kernel,
    by unfold F32.In01; decide +kernel, by decide +kernel, by decide +kernel, rfl⟩

theorem witness_LimiterFloorRelease :
    ({ demo with lim := [floorLimiter] } : State).lim[(0 : BitVec 8).toNat]? = some floorLimiter ∧
    floorLimiter.V = true ∧ F32.isFinite floorLimiter.envelope = true ∧ F32.In01 floorLimiter.threshold ∧
    floorLimiter.releaseTime = 0x3A83126F ∧ F32.isFinite 0xBF000000 = true ∧
    F32.le (F32.abs 0xBF000000) floorLimiter.threshold = true :=
  ⟨rfl, rfl, by decide, in01_half, rfl, by decide, by decide +kernel⟩

/-- With `release_time` 0.001 the release factor is 0 (R239); so is `exp(-1000)` itself. -/
theorem test_exp_floor : F32.exp (F32.div (F32.neg 0x3F800000) 0x3A83126F) = 0 ∧ F32.exp 0xC47A0000 = 0 := by
  decide +kernel

/-- The reference semantics runs a command on operands that are reals (R7, R73): L2.7, MIX 0.25, 0.75, 0.5. -/
theorem test_reference_mix (s : BlockState ℝ) :
    referenceStep (.command (.mix 0 0 0) fun k => [0.25, 0.75, 0.5].getD k 0) s =
      .ok { s with resp := s.resp ++ [0.5] } := by
  refine blockStep_ok_iff.2 ⟨rfl, rfl, ?_⟩
  rw [show execute realNum (.mix 0 0 0) (fun k => ([0.25, 0.75, 0.5] : List ℝ).getD k 0) s =
    .ok (s.respond (mixDryWet realNum 0.25 0.75 0.5)) from rfl]
  norm_num [BlockState.respond, mixDryWet, realNum, Numerics.nat]

theorem witness_AnalyzerReference : rms realNum [] = 0 ∧ rms realNum [1] ≠ 0 := by
  constructor
  · norm_num [rms, realNum, Numerics.nat]
  · norm_num [rms, realNum, Numerics.nat, Numerics.sumSquares]

theorem witness_AnalyzerBounds : 0 < rms realNum [1] := by
  norm_num [rms, realNum, Numerics.nat, Numerics.sumSquares]

theorem witness_Silence : (∀ x ∈ ([0, 0] : List ℝ), x = 0) ∧
    InBlock { demo with mem := { inBuf := [(0, 0), (1, 0x80000000)], outBuf := [] } } 2 [0, 0x80000000] ∧
    ∀ x ∈ ([0, 0x80000000] : List Word), F32.IsZero x :=
  ⟨by simp, ⟨rfl, by decide⟩, by
    simp only [List.forall_mem_cons, List.not_mem_nil, false_imp_iff, implies_true, and_true]
    exact zero_isZero⟩

theorem witness_SignInvariance : ∀ x ∈ ([0x5F000000, 0xDF000000, 0] : List Word), F32.mag x ≤ 0x5F000000 := by
  simp only [List.forall_mem_cons, List.not_mem_nil, false_imp_iff, implies_true, and_true]
  decide

theorem witness_DbToLinearBijective : (0 : ℝ) < 20 ∧ (0 : ℝ) < 10 := by norm_num

/-- The boundary 1 falls under the first clause alone. -/
theorem witness_SoftClipShape : |(1 : ℝ)| ≤ 1 ∧ (1 : ℝ) < 1.5 ∧ (-7 : ℝ) < -1 ∧ (-1 : ℝ) ≤ 1 := by norm_num

theorem witness_MixEndpoints : F32.isFinite 0x7F7FFFFF = true ∧ F32.isFinite 0x80000001 = true ∧ F32.IsZero 0 ∧
    F32.IsZero 0x80000000 := ⟨by decide, by decide, zero_isZero.1, zero_isZero.2⟩

end Sys2Proof.Tests
end

section
/-! PROOF. A whole well-formed command next on the port is fetched and run (R16, R70, R77). -/

namespace Sys2Proof.Laws.EncodeShape

/-- The family holds of every instruction: its members, in the order of the constructors. -/
theorem holds (i : Instr) : Statement i :=
  Instr.casesOn i nop wrin rdout bqProc bqProcb bqReset bqSetc bqLowpass riaaProc riaaProcb riaaReset riaaNew
    satProc satProcb satSet hfProc hfProcb hfReset hfSet limProc limProcb limReset limNew vaRms vaCrest vaTilt vaScore
    mix db2lin sclipa legacyProcb

end Sys2Proof.Laws.EncodeShape

namespace Sys2Proof.Machine

/-- Decoding reads an encoded instruction back, whatever words follow (R70, R76). -/
theorem decode_encodeHead (i : Instr) (more : List Word) : decode (encodeHead i) (operandsOf i ++ more) = .ok i := by
  obtain ⟨row, hrow, -, -, hreserved, hmake⟩ := Laws.EncodeShape.holds i
  have hop : opField (encodeHead i) = opOf i := opField_commandWord _ _ _
  have hch : chField (encodeHead i) = chOf i := chField_commandWord _ _ _
  have himm : immField (encodeHead i) = immOf i := immField_commandWord _ _ _
  rw [decode_of_rowOf (by rw [hop, hrow]) hreserved, hch, himm, hmake]

/-- The words of a well-formed instruction are fetched as that instruction, and nothing after them is touched (R77). -/
theorem fetchCommand_encode {cfg : Config Word} {i : Instr} (hwf : i.wf cfg = true) (rest : List HostEvent) :
    fetchCommand cfg (encodeHead i) ((operandsOf i).map HostEvent.word ++ rest) = .command i rest := by
  rw [fetchCommand_command, leadingWords_words]
  exact ⟨decode_encodeHead i _, hwf, by simp, by rw [List.drop_left' (by simp)]⟩

/-- With a well-formed command next on the port, a step is that command's meaning on the state without it (R16). -/
theorem step_of_encode {s : State} {i : Instr} {rest : List HostEvent}
    (hport : s.port = (encode i).map HostEvent.word ++ rest) (hwf : i.wf s.cfg = true) :
    step s = exec i { s with port := rest } := by
  have hfetch : fetch s = .command i rest := by
    rw [encode, List.map_cons, List.cons_append] at hport
    rw [fetch, hport]
    exact fetchCommand_encode hwf rest
  rw [step, hfetch]

/-- A well-formed instruction passes the checks of steps 3 to 5 of decoding, so the step over binary32 is its command
(R14, R77). -/
theorem blockStep_of_wf {i : Instr} {s : BlockState Word} (hwf : i.wf s.cfg = true) :
    blockStep binary32 (.command i (operandAt (operandsOf i))) s = execute binary32 i (operandAt (operandsOf i)) s := by
  obtain ⟨hchannel, hindex, hlength, hoperands⟩ := wf_iff.1 hwf
  have hrange : rangeRefusal s.cfg i = none := rangeRefusal_eq_none.2 ⟨hchannel, hindex, hlength⟩
  have hfinite : nonFiniteRefusal binary32.isNumber (operandsOf i) = none := operandRefusal_eq_none.2 hoperands
  rw [blockStep, map_operandAt_operandsOf, hrange, hfinite]
  rfl

/-- The machine's outcome depends on the effect at its own block alone. -/
theorem perform_congr {s : State} {f g : BlockState Word → Effect Word} (h : f s.toBlockState = g s.toBlockState) :
    s.perform f = s.perform g := by
  rw [State.perform, State.perform, h]

end Sys2Proof.Machine

open Sys2Proof Sys2Proof.Machine

/-- Settles O5: the words on the port decode to the instruction, and its checks have passed. -/
theorem stepRunsCommand : Obligations.StepRunsCommand := by
  intro s i rest hport hwf
  have hstep : step s = exec i { s with port := rest } := step_of_encode hport hwf
  refine ⟨hstep, ?_⟩
  rw [hstep, exec_eq_perform]
  exact perform_congr (blockStep_of_wf hwf).symm

end

section
/-! PROOF. Binary32 arithmetic is correctly rounded (R14). A result is a sign and a rounded magnitude, so the nearest of
all words is found among the magnitudes alone (`NearestMag`): `roundMag` answers the one nearest to a quotient, and that
nearest to a square root when it is given the integer root with a sticky half. -/

namespace Sys2Proof.Machine

/-! ### The value of a word -/

/-- A magnitude with a sign. -/
def F32.signed (b : Bool) (t : ℝ) : ℝ := if b then -t else t

@[simp] theorem F32.abs_signed (b : Bool) (t : ℝ) : |F32.signed b t| = |t| := by
  cases b <;> simp [F32.signed]

theorem F32.signed_mul (b c : Bool) (t u : ℝ) : F32.signed b t * F32.signed c u = F32.signed (b ^^ c) (t * u) := by
  cases b <;> cases c <;> simp [F32.signed]

theorem F32.signed_div (b c : Bool) (t u : ℝ) : F32.signed b t / F32.signed c u = F32.signed (b ^^ c) (t / u) := by
  cases b <;> cases c <;> simp [F32.signed, div_neg, neg_div]

theorem F32.signed_div_right (b : Bool) (t u : ℝ) : F32.signed b t / u = F32.signed b (t / u) := by
  cases b <;> simp [F32.signed, neg_div]

theorem F32.signed_natAbs (z : ℤ) : F32.signed (decide (z < 0)) z.natAbs = z := by
  rw [Nat.cast_natAbs, Int.cast_abs]
  by_cases hz : z < 0
  · simp [F32.signed, hz, abs_of_neg (Int.cast_lt_zero.2 hz : (z : ℝ) < 0)]
  · simp [F32.signed, hz, abs_of_nonneg (Int.cast_nonneg (not_lt.1 hz) : (0 : ℝ) ≤ z)]

/-- Two magnitudes of one sign are as far apart as the magnitudes, of opposite signs as far as their sum. -/
theorem F32.abs_signed_sub (b c : Bool) {t u : ℝ} (ht : 0 ≤ t) (hu : 0 ≤ u) :
    |F32.signed c u - F32.signed b t| = if c = b then |u - t| else u + t := by
  have hneg : |-u - t| = u + t := by rw [abs_of_nonpos (by linarith)]; ring
  have hpos : |u + t| = u + t := abs_of_nonneg (add_nonneg hu ht)
  have hboth : |-u + t| = |u - t| := by rw [← abs_neg]; ring_nf
  cases b <;> cases c <;> simp [F32.signed, hneg, hpos, hboth]

theorem F32.abs_signed_sub_scaled (b c : Bool) {t u : ℝ} (ht : 0 ≤ t) (hu : 0 ≤ u) :
    |F32.signed c u / 2 ^ 149 - F32.signed b t / 2 ^ 149| = (if c = b then |u - t| else u + t) / 2 ^ 149 := by
  rw [← sub_div, abs_div, F32.abs_signed_sub b c ht hu, abs_of_pos (by positivity : (0 : ℝ) < 2 ^ 149)]

/-- The units in 1, as a number. -/
theorem F32.cast_scale : ((2 ^ 149 : ℕ) : ℝ) = 2 ^ 149 := by norm_num

theorem F32.value_eq_units (w : Word) : (F32.value w : ℝ) = F32.units w / 2 ^ 149 := by
  rw [F32.value]; push_cast; rfl

theorem F32.value_eq_signed (w : Word) :
    (F32.value w : ℝ) = F32.signed (F32.sign w) (F32.magUnits (F32.mag w)) / 2 ^ 149 := by
  rw [F32.value_eq_units, F32.units]
  cases F32.sign w <;> simp [F32.signed]

theorem F32.value_pack (b : Bool) {m : ℕ} (hm : m < 2 ^ 31) :
    (F32.value (F32.pack b m) : ℝ) = F32.signed b (F32.magUnits m) / 2 ^ 149 := by
  rw [F32.value_eq_signed, F32.sign_pack hm, F32.mag_pack hm]

theorem F32.value_lt_value {a b : Word} : (F32.value a : ℝ) < F32.value b ↔ F32.units a < F32.units b := by
  rw [F32.value_eq_units, F32.value_eq_units, div_lt_div_iff_of_pos_right (by positivity), Int.cast_lt]

theorem F32.value_le_value {a b : Word} : (F32.value a : ℝ) ≤ F32.value b ↔ F32.units a ≤ F32.units b := by
  rw [← not_lt, F32.value_lt_value, not_lt]

theorem F32.value_eq_value {a b : Word} : (F32.value a : ℝ) = F32.value b ↔ F32.units a = F32.units b := by
  rw [le_antisymm_iff, le_antisymm_iff, F32.value_le_value, F32.value_le_value]

theorem F32.value_eq_zero {w : Word} : (F32.value w : ℝ) = 0 ↔ F32.mag w = 0 := by
  rw [F32.value_eq_units, div_eq_zero_iff, Int.cast_eq_zero, F32.mag_eq_zero_iff]
  exact or_iff_left (by positivity)

/-! ### The nearest magnitude -/

/-- `M` is the pattern of the magnitude nearest to `t` units, the even one of a tie. -/
def F32.NearestMag (t : ℝ) (M : ℕ) : Prop :=
  ∀ m : ℕ, |(F32.magUnits M : ℝ) - t| ≤ |(F32.magUnits m : ℝ) - t| ∧
    (m ≠ M → |(F32.magUnits M : ℝ) - t| = |(F32.magUnits m : ℝ) - t| → M % 2 = 0)

/-- Between two consecutive magnitudes, the nearer of the two is the nearest of all. -/
theorem F32.nearestMag_of_between {t : ℝ} {L M : ℕ} (hL : F32.magUnits L ≤ t) (hU : t ≤ F32.magUnits (L + 1))
    (h : (M = L ∧ 2 * t ≤ F32.magUnits L + F32.magUnits (L + 1)) ∨
      (M = L + 1 ∧ (F32.magUnits L + F32.magUnits (L + 1) : ℝ) ≤ 2 * t))
    (heven : 2 * t = F32.magUnits L + F32.magUnits (L + 1) → M % 2 = 0) : F32.NearestMag t M := by
  intro m
  have hmono : ∀ {i j : ℕ}, i < j → (F32.magUnits i : ℝ) < F32.magUnits j := fun hij =>
    Nat.cast_lt.2 (F32.magUnits_strictMono hij)
  have hdL : |(F32.magUnits L : ℝ) - t| = t - F32.magUnits L := by rw [abs_of_nonpos (by linarith)]; ring
  have hdU : |(F32.magUnits (L + 1) : ℝ) - t| = F32.magUnits (L + 1) - t := abs_of_nonneg (by linarith)
  rcases lt_trichotomy m M with hm | rfl | hm
  · -- Below `M` every magnitude is at most the lower neighbour's.
    have hlt := hmono hm
    rcases h with ⟨rfl, hle⟩ | ⟨rfl, hle⟩
    · rw [hdL, abs_of_nonpos (by linarith)]
      exact ⟨by linarith, fun _ heq => by linarith⟩
    · have hmL : (F32.magUnits m : ℝ) ≤ F32.magUnits L :=
        Nat.cast_le.2 (F32.magUnits_strictMono.monotone (Nat.le_of_lt_succ hm))
      rw [hdU, abs_of_nonpos (by linarith)]
      exact ⟨by linarith, fun _ heq => heven (by linarith)⟩
  · exact ⟨le_refl _, fun hne => absurd rfl hne⟩
  · -- Above `M` every magnitude is at least the upper neighbour's.
    have hlt := hmono hm
    rcases h with ⟨rfl, hle⟩ | ⟨rfl, hle⟩
    · have hUm : (F32.magUnits (M + 1) : ℝ) ≤ F32.magUnits m :=
        Nat.cast_le.2 (F32.magUnits_strictMono.monotone hm)
      rw [hdL, abs_of_nonneg (by linarith)]
      exact ⟨by linarith, fun _ heq => heven (by linarith)⟩
    · rw [hdU, abs_of_nonneg (by linarith)]
      exact ⟨by linarith, fun _ heq => by linarith⟩

/-- `roundMag p q` is the magnitude nearest to `p / q` units. -/
theorem F32.nearestMag_roundMag (p : ℕ) {q : ℕ} (hq : 0 < q) : F32.NearestMag ((p : ℝ) / q) (F32.roundMag p q) := by
  obtain ⟨L, hL, hU, h⟩ := F32.roundMag_spec p hq
  have hq' : (0 : ℝ) < q := Nat.cast_pos.2 hq
  have htwice : 2 * ((p : ℝ) / q) = (2 * p : ℕ) / q := by push_cast; ring
  refine F32.nearestMag_of_between (L := L) ((le_div_iff₀ hq').2 (mod_cast hL))
    ((div_le_iff₀ hq').2 (mod_cast hU.le)) ?_ ?_
  · rw [htwice]
    rcases h with ⟨hM, hle, -⟩ | ⟨hM, hle, -⟩
    · exact .inl ⟨hM, (div_le_iff₀ hq').2 (mod_cast hle)⟩
    · exact .inr ⟨hM, (le_div_iff₀ hq').2 (mod_cast hle)⟩
  · rw [htwice, div_eq_iff hq'.ne']
    intro htie
    have htie' : 2 * p = (F32.magUnits L + F32.magUnits (L + 1)) * q := mod_cast htie
    rcases h with ⟨hM, -, heven⟩ | ⟨hM, -, heven⟩
    · rw [hM]; exact heven htie'
    · rw [hM]; exact heven htie'

/-- From `2^24` units on, every magnitude is an even number of units. -/
theorem F32.two_dvd_magUnits {m : ℕ} (hm : 2 ^ 24 ≤ m) : 2 ∣ F32.magUnits m := by
  rw [F32.magUnits, if_neg (by omega)]
  exact Dvd.dvd.mul_left (dvd_pow_self 2 (by omega)) _

/-- A sticky half rounds as the number it stands for (R14): from `2^24` units on the tie of two magnitudes is an integer,
so a number between two integers and their midpoint lie on the same side of it. -/
theorem F32.nearestMag_of_sticky {t : ℝ} {r : ℕ} (hrt : (r : ℝ) < t) (htr : t < r + 1) (hr : 2 ^ 24 ≤ r) :
    F32.NearestMag t (F32.roundMag (2 * r + 1) 2) := by
  obtain ⟨L, hL, hU, h⟩ := F32.roundMag_spec (2 * r + 1) two_pos
  have hL24 : 2 ^ 24 ≤ L := by
    by_contra hsmall
    have hle24 := F32.magUnits_strictMono.monotone (show L + 1 ≤ 2 ^ 24 by omega)
    have h24 : F32.magUnits (2 ^ 24) = 2 ^ 24 := by decide
    omega
  obtain ⟨u, hu⟩ := F32.two_dvd_magUnits hL24
  obtain ⟨v, hv⟩ := F32.two_dvd_magUnits (m := L + 1) (by omega)
  have hLr : (F32.magUnits L : ℝ) ≤ r := mod_cast (by omega : F32.magUnits L ≤ r)
  have hrU : (r + 1 : ℝ) ≤ F32.magUnits (L + 1) := mod_cast (by omega : r + 1 ≤ F32.magUnits (L + 1))
  have hside : (F32.roundMag (2 * r + 1) 2 = L ∧
        (2 * (r + 1) : ℝ) ≤ F32.magUnits L + F32.magUnits (L + 1)) ∨
      (F32.roundMag (2 * r + 1) 2 = L + 1 ∧ (F32.magUnits L + F32.magUnits (L + 1) : ℝ) ≤ 2 * r) := by
    rcases h with ⟨hM, hle, -⟩ | ⟨hM, hle, -⟩
    · exact .inl ⟨hM, mod_cast (by omega : 2 * (r + 1) ≤ F32.magUnits L + F32.magUnits (L + 1))⟩
    · exact .inr ⟨hM, mod_cast (by omega : F32.magUnits L + F32.magUnits (L + 1) ≤ 2 * r)⟩
  refine F32.nearestMag_of_between (L := L) (by linarith) (by linarith) ?_ ?_
  · exact hside.imp (fun ⟨hM, hle⟩ => ⟨hM, by linarith⟩) (fun ⟨hM, hle⟩ => ⟨hM, by linarith⟩)
  · intro htie
    rcases hside with ⟨-, hle⟩ | ⟨-, hle⟩ <;> linarith

/-- Twice the integer root that `F32.sqrt` takes, and a sticky half where it is not exact. -/
def F32.stickyRoot (n : ℕ) : ℕ :=
  if F32.isqrt n 214 0 * F32.isqrt n 214 0 = n then 2 * F32.isqrt n 214 0 else 2 * F32.isqrt n 214 0 + 1

theorem F32.sqrt_finite {a : Word} (ha : F32.isFinite a = true) (hs : F32.sign a = false) (h0 : F32.mag a ≠ 0) :
    F32.sqrt a = F32.pack false (F32.roundMag (F32.stickyRoot (F32.magUnits (F32.mag a) * 2 ^ 149)) 2) := by
  simp [F32.sqrt, F32.stickyRoot, ha, hs, h0]

/-- The integer root of a number that is not small is exact to one unit, and not small. -/
theorem F32.isqrt_bounds {n : ℕ} (hlow : 2 ^ 24 * 2 ^ 24 ≤ n) (hhigh : n < 2 ^ 214 * 2 ^ 214) :
    F32.isqrt n 214 0 * F32.isqrt n 214 0 ≤ n ∧ n < (F32.isqrt n 214 0 + 1) * (F32.isqrt n 214 0 + 1) ∧
      2 ^ 24 ≤ F32.isqrt n 214 0 := by
  obtain ⟨hle, hlt⟩ := F32.isqrt_spec n 214 0 (Nat.zero_le _) (by rwa [Nat.zero_add])
  refine ⟨hle, hlt, ?_⟩
  by_contra hr
  have hsq : (F32.isqrt n 214 0 + 1) * (F32.isqrt n 214 0 + 1) ≤ 2 ^ 24 * 2 ^ 24 :=
    Nat.mul_le_mul (by omega) (by omega)
  exact absurd (hlt.trans_le hsq) (not_lt.2 hlow)

/-- The rounded sticky root is the magnitude nearest to the exact root. -/
theorem F32.nearestMag_sqrt {n : ℕ} (hlow : 2 ^ 24 * 2 ^ 24 ≤ n) (hhigh : n < 2 ^ 214 * 2 ^ 214) :
    F32.NearestMag (Real.sqrt n) (F32.roundMag (F32.stickyRoot n) 2) := by
  obtain ⟨hle, hlt, hr⟩ := F32.isqrt_bounds hlow hhigh
  rw [F32.stickyRoot]
  generalize F32.isqrt n 214 0 = r at hle hlt hr ⊢
  by_cases hsq : r * r = n
  · have hroot : Real.sqrt n = ((2 * r : ℕ) : ℝ) / (2 : ℕ) := by
      rw [← hsq, Nat.cast_mul, Real.sqrt_mul_self r.cast_nonneg]; push_cast; ring
    rw [if_pos hsq, hroot]
    exact F32.nearestMag_roundMag _ two_pos
  · rw [if_neg hsq]
    have hroot : (r : ℝ) < Real.sqrt n := Real.lt_sqrt_of_sq_lt (by rw [sq]; exact_mod_cast lt_of_le_of_ne hle hsq)
    have hroot' : Real.sqrt n < r + 1 := (Real.sqrt_lt' (by positivity)).2 (by rw [sq]; exact_mod_cast hlt)
    exact F32.nearestMag_of_sticky hroot hroot' hr

theorem F32.magUnits_infMag : F32.magUnits F32.infMag = 2 ^ 128 * 2 ^ 149 := by decide +kernel

theorem F32.magUnits_largest : F32.magUnits (F32.infMag - 1) = (2 ^ 128 - 2 ^ 104) * 2 ^ 149 := by decide +kernel

/-- Below the midpoint of the largest number and the next power of two nothing overflows. -/
theorem F32.nearestMag_lt_infMag {t : ℝ} {M : ℕ} (h : F32.NearestMag t M) (ht : t < (2 ^ 128 - 2 ^ 103) * 2 ^ 149) :
    M < F32.infMag := by
  by_contra hM
  have hge : (2 ^ 128 * 2 ^ 149 : ℝ) ≤ F32.magUnits M := by
    exact_mod_cast F32.magUnits_infMag ▸ F32.magUnits_strictMono.monotone (not_lt.1 hM)
  have hlargest : (F32.magUnits (F32.infMag - 1) : ℝ) = (2 ^ 128 - 2 ^ 104) * 2 ^ 149 := by
    rw [F32.magUnits_largest]; norm_num
  have hnear := (h (F32.infMag - 1)).1
  rw [hlargest, abs_of_nonneg (by linarith)] at hnear
  rcases abs_cases (((2 : ℝ) ^ 128 - 2 ^ 104) * 2 ^ 149 - t) with ⟨habs, -⟩ | ⟨habs, -⟩ <;> linarith

/-! ### Correctly rounded words -/

/-- A word of the right sign and the nearest magnitude is the nearest of all finite words: a word of the other sign
is no nearer than zero is. -/
theorem F32.rounds_pack (b : Bool) {t : ℝ} {M : ℕ} (ht : 0 ≤ t) (h : F32.NearestMag t M) (hM : M < F32.infMag) :
    F32.Rounds (F32.signed b t / 2 ^ 149) (F32.pack b M) := by
  refine ⟨F32.isFinite_pack hM, fun w _ => ?_⟩
  have hM31 := F32.lt_two_pow_31 hM
  rw [← (Rat.cast_inj (α := ℝ)).ne, F32.value_pack b hM31, F32.mag_pack hM31, F32.value_eq_signed w,
    F32.abs_signed_sub_scaled b b ht (Nat.cast_nonneg _), F32.abs_signed_sub_scaled b _ ht (Nat.cast_nonneg _),
    if_pos rfl, div_le_div_iff_of_pos_right (by positivity), div_left_inj' (by positivity)]
  by_cases hsign : F32.sign w = b
  · obtain ⟨hle, heven⟩ := h (F32.mag w)
    rw [if_pos hsign, hsign]
    exact ⟨hle, fun hne => heven fun hmag => hne (by rw [hmag])⟩
  · obtain ⟨hle, heven⟩ := h 0
    have hm : (0 : ℝ) ≤ F32.magUnits (F32.mag w) := Nat.cast_nonneg _
    rw [F32.magUnits_zero, Nat.cast_zero, zero_sub, abs_neg, abs_of_nonneg ht] at hle heven
    rw [if_neg hsign]
    refine ⟨by linarith, fun _ htie => ?_⟩
    by_cases hM0 : M = 0
    · rw [hM0]
    · exact heven (Ne.symm hM0) (by linarith)

/-- The bound of the statement, in units. -/
theorem F32.units_lt_of_abs_lt {b : Bool} {t : ℝ} (ht : 0 ≤ t) (h : |F32.signed b t / 2 ^ 149| < 2 ^ 128 - 2 ^ 103) :
    t < (2 ^ 128 - 2 ^ 103) * 2 ^ 149 := by
  rwa [abs_div, F32.abs_signed, abs_of_nonneg ht, abs_of_pos (by positivity), div_lt_iff₀ (by positivity)] at h

/-- A rounded quotient of units, where it does not overflow. -/
theorem F32.rounds_finish {e : ℝ} {b : Bool} {p q : ℕ} (free : Word) (hq : 0 < q)
    (he : e = F32.signed b ((p : ℝ) / q) / 2 ^ 149) (hlt : |e| < 2 ^ 128 - 2 ^ 103) :
    F32.Rounds e (F32.finish free b (F32.roundMag p q)) := by
  have hnear := F32.nearestMag_roundMag p hq
  have ht : (0 : ℝ) ≤ (p : ℝ) / q := by positivity
  have hM := F32.nearestMag_lt_infMag hnear (F32.units_lt_of_abs_lt ht (he ▸ hlt))
  rw [F32.finish_of_lt hM, he]
  exact F32.rounds_pack b ht hnear hM

/-- A sum of exact value `z` units; a zero is rounded to itself, whatever its sign. -/
theorem F32.rounds_sumResult (free : Word) (bothNeg : Bool) {z : ℤ} (hlt : |(z : ℝ) / 2 ^ 149| < 2 ^ 128 - 2 ^ 103) :
    F32.Rounds (z / 2 ^ 149) (F32.sumResult free bothNeg z) := by
  rw [F32.sumResult]
  split_ifs with hz
  · have hzero : F32.pack bothNeg 0 = F32.finish free bothNeg (F32.roundMag 0 1) := by
      rw [F32.roundMag_zero one_pos, F32.finish_of_lt (by decide)]
    rw [hzero]
    exact F32.rounds_finish free one_pos (by cases bothNeg <;> simp [F32.signed, hz]) hlt
  · exact F32.rounds_finish free one_pos (by rw [Nat.cast_one, div_one, F32.signed_natAbs]) hlt

section
variable {a b : Word} (ha : F32.isFinite a = true) (hb : F32.isFinite b = true)
include ha hb

theorem F32.rounds_add (hlt : |(F32.value a : ℝ) + F32.value b| < 2 ^ 128 - 2 ^ 103) :
    F32.Rounds ((F32.value a : ℝ) + F32.value b) (F32.add a b) := by
  have hsum : (F32.value a : ℝ) + F32.value b = (F32.units a + F32.units b : ℤ) / 2 ^ 149 := by
    rw [F32.value_eq_units, F32.value_eq_units]; push_cast; ring
  rw [hsum] at hlt ⊢
  rw [F32.add_finite ha hb]
  exact F32.rounds_sumResult _ _ hlt

theorem F32.rounds_sub (hlt : |(F32.value a : ℝ) - F32.value b| < 2 ^ 128 - 2 ^ 103) :
    F32.Rounds ((F32.value a : ℝ) - F32.value b) (F32.sub a b) := by
  have hdiff : (F32.value a : ℝ) - F32.value b = (F32.units a - F32.units b : ℤ) / 2 ^ 149 := by
    rw [F32.value_eq_units, F32.value_eq_units]; push_cast; ring
  rw [hdiff] at hlt ⊢
  rw [F32.sub_finite ha hb]
  exact F32.rounds_sumResult _ _ hlt

theorem F32.rounds_mul (hlt : |(F32.value a : ℝ) * F32.value b| < 2 ^ 128 - 2 ^ 103) :
    F32.Rounds ((F32.value a : ℝ) * F32.value b) (F32.mul a b) := by
  rw [F32.mul_finite ha hb]
  refine F32.rounds_finish _ (by positivity) ?_ hlt
  rw [F32.value_eq_signed, F32.value_eq_signed, div_mul_div_comm, F32.signed_mul, ← div_div, F32.signed_div_right,
    Nat.cast_mul, F32.cast_scale]

theorem F32.rounds_div (h0 : (F32.value b : ℝ) ≠ 0) (hlt : |(F32.value a : ℝ) / F32.value b| < 2 ^ 128 - 2 ^ 103) :
    F32.Rounds ((F32.value a : ℝ) / F32.value b) (F32.div a b) := by
  have hmag : F32.mag b ≠ 0 := mt F32.value_eq_zero.2 h0
  rw [F32.div_finite ha hb hmag]
  refine F32.rounds_finish _ (Nat.pos_of_ne_zero (mt F32.magUnits_eq_zero.1 hmag)) ?_ hlt
  rw [F32.value_eq_signed, F32.value_eq_signed, div_div_div_cancel_right₀ (by positivity), F32.signed_div,
    F32.signed_div_right, Nat.cast_mul, F32.cast_scale, mul_div_right_comm, mul_div_cancel_right₀ _ (by positivity)]

theorem F32.value_min : (F32.value (F32.min a b) : ℝ) = Min.min (F32.value a : ℝ) (F32.value b) := by
  rw [F32.min_finite ha hb]
  split_ifs with h
  · exact (min_eq_right (F32.value_lt_value.2 h).le).symm
  · exact (min_eq_left (F32.value_le_value.2 (not_lt.1 h))).symm

theorem F32.value_max : (F32.value (F32.max a b) : ℝ) = Max.max (F32.value a : ℝ) (F32.value b) := by
  rw [F32.max_finite ha hb]
  split_ifs with h
  · exact (max_eq_right (F32.value_lt_value.2 h).le).symm
  · exact (max_eq_left (F32.value_le_value.2 (not_lt.1 h))).symm

end

theorem F32.value_abs {a : Word} (ha : F32.isFinite a = true) : (F32.value (F32.abs a) : ℝ) = |(F32.value a : ℝ)| := by
  rw [F32.value_eq_units, F32.units_abs ha, F32.value_eq_units, abs_div, Int.cast_abs,
    abs_of_pos (by positivity : (0 : ℝ) < 2 ^ 149)]

theorem F32.value_neg {a : Word} (ha : F32.isFinite a = true) : (F32.value (F32.neg a) : ℝ) = -F32.value a := by
  rw [F32.value_eq_units, F32.units_neg ha, F32.value_eq_units, Int.cast_neg, neg_div]

/-- What `F32.sqrt` takes the integer root of: neither small nor beyond the search. -/
theorem F32.sqrt_operand_bounds {a : Word} (ha : F32.isFinite a = true) (h0 : F32.mag a ≠ 0) :
    2 ^ 24 * 2 ^ 24 ≤ F32.magUnits (F32.mag a) * 2 ^ 149 ∧ F32.magUnits (F32.mag a) * 2 ^ 149 < 2 ^ 214 * 2 ^ 214 := by
  have hpos : 0 < F32.magUnits (F32.mag a) := Nat.pos_of_ne_zero (mt F32.magUnits_eq_zero.1 h0)
  have hsmall : F32.magUnits (F32.mag a) < 2 ^ 128 * 2 ^ 149 :=
    F32.magUnits_infMag ▸ F32.magUnits_strictMono (F32.isFinite_iff.1 ha)
  omega

/-- The square root of a value in units: `sqrt (u * 2^-149) = sqrt (u * 2^149) * 2^-149`. -/
theorem F32.sqrt_units (u : ℕ) : Real.sqrt ((u : ℝ) / 2 ^ 149) = Real.sqrt (u * 2 ^ 149 : ℕ) / 2 ^ 149 := by
  have hsq : (u : ℝ) / 2 ^ 149 = (u * 2 ^ 149 : ℕ) / (2 ^ 149) ^ 2 := by
    rw [Nat.cast_mul, F32.cast_scale]; field_simp
  rw [hsq, Real.sqrt_div (Nat.cast_nonneg _), Real.sqrt_sq (by positivity)]

/-- Of the numbers that are not negative only a zero may have a sign. -/
theorem F32.sign_eq_false_of_value_nonneg {a : Word} (hx : (0 : ℝ) ≤ F32.value a) (h0 : F32.mag a ≠ 0) :
    F32.sign a = false := by
  have hpos : (0 : ℝ) < F32.value a := lt_of_le_of_ne hx (Ne.symm (mt F32.value_eq_zero.1 h0))
  by_contra hs
  rw [F32.value_eq_signed, Bool.eq_true_of_not_eq_false hs] at hpos
  have : (0 : ℝ) ≤ F32.magUnits (F32.mag a) / 2 ^ 149 := by positivity
  rw [F32.signed, if_pos rfl, neg_div] at hpos
  linarith

theorem F32.rounds_self {a : Word} (ha : F32.isFinite a = true) : F32.Rounds (F32.value a) a := by
  refine ⟨ha, fun w _ => ⟨by simp, fun hne heq => absurd ?_ hne⟩⟩
  rw [sub_self, abs_zero, eq_comm, abs_eq_zero, sub_eq_zero] at heq
  exact_mod_cast heq

theorem F32.rounds_sqrt {a : Word} (ha : F32.isFinite a = true) (hx : (0 : ℝ) ≤ F32.value a) :
    F32.Rounds (Real.sqrt (F32.value a)) (F32.sqrt a) := by
  by_cases h0 : F32.mag a = 0
  · have hroot : Real.sqrt (F32.value a) = F32.value a := by rw [F32.value_eq_zero.2 h0, Real.sqrt_zero]
    have hsqrt : F32.sqrt a = a := by simp [F32.sqrt, ha, h0]
    rw [hroot, hsqrt]
    exact F32.rounds_self ha
  · obtain ⟨hlow, hhigh⟩ := F32.sqrt_operand_bounds ha h0
    have hs := F32.sign_eq_false_of_value_nonneg hx h0
    have hnear := F32.nearestMag_sqrt hlow hhigh
    have hbound : Real.sqrt (F32.magUnits (F32.mag a) * 2 ^ 149 : ℕ) < (2 ^ 128 - 2 ^ 103) * 2 ^ 149 := by
      refine ((Real.sqrt_lt' (by norm_num : (0 : ℝ) < 2 ^ 214)).2 ?_).trans (by norm_num)
      rw [sq]; exact_mod_cast hhigh
    have hroot : Real.sqrt (F32.value a) =
        F32.signed false (Real.sqrt (F32.magUnits (F32.mag a) * 2 ^ 149 : ℕ)) / 2 ^ 149 := by
      rw [F32.value_eq_signed, hs]; exact F32.sqrt_units _
    rw [hroot, F32.sqrt_finite ha hs h0]
    exact F32.rounds_pack false (Real.sqrt_nonneg _) hnear (F32.nearestMag_lt_infMag hnear hbound)

theorem F32.rounds_lit {p q : ℕ} (hq : 0 < q) (hlt : (p : ℝ) / q < 2 ^ 128 - 2 ^ 103) :
    F32.Rounds ((p : ℝ) / q) (F32.lit p q) := by
  have hnear := F32.nearestMag_roundMag (p * 2 ^ 149) hq
  have hlit : (p : ℝ) / q = F32.signed false (((p * 2 ^ 149 : ℕ) : ℝ) / q) / 2 ^ 149 := by
    rw [← F32.signed_div_right, Nat.cast_mul, F32.cast_scale, F32.signed, if_neg Bool.false_ne_true]; field_simp
  have habs : |(p : ℝ) / q| < 2 ^ 128 - 2 ^ 103 := by rwa [abs_of_nonneg (by positivity)]
  have ht : (0 : ℝ) ≤ ((p * 2 ^ 149 : ℕ) : ℝ) / q := by positivity
  rw [hlit, F32.lit]
  exact F32.rounds_pack false ht hnear (F32.nearestMag_lt_infMag hnear (F32.units_lt_of_abs_lt ht (hlit ▸ habs)))

end Sys2Proof.Machine

open Sys2Proof Sys2Proof.Machine

/-- Settles O41: each primitive by its own lemma. -/
theorem correctlyRounded : Obligations.CorrectlyRounded := by
  refine ⟨fun a b ha hb => ?_, fun p q => F32.rounds_lit⟩
  intro x y
  refine ⟨F32.rounds_add ha hb, F32.rounds_sub ha hb, F32.rounds_mul ha hb, F32.rounds_div ha hb, F32.rounds_sqrt ha,
    ?_, ?_, ?_, F32.value_min ha hb, F32.value_max ha hb, F32.value_abs ha, F32.value_neg ha⟩
  · rw [F32.lt_finite ha hb, decide_eq_true_iff, F32.value_lt_value]
  · rw [F32.le_finite ha hb, decide_eq_true_iff, F32.value_le_value]
  · rw [F32.eq_finite ha hb, decide_eq_true_iff, F32.value_eq_value]

end

section
/-! PROOF. What a completed command can do to the block, over any `NUM`, said once (`Completion`); the frames, the valid
bits and both invariants are read off it. -/

namespace Sys2Proof.Machine

variable {α U : Type} {N : Numerics α} {p : α → Prop} {i : Instr}

/-! ### One kind of unit -/

/-- A constructor or setter is addressed to the instance it configures. -/
theorem addressed_of_configures {x : UnitKind × BitVec 8} (h : configures i = some x) : addressed i = some x :=
  match i, h with
  | .bqSetc .., h | .bqLowpass .., h | .riaaNew .., h | .satSet .., h | .hfSet .., h | .limNew .., h => h

/-- A processing or reset command is addressed to the instance it needs, and configures none. -/
theorem addressed_of_needsConstructed {x : UnitKind × BitVec 8} (h : needsConstructed i = some x) :
    addressed i = some x ∧ configures i = none :=
  match i, h with
  | .bqProc .., h | .bqProcb .., h | .bqReset .., h | .riaaProc .., h | .riaaProcb .., h | .riaaReset .., h
  | .satProc .., h | .satProcb .., h | .hfProc .., h | .hfProcb .., h | .hfReset .., h
  | .limProc .., h | .limProcb .., h | .limReset .., h => ⟨h, rfl⟩

/-- What a processing or reset command makes of a constructed instance: it is cleared, or it has taken the element steps
for some samples, each of which has the property `p`. -/
inductive Processed (p : α → Prop) (V : U → Bool) (proc : U → α → U × α) (clear : U → U) (u : U) : U → Prop where
  | cleared (hV : V u = true) : Processed p V proc clear u (clear u)
  | stepped (hV : V u = true) {xs : List α} (hxs : ∀ x ∈ xs, p x) : Processed p V proc clear u (runBlock proc u xs).1

/-- What every element step keeps, a block keeps. -/
theorem runBlock_keeps {P : U → Prop} {f : U → α → U × α} (hf : ∀ v x, p x → P v → P (f v x).1) {xs : List α}
    (hxs : ∀ x ∈ xs, p x) {u : U} (hu : P u) : P (runBlock f u xs).1 := by
  induction xs generalizing u with
  | nil => exact hu
  | cons x xs ih =>
    obtain ⟨hx, hrest⟩ := List.forall_mem_cons.1 hxs
    exact ih hrest (hf u x hx hu)

section
variable {V : U → Bool} {proc : U → α → U × α} {clear : U → U} {u u' : U}

/-- One sample is a block of one. -/
theorem Processed.sample (hV : V u = true) {x : α} (hx : p x) : Processed p V proc clear u (proc u x).1 :=
  .stepped (xs := [x]) hV (List.forall_mem_singleton.2 hx)

theorem Processed.valid (h : Processed p V proc clear u u') : V u = true := by
  cases h <;> assumption

/-- What clearing and every element step keep, a processing or reset command keeps. -/
theorem Processed.keeps {P : U → Prop} (h : Processed p V proc clear u u') (hclear : ∀ v, P v → P (clear v))
    (hproc : ∀ v x, p x → P v → P (proc v x).1) (hu : P u) : P u' := by
  cases h with
  | cleared => exact hclear u hu
  | stepped _ hxs => exact runBlock_keeps hproc hxs hu

/-- A register that neither clearing nor an element step writes stays as it was. -/
theorem Processed.apply_eq {B : Type} {f : U → B} (h : Processed p V proc clear u u') (hclear : ∀ v, f (clear v) = f v)
    (hproc : ∀ v x, f (proc v x).1 = f v) : f u' = f u :=
  h.keeps (P := fun v => f v = f u) (fun v hv => (hclear v).trans hv) (fun v x _ hv => (hproc v x).trans hv) rfl

end

/-- What a completed command can do to the instances of one kind: nothing, or replace the addressed instance, related to
the old one by `C` when the command configures it and by `P` when it processes or clears it. -/
inductive UnitChange (i : Instr) (k : UnitKind) (C P : U → U → Prop) (us : List U) : List U → Prop where
  | untouched (h : ∀ ch, configures i ≠ some (k, ch)) : UnitChange i k C P us us
  | configured {ch : BitVec 8} {u u' : U} (h : configures i = some (k, ch)) (hu : us[ch.toNat]? = some u)
    (hC : C u u') : UnitChange i k C P us (us.set ch.toNat u')
  | processed {ch : BitVec 8} {u u' : U} (h : needsConstructed i = some (k, ch)) (hu : us[ch.toNat]? = some u)
    (hP : P u u') : UnitChange i k C P us (us.set ch.toNat u')

section
variable {k : UnitKind} {C P : U → U → Prop} {us vs : List U} {c : Nat}

theorem UnitChange.length_eq (h : UnitChange i k C P us vs) : vs.length = us.length := by
  cases h <;> simp

theorem UnitChange.getElem?_of_not_addressed (h : UnitChange i k C P us vs)
    (hc : ∀ ch, addressed i = some (k, ch) → ch.toNat ≠ c) : vs[c]? = us[c]? := by
  cases h with
  | untouched => rfl
  | configured h => exact List.getElem?_set_ne (hc _ (addressed_of_configures h))
  | processed h => exact List.getElem?_set_ne (hc _ (addressed_of_needsConstructed h).1)

/-- The configured instance is one that `C` allows. -/
theorem UnitChange.exists_of_configures (h : UnitChange i k C P us vs) {ch : BitVec 8}
    (hch : configures i = some (k, ch)) : ∃ u u', C u u' ∧ vs[ch.toNat]? = some u' := by
  cases h with
  | untouched h => exact absurd hch (h ch)
  | configured h hu hC =>
    cases h.symm.trans hch
    exact ⟨_, _, hC, List.getElem?_set_self (List.getElem?_eq_some_iff.1 hu).1⟩
  | processed h => rw [(addressed_of_needsConstructed h).2] at hch; cases hch

/-- A register that processing does not write changes by configuration alone. -/
theorem UnitChange.map_getElem?_eq {B : Type} {f : U → B} (h : UnitChange i k C P us vs)
    (hP : ∀ u u', P u u' → f u' = f u) (hc : ∀ ch, configures i = some (k, ch) → ch.toNat ≠ c) :
    (vs[c]?).map f = (us[c]?).map f := by
  cases h with
  | untouched => rfl
  | configured h => rw [List.getElem?_set_ne (hc _ h)]
  | @processed ch u u' _ hu hPu =>
    by_cases hcc : ch.toNat = c
    · subst hcc
      rw [List.getElem?_set_self (List.getElem?_eq_some_iff.1 hu).1, hu, Option.map_some, Option.map_some, hP u u' hPu]
    · rw [List.getElem?_set_ne hcc]

/-- A property of every instance is kept when the configured instance gets it and a processed one keeps it. -/
theorem UnitChange.forall_mem {Q : U → Prop} (h : UnitChange i k C P us vs) (hQ : ∀ u ∈ us, Q u)
    (hC : ∀ u u', C u u' → Q u') (hP : ∀ u ∈ us, ∀ u', P u u' → Q u') : ∀ u ∈ vs, Q u := by
  have hset : ∀ n u', Q u' → ∀ u ∈ us.set n u', Q u := fun n u' hu' u hu =>
    (List.mem_or_eq_of_mem_set hu).elim (hQ u) (fun e => e ▸ hu')
  cases h with
  | untouched => exact hQ
  | configured _ _ hCu => exact hset _ _ (hC _ _ hCu)
  | processed _ hu hPu => exact hset _ _ (hP _ (List.mem_of_getElem? hu) _ hPu)

end

/-! ### The whole block -/

/-- BQ.SETC and BQ.LOWPASS construct the filter anew from some coefficients (R101, R102). -/
def BiquadUnit.Configured (N : Numerics α) (_ u' : BiquadUnit α) : Prop := ∃ c, u' = BiquadUnit.construct N c

/-- RIAA.NEW constructs the equalizer anew from some rate (R123). -/
def RiaaUnit.Configured (N : Numerics α) (table : RiaaTable α) (_ u' : RiaaUnit α) : Prop :=
  ∃ rate, u' = RiaaUnit.construct N table rate

/-- SAT.SET writes both parameters (R131). -/
def SatUnit.Configured (N : Numerics α) (p : α → Prop) (_ u' : SatUnit α) : Prop :=
  ∃ saturation hardness, p saturation ∧ p hardness ∧ u' = SatUnit.construct N saturation hardness

/-- HF.SET writes the intensity (R141). -/
def HfUnit.Configured (N : Numerics α) (p : α → Prop) (u u' : HfUnit α) : Prop :=
  ∃ intensity, p intensity ∧ u' = HfUnit.configure N u intensity

/-- LIM.NEW constructs the limiter anew (R151). -/
def LimUnit.Configured (N : Numerics α) (p : α → Prop) (_ u' : LimUnit α) : Prop :=
  ∃ threshold releaseTime, p threshold ∧ p releaseTime ∧ u' = LimUnit.construct N threshold releaseTime

/-- What a completed command can do to the buffers (R51). -/
inductive MemoryChange (p : α → Prop) (i : Instr) (blockMax : Nat) (m : Memory α) : Memory α → Prop where
  | untouched : MemoryChange p i blockMax m m
  | wroteIn {j : BitVec 16} {w : Word} {v : α} (hi : i = .wrin j w) (hj : j.toNat < blockMax) (hv : p v) :
    MemoryChange p i blockMax m ⟨Buffer.write m.inBuf j.toNat v, m.outBuf⟩
  | wroteOut {n : BitVec 16} {ys : List α} (hi : writesOut i = true) (hlength : lengthOf i = some n)
    (hys : ys.length = n.toNat) (hn : n.toNat ≤ blockMax) :
    MemoryChange p i blockMax m ⟨m.inBuf, Buffer.writeFrom m.outBuf 0 ys⟩

/-- Everything but the response port that a completed command can have changed, `p` being a property of its operands and
of the elements of `IN`. A field that is not given is a part the command leaves alone. -/
structure Completion (N : Numerics α) (p : α → Prop) (i : Instr) (s t : BlockState α) : Prop where
  cfg : t.cfg = s.cfg := by rfl
  mem : MemoryChange p i s.cfg.blockMax s.mem t.mem := by exact .untouched
  bq : UnitChange i .BQ (BiquadUnit.Configured N)
    (Processed p (·.V) (BiquadUnit.proc N) (BiquadUnit.cleared N)) s.bq t.bq := by exact .untouched nofun
  riaa : UnitChange i .RIAA (RiaaUnit.Configured N s.cfg.riaaTable)
    (Processed p (·.V) (RiaaUnit.proc N) (RiaaUnit.cleared N)) s.riaa t.riaa := by exact .untouched nofun
  sat : UnitChange i .SAT (SatUnit.Configured N p) Eq s.sat t.sat := by exact .untouched nofun
  hf : UnitChange i .HF (HfUnit.Configured N p)
    (Processed p (·.V) (HfUnit.proc N) (HfUnit.cleared N)) s.hf t.hf := by exact .untouched nofun
  lim : UnitChange i .LIM (LimUnit.Configured N p)
    (Processed p (·.V) (LimUnit.proc N s.cfg.releaseUnderflow) (LimUnit.cleared N)) s.lim t.lim := by
    exact .untouched nofun

/-- What an index reads as stands in the buffer. -/
theorem Buffer.mem_of_read {b : Buffer α} {j : Nat} {v : α} (h : Buffer.read b j = some v) : (j, v) ∈ b := by
  induction b with
  | nil => simp at h
  | cons c b ih =>
    rw [Buffer.read_cons] at h
    split_ifs at h with hj
    · cases h; cases hj; exact List.mem_cons_self
    · exact List.mem_cons_of_mem _ (ih h)

/-- A block that was read has `n` samples, each an element of the buffer. -/
theorem Buffer.readFrom_ok {b : Buffer α} {n : Nat} {xs : List α} (h : Buffer.readFrom b 0 n = .ok xs)
    (hb : ∀ c ∈ b, p c.2) : xs.length = n ∧ ∀ x ∈ xs, p x := by
  obtain ⟨hlen, hread⟩ := (Buffer.readFrom_ok_iff b n 0 xs).1 h
  refine ⟨hlen, fun x hx => ?_⟩
  obtain ⟨j, hj, rfl⟩ := List.mem_iff_getElem.1 hx
  have hj' : Buffer.read b (0 + j) = some xs[j] := by rw [hread j (hlen ▸ hj), List.getElem?_eq_getElem hj]
  exact hb _ (Buffer.mem_of_read hj')

/-- Everything a completed command can have done, over any `NUM` (R16, R36). -/
theorem execute_completion {opnd : Nat → α} {s t : BlockState α} (hop : ∀ k, p (opnd k))
    (hin : ∀ c ∈ s.mem.inBuf, p c.2) (h : execute N i opnd s = .ok t) : Completion N p i s t := by
  cases i with
  | nop =>
    obtain rfl := runNop_ok_iff.1 h
    exact {}
  | wrin =>
    obtain ⟨hj, rfl⟩ := runWrin_ok_iff.1 h
    exact { mem := .wroteIn rfl hj (hop 0) }
  | rdout =>
    obtain ⟨-, _, -, rfl⟩ := runRdout_ok_iff.1 h
    exact {}
  | bqProc =>
    obtain ⟨u, hu, hV, rfl⟩ := runBqProc_ok_iff.1 h
    exact { bq := .processed rfl hu (.sample hV (hop 0)) }
  | bqProcb =>
    obtain ⟨u, xs, hu, hn, hV, hread, rfl⟩ := runBqProcb_ok_iff.1 h
    obtain ⟨hlen, hxs⟩ := Buffer.readFrom_ok hread hin
    exact { mem := .wroteOut rfl rfl (by rw [runBlock_length, hlen]) hn,
            bq := .processed rfl hu (.stepped hV hxs) }
  | bqReset =>
    obtain ⟨u, hu, hV, rfl⟩ := runBqReset_ok_iff.1 h
    exact { bq := .processed rfl hu (.cleared hV) }
  | bqSetc =>
    obtain ⟨u, hu, rfl⟩ := runBqSetc_ok_iff.1 h
    exact { bq := .configured rfl hu ⟨_, rfl⟩ }
  | bqLowpass =>
    obtain ⟨u, hu, -, rfl⟩ := runBqLowpass_ok_iff.1 h
    exact { bq := .configured rfl hu ⟨_, rfl⟩ }
  | riaaProc =>
    obtain ⟨u, hu, hV, rfl⟩ := runRiaaProc_ok_iff.1 h
    exact { riaa := .processed rfl hu (.sample hV (hop 0)) }
  | riaaProcb =>
    obtain ⟨u, xs, hu, hn, hV, hread, rfl⟩ := runRiaaProcb_ok_iff.1 h
    obtain ⟨hlen, hxs⟩ := Buffer.readFrom_ok hread hin
    exact { mem := .wroteOut rfl rfl (by rw [runBlock_length, hlen]) hn,
            riaa := .processed rfl hu (.stepped hV hxs) }
  | riaaReset =>
    obtain ⟨u, hu, hV, rfl⟩ := runRiaaReset_ok_iff.1 h
    exact { riaa := .processed rfl hu (.cleared hV) }
  | riaaNew =>
    obtain ⟨u, hu, rfl⟩ := runRiaaNew_ok_iff.1 h
    exact { riaa := .configured rfl hu ⟨_, rfl⟩ }
  | satProc =>
    obtain ⟨u, -, -, rfl⟩ := runSatProc_ok_iff.1 h
    exact {}
  | satProcb =>
    obtain ⟨u, xs, -, hn, -, hread, rfl⟩ := runSatProcb_ok_iff.1 h
    obtain ⟨hlen, -⟩ := Buffer.readFrom_ok hread hin
    exact { mem := .wroteOut rfl rfl (by rw [runBlock_length, hlen]) hn }
  | satSet =>
    obtain ⟨u, hu, rfl⟩ := runSatSet_ok_iff.1 h
    exact { sat := .configured rfl hu ⟨_, _, hop 0, hop 1, rfl⟩ }
  | hfProc =>
    obtain ⟨u, hu, hV, rfl⟩ := runHfProc_ok_iff.1 h
    exact { hf := .processed rfl hu (.sample hV (hop 0)) }
  | hfProcb =>
    obtain ⟨u, xs, hu, hn, hV, hread, rfl⟩ := runHfProcb_ok_iff.1 h
    obtain ⟨hlen, hxs⟩ := Buffer.readFrom_ok hread hin
    exact { mem := .wroteOut rfl rfl (by rw [runBlock_length, hlen]) hn,
            hf := .processed rfl hu (.stepped hV hxs) }
  | hfReset =>
    obtain ⟨u, hu, hV, rfl⟩ := runHfReset_ok_iff.1 h
    exact { hf := .processed rfl hu (.cleared hV) }
  | hfSet =>
    obtain ⟨u, hu, rfl⟩ := runHfSet_ok_iff.1 h
    exact { hf := .configured rfl hu ⟨_, hop 0, rfl⟩ }
  | limProc =>
    obtain ⟨u, hu, hV, rfl⟩ := runLimProc_ok_iff.1 h
    exact { lim := .processed rfl hu (.sample hV (hop 0)) }
  | limProcb =>
    obtain ⟨u, xs, hu, hn, hV, hread, rfl⟩ := runLimProcb_ok_iff.1 h
    obtain ⟨hlen, hxs⟩ := Buffer.readFrom_ok hread hin
    exact { mem := .wroteOut rfl rfl (by rw [runBlock_length, hlen]) hn,
            lim := .processed rfl hu (.stepped hV hxs) }
  | limReset =>
    obtain ⟨u, hu, hV, rfl⟩ := runLimReset_ok_iff.1 h
    exact { lim := .processed rfl hu (.cleared hV) }
  | limNew =>
    obtain ⟨u, hu, rfl⟩ := runLimNew_ok_iff.1 h
    exact { lim := .configured rfl hu ⟨_, _, hop 0, hop 1, rfl⟩ }
  | vaRms =>
    obtain ⟨_, -, -, rfl⟩ := runVaRms_ok_iff.1 h
    exact {}
  | vaCrest =>
    obtain ⟨_, -, -, rfl⟩ := runVaCrest_ok_iff.1 h
    exact {}
  | vaTilt =>
    obtain ⟨_, -, -, rfl⟩ := runVaTilt_ok_iff.1 h
    exact {}
  | vaScore =>
    obtain ⟨_, -, -, rfl⟩ := runVaScore_ok_iff.1 h
    exact {}
  | mix =>
    obtain rfl := runMix_ok_iff.1 h
    exact {}
  | db2lin =>
    obtain rfl := runDb2lin_ok_iff.1 h
    exact {}
  | sclipa =>
    obtain rfl := runSclipa_ok_iff.1 h
    exact {}
  | legacyProcb =>
    obtain ⟨xs, hn, hread, rfl⟩ := runLegacyProcb_ok_iff.1 h
    obtain ⟨hlen, -⟩ := Buffer.readFrom_ok hread hin
    exact { mem := .wroteOut rfl rfl (by rw [List.length_map, hlen]) hn }

/-- The same of the machine's meaning, which leaves the command port alone. -/
theorem exec_completion {p : Word → Prop} {s t : State} (hop : ∀ k, p (operandAt (operandsOf i) k))
    (hin : ∀ c ∈ s.mem.inBuf, p c.2) (h : exec i s = .next t) :
    Completion binary32 p i s.toBlockState t.toBlockState ∧ t.port = s.port := by
  rw [exec_eq_perform, perform_next_iff] at h
  obtain ⟨b, hb, rfl⟩ := h
  exact ⟨execute_completion hop hin hb, rfl⟩

/-- The same with nothing said of the numbers. -/
theorem exec_completion_any {s t : State} (h : exec i s = .next t) :
    Completion binary32 (fun _ => True) i s.toBlockState t.toBlockState ∧ t.port = s.port :=
  exec_completion (fun _ => trivial) (fun _ _ => trivial) h

end Sys2Proof.Machine
end

section
/-! PROOF. The frames of a completed command (R22, R24, R36), read off `Completion`. -/

namespace Sys2Proof.Machine

/-- Where configuring sets the valid bit and processing does not write it, only the configured instance's changes
(R22). -/
theorem UnitChange.validBits {U : Type} {i : Instr} {k : UnitKind} {C P : U → U → Prop} {us vs : List U} {V : U → Bool}
    (h : UnitChange i k C P us vs) (hC : ∀ u u', C u u' → V u' = true) (hP : ∀ u u', P u u' → V u' = V u) (c : Nat) :
    ((∃ ch, configures i = some (k, ch) ∧ ch.toNat = c) → (vs[c]?).map V = some true) ∧
    ((∀ ch, configures i = some (k, ch) → ch.toNat ≠ c) → (vs[c]?).map V = (us[c]?).map V) := by
  refine ⟨?_, h.map_getElem?_eq hP⟩
  rintro ⟨ch, hch, rfl⟩
  obtain ⟨u, u', hCu, hu'⟩ := h.exists_of_configures hch
  rw [hu', Option.map_some, hC u u' hCu]

end Sys2Proof.Machine

open Sys2Proof Sys2Proof.Machine

/-- Settles O33: each kind's list changes at the addressed instance alone. -/
theorem instanceFrame : Obligations.InstanceFrame := by
  intro i s t h
  obtain ⟨hc, hport⟩ := exec_completion_any h
  refine ⟨fun k c hne => ?_, hc.cfg, hport⟩
  cases k with
  | BQ => exact (hc.bq.getElem?_of_not_addressed hne).symm
  | RIAA => exact (hc.riaa.getElem?_of_not_addressed hne).symm
  | SAT => exact (hc.sat.getElem?_of_not_addressed hne).symm
  | HF => exact (hc.hf.getElem?_of_not_addressed hne).symm
  | LIM => exact (hc.lim.getElem?_of_not_addressed hne).symm

/-- Settles O37: each constructor and setter sets the valid bit, and no element step or reset writes it. -/
theorem validBits : Obligations.ValidBits := by
  intro i s t h k c
  obtain ⟨hc, -⟩ := exec_completion_any h
  cases k with
  | BQ =>
    exact hc.bq.validBits (by rintro _ _ ⟨_, rfl⟩; rfl) (fun _ _ h => h.apply_eq (fun _ => rfl) fun _ _ => rfl) c
  | RIAA =>
    exact hc.riaa.validBits (by rintro _ _ ⟨_, rfl⟩; rfl) (fun _ _ h => h.apply_eq (fun _ => rfl) fun _ _ => rfl) c
  | SAT =>
    exact hc.sat.validBits (by rintro _ _ ⟨_, _, -, -, rfl⟩; rfl) (fun _ _ h => h ▸ rfl) c
  | HF =>
    exact hc.hf.validBits (by rintro _ _ ⟨_, -, rfl⟩; rfl) (fun _ _ h => h.apply_eq (fun _ => rfl) fun _ _ => rfl) c
  | LIM =>
    exact hc.lim.validBits (by rintro _ _ ⟨_, _, -, -, rfl⟩; rfl)
      (fun _ _ h => h.apply_eq (fun _ => rfl) fun _ _ => rfl) c

/-- Settles O60: no element step or reset writes a coefficient or a parameter. -/
theorem coefficientsOnlyByConstruction : Obligations.CoefficientsOnlyByConstruction := by
  intro i s t h c
  obtain ⟨hc, -⟩ := exec_completion_any h
  exact ⟨hc.bq.map_getElem?_eq fun _ _ h => h.apply_eq (fun _ => rfl) fun _ _ => rfl,
    hc.riaa.map_getElem?_eq fun _ _ h => h.apply_eq (f := fun u => (u.rate, u.coeffs)) (fun _ => rfl) fun _ _ => rfl,
    hc.sat.map_getElem?_eq fun _ _ h => h ▸ rfl,
    hc.hf.map_getElem?_eq fun _ _ h => h.apply_eq (fun _ => rfl) fun _ _ => rfl,
    hc.lim.map_getElem?_eq fun _ _ h =>
      h.apply_eq (f := fun u => (u.threshold, u.releaseTime)) (fun _ => rfl) fun _ _ => rfl⟩

end

section
/-! PROOF. The invariants hold after reset and every step keeps them (R28, R30, R31, R33, R34, R40, R50). -/

namespace Sys2Proof.Machine

/-- The zero of binary32. -/
theorem binary32_nat_zero : binary32.nat 0 = 0 := F32.lit_zero

theorem binary32_nat_one : binary32.nat 1 = 0x3F800000 := F32.lit_one

/-! ### Structure -/

/-- A processing or reset command meets a valid bit of 1, which stays where nothing the command does writes it. -/
theorem Processed.valid_ne_false {α U : Type} {p : α → Prop} {V : U → Bool} {proc : U → α → U × α} {clear : U → U}
    {u u' : U} (h : Processed p V proc clear u u') (hclear : ∀ v, V (clear v) = V v)
    (hproc : ∀ v x, V (proc v x).1 = V v) : V u' ≠ false := by
  rw [h.apply_eq hclear hproc, h.valid]
  decide

/-- The state of a filter as the invariant wants it: nothing in `x1`, `x2`, and nothing at all before construction. -/
def FilterState.Kept (V : Bool) (z : FilterState Word) : Prop :=
  z.x1 = 0 ∧ z.x2 = 0 ∧ (V = false → z.y1 = 0 ∧ z.y2 = 0)

theorem FilterState.kept_zeroed (V : Bool) : FilterState.Kept V (FilterState.zeroed binary32) :=
  ⟨binary32_nat_zero, binary32_nat_zero, fun _ => ⟨binary32_nat_zero, binary32_nat_zero⟩⟩

/-- What processing leaves of an instance with a filter state `z` behind the valid bit `V`. -/
theorem Processed.filterState_kept {U : Type} {p : Word → Prop} {V : U → Bool} {z : U → FilterState Word}
    {proc : U → Word → U × Word} {clear : U → U} {u u' : U} (h : Processed p V proc clear u u')
    (hV : V u' ≠ false) (hclear : ∀ v, z (clear v) = FilterState.zeroed binary32)
    (hproc : ∀ v x, (z (proc v x).1).x1 = (z v).x1 ∧ (z (proc v x).1).x2 = (z v).x2)
    (hu : FilterState.Kept (V u) (z u)) : FilterState.Kept (V u') (z u') := by
  obtain ⟨hx1, hx2, -⟩ := hu
  have hx : (z u').x1 = 0 ∧ (z u').x2 = 0 := by
    refine h.keeps (P := fun v => (z v).x1 = 0 ∧ (z v).x2 = 0) (fun v _ => ?_) (fun v x _ hv => ?_) ⟨hx1, hx2⟩
    · rw [hclear v]; exact ⟨binary32_nat_zero, binary32_nat_zero⟩
    · rw [(hproc v x).1, (hproc v x).2]; exact hv
  exact ⟨hx.1, hx.2, fun hfalse => absurd hfalse hV⟩

/-- A completed command keeps the buffers canonical and inside their bounds. -/
theorem MemoryChange.keeps_structure {α : Type} {p : α → Prop} {i : Instr} {b : Nat} {m m' : Memory α}
    (h : MemoryChange p i b m m') (hwf : Memory.wf m) (hin : Buffer.within m.inBuf b)
    (hout : Buffer.within m.outBuf b) :
    Memory.wf m' ∧ Buffer.within m'.inBuf b ∧ Buffer.within m'.outBuf b := by
  cases h with
  | untouched => exact ⟨hwf, hin, hout⟩
  | wroteIn _ hj _ => exact ⟨⟨Buffer.wf_write hwf.1 _ _, hwf.2⟩, Buffer.within_write hin hj _, hout⟩
  | wroteOut _ _ hys hn =>
    exact ⟨⟨hwf.1, Buffer.wf_writeFrom _ hwf.2 0⟩, hin, Buffer.within_writeFrom _ hout (by omega)⟩

/-- A completed command keeps the structure of the state. -/
theorem Completion.keeps_structured {p : Word → Prop} {i : Instr} {s t : State}
    (h : Completion binary32 p i s.toBlockState t.toBlockState) (hs : Structured s) : Structured t := by
  obtain ⟨hwf, hin, hout⟩ := h.mem.keeps_structure hs.memory hs.inWithin hs.outWithin
  exact {
    bqLength := by rw [h.bq.length_eq, h.cfg, hs.bqLength]
    riaaLength := by rw [h.riaa.length_eq, h.cfg, hs.riaaLength]
    satLength := by rw [h.sat.length_eq, h.cfg, hs.satLength]
    hfLength := by rw [h.hf.length_eq, h.cfg, hs.hfLength]
    limLength := by rw [h.lim.length_eq, h.cfg, hs.limLength]
    memory := hwf
    inWithin := h.cfg ▸ hin
    outWithin := h.cfg ▸ hout
    bqHistory := h.bq.forall_mem hs.bqHistory (by rintro _ _ ⟨_, rfl⟩; exact FilterState.kept_zeroed true)
      fun u hu u' hP => hP.filterState_kept (z := BiquadUnit.state) (hP.valid_ne_false (fun _ => rfl) fun _ _ => rfl)
        (fun _ => rfl) (fun _ _ => ⟨rfl, rfl⟩) (hs.bqHistory u hu)
    riaaHistory := h.riaa.forall_mem hs.riaaHistory (by rintro _ _ ⟨_, rfl⟩; exact FilterState.kept_zeroed true)
      fun u hu u' hP => hP.filterState_kept (z := RiaaUnit.state) (hP.valid_ne_false (fun _ => rfl) fun _ _ => rfl)
        (fun _ => rfl) (fun _ _ => ⟨rfl, rfl⟩) (hs.riaaHistory u hu)
    riaaRow := by
      rw [h.cfg]
      exact h.riaa.forall_mem hs.riaaRow (by rintro _ _ ⟨_, rfl⟩ _; rfl) fun u hu u' hP =>
        hP.keeps (P := fun v : RiaaUnit Word => v.V = true → v.coeffs = s.cfg.riaaTable.row v.rate) (fun _ h => h)
          (fun _ _ _ h => h) (hs.riaaRow u hu)
    hfHistory := h.hf.forall_mem hs.hfHistory (by rintro _ _ ⟨_, -, rfl⟩ hV; cases hV)
      fun _ _ _ hP hV => absurd hV (hP.valid_ne_false (fun _ => rfl) fun _ _ => rfl)
    limEnvelope := h.lim.forall_mem hs.limEnvelope (by rintro _ _ ⟨_, _, -, -, rfl⟩ hV; cases hV)
      fun _ _ _ hP hV => absurd hV (hP.valid_ne_false (fun _ => rfl) fun _ _ => rfl) }

/-! ### Ranges -/

theorem isFinite_zero_one : F32.isFinite 0 = true ∧ F32.isFinite 0x3F800000 = true := by decide

theorem isFinite_thousandth : F32.isFinite (F32.lit 1 1000) = true := by
  rw [F32.lit_thousandth]; decide

theorem units_zero_one : F32.units 0 = 0 ∧ 0 ≤ F32.units 0x3F800000 := by decide +kernel

/-- Of two numbers `max` answers a number that is not below either. -/
theorem F32.max_range {a b : Word} (ha : F32.isFinite a = true) (hb : F32.isFinite b = true) :
    F32.isFinite (F32.max a b) = true ∧ F32.units b ≤ F32.units (F32.max a b) := by
  rw [F32.max_finite ha hb]
  split_ifs with h
  · exact ⟨hb, le_rfl⟩
  · exact ⟨ha, not_lt.1 h⟩

/-- A number clamped to [0, 1] lies there (R30, R31, R33). -/
theorem in01_clamp01 {v : Word} (hv : F32.isFinite v = true) : F32.In01 (binary32.clamp01 v) := by
  obtain ⟨hzero, hone⟩ := isFinite_zero_one
  obtain ⟨hunits, hpos⟩ := units_zero_one
  obtain ⟨hmax, hge⟩ := F32.max_range hv hzero
  have hclamp : binary32.clamp01 v = F32.min (F32.max v 0) 0x3F800000 := by
    rw [Numerics.clamp01, Numerics.clamp, binary32_nat_zero, binary32_nat_one]; rfl
  rw [hclamp, F32.min_finite hmax hone]
  split_ifs with h
  · exact ⟨hone, hpos, le_rfl⟩
  · exact ⟨hmax, hunits ▸ hge, not_lt.1 h⟩

/-- An envelope as the invariant wants it: a number that is not negative (R34). -/
def F32.NonNeg (w : Word) : Prop := F32.isFinite w = true ∧ 0 ≤ F32.units w

theorem F32.nonNeg_zero : F32.NonNeg (binary32.nat 0) := by
  rw [binary32_nat_zero]
  exact ⟨isFinite_zero_one.1, units_zero_one.1.ge⟩

/-- Attack takes the magnitude of a number, release a product with a factor in [0, 1] (R152). -/
theorem limEnvelope_nonNeg {b : Bool} {thr releaseTime e x : Word} (he : F32.NonNeg e) (hx : F32.isFinite x = true)
    (hf : F32.In01 (F32.exp (F32.div 0xBF800000 releaseTime))) :
    F32.NonNeg (limEnvelope binary32 b thr releaseTime e x) := by
  obtain ⟨hfin, h0, h1⟩ := hf
  have hneg : binary32.neg (binary32.nat 1) = 0xBF800000 := by rw [binary32_nat_one]; decide
  rw [limEnvelope, hneg]
  split_ifs
  · exact ⟨F32.isFinite_abs hx, F32.units_abs hx ▸ abs_nonneg _⟩
  · obtain ⟨hr, hr0, -⟩ := limRelease_range b he.1 he.2 hfin h0 h1
    exact ⟨hr, hr0⟩

/-- A property that the elements of `IN` and the operands have, a completed command keeps on `IN`. -/
theorem MemoryChange.keeps_inBuf {α : Type} {p : α → Prop} {i : Instr} {b : Nat} {m m' : Memory α}
    (h : MemoryChange p i b m m') (hin : ∀ c ∈ m.inBuf, p c.2) : ∀ c ∈ m'.inBuf, p c.2 := by
  cases h with
  | untouched => exact hin
  | wroteIn _ _ hv => exact fun c hc => (Buffer.mem_write hc).elim (fun e => e ▸ hv) (hin c)
  | wroteOut => exact hin

section
variable {i : Instr} {s t : State}

/-- A completed command on numbers keeps the ranges of the parameters. -/
theorem Completion.keeps_inParameterRange
    (h : Completion binary32 (F32.isFinite · = true) i s.toBlockState t.toBlockState) (hs : InParameterRange s) :
    InParameterRange t where
  satRange := h.sat.forall_mem hs.satRange
    (by rintro _ _ ⟨_, _, hsat, hhard, rfl⟩ -; exact ⟨in01_clamp01 hsat, in01_clamp01 hhard⟩)
    fun u hu u' hP => hP ▸ hs.satRange u hu
  hfRange := h.hf.forall_mem hs.hfRange (by rintro _ _ ⟨_, hint, rfl⟩ -; exact in01_clamp01 hint)
    fun u hu u' hP => hP.keeps (P := fun v : HfUnit Word => v.V = true → F32.In01 v.intensity) (fun _ h => h)
      (fun _ _ _ h => h) (hs.hfRange u hu)
  limThreshold := h.lim.forall_mem hs.limThreshold (by rintro _ _ ⟨_, _, hthr, -, rfl⟩ -; exact in01_clamp01 hthr)
    fun u hu u' hP => hP.keeps (P := fun v : LimUnit Word => v.V = true → F32.In01 v.threshold) (fun _ h => h)
      (fun _ _ _ h => h) (hs.limThreshold u hu)
  limRelease := h.lim.forall_mem hs.limRelease
    (by rintro _ _ ⟨_, _, -, hrel, rfl⟩ -; exact F32.max_range hrel isFinite_thousandth)
    fun u hu u' hP => hP.keeps (P := fun v : LimUnit Word => v.V = true →
        F32.isFinite v.releaseTime = true ∧ F32.units (F32.lit 1 1000) ≤ F32.units v.releaseTime) (fun _ h => h)
      (fun _ _ _ h => h) (hs.limRelease u hu)
  inFinite := h.mem.keeps_inBuf hs.inFinite

/-- It keeps the range of the envelope too, where the release factors lie in [0, 1]. -/
theorem Completion.keeps_inRange
    (h : Completion binary32 (F32.isFinite · = true) i s.toBlockState t.toBlockState) (hs : InRange s)
    (hfactor : ∀ u ∈ s.lim, u.V = true → F32.In01 (F32.exp (F32.div 0xBF800000 u.releaseTime))) : InRange t where
  toInParameterRange := h.keeps_inParameterRange hs.toInParameterRange
  limEnvelope := by
    refine h.lim.forall_mem hs.limEnvelope ?_ fun u hu u' hP => ?_
    · rintro _ _ ⟨_, _, -, -, rfl⟩
      exact F32.nonNeg_zero
    · have hkeep : u'.releaseTime = u.releaseTime ∧ F32.NonNeg u'.envelope :=
        hP.keeps (P := fun v : LimUnit Word => v.releaseTime = u.releaseTime ∧ F32.NonNeg v.envelope)
          (fun _ hv => ⟨hv.1, F32.nonNeg_zero⟩)
          (fun v x hx hv => ⟨hv.1, limEnvelope_nonNeg hv.2 hx (hv.1 ▸ hfactor u hu hP.valid)⟩)
          ⟨rfl, hs.limEnvelope u hu⟩
      exact hkeep.2

end

/-! ### Reset and the step -/

/-- A state that a reset leaves has the structure. -/
theorem structured_afterReset (cfg : Config Word) (port : List HostEvent) (resp : List Word) :
    Structured (State.afterReset cfg port resp) where
  bqLength := List.length_replicate
  riaaLength := List.length_replicate
  satLength := List.length_replicate
  hfLength := List.length_replicate
  limLength := List.length_replicate
  memory := Memory.wf_reset
  inWithin := nofun
  outWithin := nofun
  bqHistory u hu := by rw [List.eq_of_mem_replicate hu]; exact ⟨rfl, rfl, fun _ => ⟨rfl, rfl⟩⟩
  riaaHistory u hu := by rw [List.eq_of_mem_replicate hu]; exact ⟨rfl, rfl, fun _ => ⟨rfl, rfl⟩⟩
  riaaRow u hu hV := by rw [List.eq_of_mem_replicate hu] at hV; cases hV
  hfHistory u hu _ := by rw [List.eq_of_mem_replicate hu]; rfl
  limEnvelope u hu _ := by rw [List.eq_of_mem_replicate hu]; rfl

/-- It has the ranges: no instance is constructed and no envelope set. -/
theorem inRange_afterReset (cfg : Config Word) (port : List HostEvent) (resp : List Word) :
    InRange (State.afterReset cfg port resp) where
  satRange u hu hV := by rw [List.eq_of_mem_replicate hu] at hV; cases hV
  hfRange u hu hV := by rw [List.eq_of_mem_replicate hu] at hV; cases hV
  limThreshold u hu hV := by rw [List.eq_of_mem_replicate hu] at hV; cases hV
  limRelease u hu hV := by rw [List.eq_of_mem_replicate hu] at hV; cases hV
  inFinite := nofun
  limEnvelope u hu := by
    rw [List.eq_of_mem_replicate hu]
    exact ⟨isFinite_zero_one.1, units_zero_one.1.ge⟩

/-- The operands of a well-formed command are numbers (R216). -/
theorem isFinite_operandAt {cfg : Config Word} {i : Instr} (h : i.wf cfg = true) (k : Nat) :
    F32.isFinite (operandAt (operandsOf i) k) = true := by
  obtain ⟨-, -, -, hops⟩ := wf_iff.1 h
  rw [operandAt, List.getD_eq_getElem?_getD]
  cases hk : (operandsOf i)[k]? with
  | none => exact isFinite_zero_one.1
  | some w => exact List.all_eq_true.1 hops w (List.mem_of_getElem? hk)

end Sys2Proof.Machine

open Sys2Proof Sys2Proof.Machine

/-- Settles O38: the port waiting changes nothing, a reset leaves the structure, and a completed command keeps it. -/
theorem structureKept : Obligations.StructureKept := by
  intro s t hs h
  rcases step_next_cases h with ⟨-, rfl⟩ | ⟨rest, -, rfl⟩ | ⟨_, rest, i, -, -, -, -, hexec⟩
  · exact ⟨hs, rfl⟩
  · exact ⟨structured_afterReset _ _ _, rfl⟩
  · obtain ⟨hc, -⟩ := exec_completion_any hexec
    exact ⟨hc.keeps_structured (s := s) hs, hc.cfg⟩

/-- Settles O39: as O38; the operands of a fetched command are numbers. -/
theorem rangesKept : Obligations.RangesKept := by
  intro s t h
  rcases step_next_cases h with ⟨-, rfl⟩ | ⟨rest, -, rfl⟩ | ⟨_, rest, i, -, -, hwf, -, hexec⟩
  · exact ⟨id, fun hs _ => hs⟩
  · have hreset := inRange_afterReset s.cfg rest s.resp
    exact ⟨fun _ => hreset.toInParameterRange, fun _ _ => hreset⟩
  · have hc (hs : InParameterRange s) : Completion binary32 (F32.isFinite · = true) i s.toBlockState t.toBlockState :=
      (exec_completion (isFinite_operandAt hwf) hs.inFinite hexec).1
    exact ⟨fun hs => (hc hs).keeps_inParameterRange hs, fun hs => (hc hs.toInParameterRange).keeps_inRange hs⟩

/-- Settles O40: a reset leaves both invariants, for any configuration. -/
theorem resetHasInvariants : Obligations.ResetHasInvariants :=
  ⟨⟨structured_afterReset _ _ _, inRange_afterReset _ _ _⟩,
    fun cfg port resp => ⟨structured_afterReset cfg port resp, inRange_afterReset cfg port resp⟩⟩

end

section
/-! PROOF. What reset leaves (R40), and that nothing but the addressed instance, the buffers and the command reaches a
command (R36, R37). -/

namespace Sys2Proof.Machine

variable {α : Type} {N : Numerics α}

/-! ### Commands to an instance that is not constructed -/

section
variable {U : Type} {k : UnitKind} {V : U → Bool} {us : List U} {ch : BitVec 8}

theorem checked_constructedAt_of_not_valid {f : U → Effect α} (h : (us[ch.toNat]?).map V = some false) :
    checked (constructedAt k V us ch) f = .error (.plain (.notConstructed k ch.toNat)) := by
  obtain ⟨u, hu, hV⟩ := Option.map_eq_some_iff.1 h
  rw [constructedAt_error_iff.2 (.inr ⟨u, hu, hV, rfl⟩), checked_error]

theorem checked_blockOperands_of_not_valid {f : U × List α → Effect α} {n : BitVec 16} {s : BlockState α}
    (h : (us[ch.toNat]?).map V = some false) (hn : n.toNat ≤ s.cfg.blockMax) :
    checked (blockOperands k V us ch n s) f = .error (.plain (.notConstructed k ch.toNat)) := by
  obtain ⟨u, hu, hV⟩ := Option.map_eq_some_iff.1 h
  rw [blockOperands_error_iff.2 (.inr ⟨u, hu, .inr (.inl ⟨hn, hV, rfl⟩)⟩), checked_error]

end

/-- A processing or reset command whose length fits is refused `NotConstructed` where the valid bit is 0 (R215,
R218). -/
theorem exec_of_not_valid {i : Instr} {s : State} {k : UnitKind} {ch : BitVec 8}
    (hneeds : needsConstructed i = some (k, ch)) (hV : validBit k ch.toNat s = some false)
    (hlength : ∀ n, lengthOf i = some n → n.toNat ≤ s.cfg.blockMax) :
    exec i s = .refused (.notConstructed k ch.toNat) := by
  rw [exec_eq_perform, perform_refused_iff]
  left
  match i, hneeds with
  | .bqProc _ _, rfl | .bqReset _, rfl | .riaaProc _ _, rfl | .riaaReset _, rfl | .satProc _ _, rfl
  | .hfProc _ _, rfl | .hfReset _, rfl | .limProc _ _, rfl | .limReset _, rfl =>
    exact checked_constructedAt_of_not_valid hV
  | .bqProcb _ n, rfl | .riaaProcb _ n, rfl | .satProcb _ n, rfl | .hfProcb _ n, rfl | .limProcb _ n, rfl =>
    exact checked_blockOperands_of_not_valid hV (hlength n rfl)

theorem map_getElem?_replicate {U B : Type} (f : U → B) (n c : Nat) (u : U) :
    ((List.replicate n u)[c]?).map f = if c < n then some (f u) else none := by
  rw [List.getElem?_replicate]
  split_ifs <;> rfl

/-- After reset the valid bit of every instance there is stands at 0 (R22, R40). -/
theorem validBit_afterReset (k : UnitKind) (c : Nat) (cfg : Config Word) (port : List HostEvent) (resp : List Word) :
    validBit k c (State.afterReset cfg port resp) = if c < cfg.nch then some false else none :=
  match k with
  | .BQ | .RIAA | .SAT | .HF | .LIM => map_getElem?_replicate _ _ _ _

/-! ### Two states that agree on what a command reads -/

/-- Instance `c` of a kind holds the same registers in both blocks. -/
def BlockState.SameUnit (k : UnitKind) (c : Nat) (s t : BlockState α) : Prop :=
  match k with
  | .BQ => s.bq[c]? = t.bq[c]?
  | .RIAA => s.riaa[c]? = t.riaa[c]?
  | .SAT => s.sat[c]? = t.sat[c]?
  | .HF => s.hf[c]? = t.hf[c]?
  | .LIM => s.lim[c]? = t.lim[c]?

theorem sameUnit_iff {k : UnitKind} {c : Nat} {s t : State} :
    SameUnit k c s t ↔ BlockState.SameUnit k c s.toBlockState t.toBlockState := by
  cases k <;> rfl

/-- The next states `s'`, `t'` of `s`, `t` agree on the results put out, the buffers and the instance addressed
(`x`). -/
structure Agree (x : Option (UnitKind × BitVec 8)) (s t s' t' : BlockState α) : Prop where
  resp : ∃ out, s'.resp = s.resp ++ out ∧ t'.resp = t.resp ++ out
  mem : s'.mem = t'.mem
  unit : ∀ k ch, x = some (k, ch) → BlockState.SameUnit k ch.toNat s' t'

section
variable {x : Option (UnitKind × BitVec 8)} {s t s' t' : BlockState α}

theorem Agree.start (hmem : s.mem = t.mem)
    (hunit : ∀ k ch, x = some (k, ch) → BlockState.SameUnit k ch.toNat s t) : Agree x s t s t :=
  ⟨⟨[], (List.append_nil _).symm, (List.append_nil _).symm⟩, hmem, hunit⟩

theorem Agree.respond (h : Agree x s t s' t') (v : α) : Agree x s t (s'.respond v) (t'.respond v) := by
  obtain ⟨⟨out, hs, ht⟩, hmem, hunit⟩ := h
  exact ⟨⟨out ++ [v], by simp [hs], by simp [ht]⟩, hmem, hunit⟩

theorem Agree.writeIn (h : Agree x s t s' t') (j : Nat) (v : α) : Agree x s t (s'.writeIn j v) (t'.writeIn j v) :=
  ⟨h.resp, by simp [h.mem], h.unit⟩

theorem Agree.writeOut (h : Agree x s t s' t') (ys : List α) : Agree x s t (s'.writeOut ys) (t'.writeOut ys) :=
  ⟨h.resp, by simp [h.mem], h.unit⟩

/-- Setting the same element of two lists keeps every index at which they agree. -/
theorem getElem?_set_congr {U : Type} {us vs : List U} {c : Nat} (h : us[c]? = vs[c]?) (j : Nat) (u : U) :
    (us.set j u)[c]? = (vs.set j u)[c]? := by
  by_cases hj : j = c
  · subst hj
    rw [List.getElem?_set_self', List.getElem?_set_self', h]
  · rw [List.getElem?_set_ne hj, List.getElem?_set_ne hj, h]

theorem Agree.setBq (h : Agree x s t s' t') (ch : BitVec 8) (u : BiquadUnit α) :
    Agree x s t (s'.setBq ch u) (t'.setBq ch u) :=
  ⟨h.resp, h.mem, fun k c hx => match k, h.unit k c hx with
    | .BQ, h => getElem?_set_congr h _ _
    | .RIAA, h | .SAT, h | .HF, h | .LIM, h => h⟩

theorem Agree.setRiaa (h : Agree x s t s' t') (ch : BitVec 8) (u : RiaaUnit α) :
    Agree x s t (s'.setRiaa ch u) (t'.setRiaa ch u) :=
  ⟨h.resp, h.mem, fun k c hx => match k, h.unit k c hx with
    | .RIAA, h => getElem?_set_congr h _ _
    | .BQ, h | .SAT, h | .HF, h | .LIM, h => h⟩

theorem Agree.setSat (h : Agree x s t s' t') (ch : BitVec 8) (u : SatUnit α) :
    Agree x s t (s'.setSat ch u) (t'.setSat ch u) :=
  ⟨h.resp, h.mem, fun k c hx => match k, h.unit k c hx with
    | .SAT, h => getElem?_set_congr h _ _
    | .BQ, h | .RIAA, h | .HF, h | .LIM, h => h⟩

theorem Agree.setHf (h : Agree x s t s' t') (ch : BitVec 8) (u : HfUnit α) :
    Agree x s t (s'.setHf ch u) (t'.setHf ch u) :=
  ⟨h.resp, h.mem, fun k c hx => match k, h.unit k c hx with
    | .HF, h => getElem?_set_congr h _ _
    | .BQ, h | .RIAA, h | .SAT, h | .LIM, h => h⟩

theorem Agree.setLim (h : Agree x s t s' t') (ch : BitVec 8) (u : LimUnit α) :
    Agree x s t (s'.setLim ch u) (t'.setLim ch u) :=
  ⟨h.resp, h.mem, fun k c hx => match k, h.unit k c hx with
    | .LIM, h => getElem?_set_congr h _ _
    | .BQ, h | .RIAA, h | .SAT, h | .HF, h => h⟩

/-- Two effects are the same refusal, or complete in states that agree. -/
inductive SameEffect (x : Option (UnitKind × BitVec 8)) (s t : BlockState α) : Effect α → Effect α → Prop where
  | refused (r : Reason α) : SameEffect x s t (.error r) (.error r)
  | completed {s' t' : BlockState α} (h : Agree x s t s' t') : SameEffect x s t (.ok s') (.ok t')

/-- Equal checks are followed by effects that agree. -/
theorem SameEffect.checked {A : Type} {c c' : Except Refusal A} {f g : A → Effect α} (hc : c = c')
    (h : ∀ a, SameEffect x s t (f a) (g a)) : SameEffect x s t (checked c f) (checked c' g) := by
  subst hc
  cases c with
  | error r => exact .refused _
  | ok a => exact h a

theorem SameEffect.eq_error {e e' : Effect α} (h : SameEffect x s t e e') {r : Reason α} (he : e = .error r) :
    e' = .error r := by
  cases h with
  | refused => exact he
  | completed => cases he

theorem SameEffect.exists_ok {e e' : Effect α} (h : SameEffect x s t e e') (he : e = .ok s') :
    ∃ t', e' = .ok t' ∧ Agree x s t s' t' := by
  cases h with
  | refused => cases he
  | completed h => cases he; exact ⟨_, rfl, h⟩

end

/-! ### Checks on states that agree -/

section
variable {U : Type} {us vs : List U} {ch : BitVec 8} {k : UnitKind} {V : U → Bool} {n : BitVec 16} {s t : BlockState α}

theorem instanceAt_congr (h : us[ch.toNat]? = vs[ch.toNat]?) : instanceAt us ch = instanceAt vs ch := by
  rw [instanceAt, instanceAt, h]

theorem constructedAt_congr (h : us[ch.toNat]? = vs[ch.toNat]?) :
    constructedAt k V us ch = constructedAt k V vs ch := by
  rw [constructedAt, constructedAt, instanceAt_congr h]

theorem requireLength_congr (hcfg : s.cfg = t.cfg) : requireLength s n = requireLength t n := by
  rw [requireLength, requireLength, hcfg]

theorem requireIndex_congr (hcfg : s.cfg = t.cfg) : requireIndex s n = requireIndex t n := by
  rw [requireIndex, requireIndex, hcfg]

theorem readBlock_congr (hmem : s.mem = t.mem) : readBlock s n = readBlock t n := by
  rw [readBlock, readBlock, hmem]

theorem plainBlock_congr (hcfg : s.cfg = t.cfg) (hmem : s.mem = t.mem) : plainBlock n s = plainBlock n t := by
  rw [plainBlock, plainBlock, requireLength_congr hcfg, readBlock_congr hmem]

theorem blockOperands_congr (hcfg : s.cfg = t.cfg) (hmem : s.mem = t.mem) (h : us[ch.toNat]? = vs[ch.toNat]?) :
    blockOperands k V us ch n s = blockOperands k V vs ch n t := by
  rw [blockOperands, blockOperands, instanceAt_congr h, requireLength_congr hcfg, readBlock_congr hmem]

end

/-- A command has the same effect on two blocks that agree on configuration, buffers and the instance
addressed. -/
theorem execute_sameEffect {i : Instr} {opnd : Nat → α} {s t : BlockState α} (hcfg : s.cfg = t.cfg)
    (hmem : s.mem = t.mem) (hunit : ∀ k ch, addressed i = some (k, ch) → BlockState.SameUnit k ch.toNat s t) :
    SameEffect (addressed i) s t (execute N i opnd s) (execute N i opnd t) := by
  have hstart : Agree (addressed i) s t s t := .start hmem hunit
  cases i with
  | nop => exact .completed hstart
  | wrin => exact .checked (requireIndex_congr hcfg) fun _ => .completed (hstart.writeIn _ _)
  | rdout j =>
    refine .checked (requireIndex_congr hcfg) fun _ => ?_
    rw [hmem]
    cases Buffer.read t.mem.outBuf j.toNat with
    | none => exact .refused _
    | some v => exact .completed (hstart.respond v)
  | bqProc ch =>
    exact .checked (constructedAt_congr (hunit .BQ ch rfl)) fun _ => .completed ((hstart.setBq _ _).respond _)
  | bqProcb ch =>
    exact .checked (blockOperands_congr hcfg hmem (hunit .BQ ch rfl)) fun _ =>
      .completed ((hstart.setBq _ _).writeOut _)
  | bqReset ch => exact .checked (constructedAt_congr (hunit .BQ ch rfl)) fun _ => .completed (hstart.setBq _ _)
  | bqSetc ch => exact .checked (instanceAt_congr (hunit .BQ ch rfl)) fun _ => .completed (hstart.setBq _ _)
  | bqLowpass ch =>
    refine .checked (instanceAt_congr (hunit .BQ ch rfl)) fun _ => ?_
    split_ifs
    · exact .completed (hstart.setBq _ _)
    · exact .refused _
  | riaaProc ch =>
    exact .checked (constructedAt_congr (hunit .RIAA ch rfl)) fun _ => .completed ((hstart.setRiaa _ _).respond _)
  | riaaProcb ch =>
    exact .checked (blockOperands_congr hcfg hmem (hunit .RIAA ch rfl)) fun _ =>
      .completed ((hstart.setRiaa _ _).writeOut _)
  | riaaReset ch => exact .checked (constructedAt_congr (hunit .RIAA ch rfl)) fun _ => .completed (hstart.setRiaa _ _)
  | riaaNew ch =>
    refine .checked (instanceAt_congr (hunit .RIAA ch rfl)) fun _ => ?_
    rw [hcfg]
    exact .completed (hstart.setRiaa _ _)
  | satProc ch => exact .checked (constructedAt_congr (hunit .SAT ch rfl)) fun _ => .completed (hstart.respond _)
  | satProcb ch =>
    exact .checked (blockOperands_congr hcfg hmem (hunit .SAT ch rfl)) fun _ => .completed (hstart.writeOut _)
  | satSet ch => exact .checked (instanceAt_congr (hunit .SAT ch rfl)) fun _ => .completed (hstart.setSat _ _)
  | hfProc ch =>
    exact .checked (constructedAt_congr (hunit .HF ch rfl)) fun _ => .completed ((hstart.setHf _ _).respond _)
  | hfProcb ch =>
    exact .checked (blockOperands_congr hcfg hmem (hunit .HF ch rfl)) fun _ =>
      .completed ((hstart.setHf _ _).writeOut _)
  | hfReset ch => exact .checked (constructedAt_congr (hunit .HF ch rfl)) fun _ => .completed (hstart.setHf _ _)
  | hfSet ch => exact .checked (instanceAt_congr (hunit .HF ch rfl)) fun _ => .completed (hstart.setHf _ _)
  | limProc ch =>
    refine .checked (constructedAt_congr (hunit .LIM ch rfl)) fun _ => ?_
    rw [hcfg]
    exact .completed ((hstart.setLim _ _).respond _)
  | limProcb ch =>
    refine .checked (blockOperands_congr hcfg hmem (hunit .LIM ch rfl)) fun _ => ?_
    rw [hcfg]
    exact .completed ((hstart.setLim _ _).writeOut _)
  | limReset ch => exact .checked (constructedAt_congr (hunit .LIM ch rfl)) fun _ => .completed (hstart.setLim _ _)
  | limNew ch => exact .checked (instanceAt_congr (hunit .LIM ch rfl)) fun _ => .completed (hstart.setLim _ _)
  | vaRms | vaCrest | vaTilt | vaScore =>
    exact .checked (plainBlock_congr hcfg hmem) fun _ => .completed (hstart.respond _)
  | mix | db2lin | sclipa => exact .completed (hstart.respond _)
  | legacyProcb => exact .checked (plainBlock_congr hcfg hmem) fun _ => .completed (hstart.writeOut _)

end Sys2Proof.Machine

open Sys2Proof Sys2Proof.Machine

/-- Settles O16: every list of instances is one reset instance repeated, with its valid bit at 0. -/
theorem resetContents : Obligations.ResetContents := by
  refine ⟨rfl, fun cfg port resp => ⟨fun k c => validBit_afterReset k c cfg port resp, ?_, ?_, ?_, ?_,
    fun _ => ⟨rfl, rfl⟩, fun i k ch hneeds hch hlength => ?_⟩⟩
  · exact fun u hu => by rw [List.eq_of_mem_replicate hu]; rfl
  · exact fun u hu => by rw [List.eq_of_mem_replicate hu]; rfl
  · exact fun u hu => by rw [List.eq_of_mem_replicate hu]; rfl
  · exact fun u hu => by rw [List.eq_of_mem_replicate hu]; rfl
  · exact exec_of_not_valid hneeds (by rw [validBit_afterReset, if_pos hch]) hlength

/-- Settles O34: the checks and the effect of a command are functions of what the two states agree on. -/
theorem nothingElseIsRead : Obligations.NothingElseIsRead := by
  intro i s t hcfg hmem hunit
  have heffect := execute_sameEffect (N := binary32) (opnd := operandAt (operandsOf i)) hcfg hmem
    fun k ch h => sameUnit_iff.1 (hunit k ch h)
  rw [exec_eq_perform, exec_eq_perform]
  refine ⟨fun r hr => ?_, fun s' hs' => ?_⟩
  · rw [perform_refused_iff] at hr ⊢
    rcases hr with hr | ⟨cutoff, q, hr, hdomain⟩
    · exact .inl (heffect.eq_error hr)
    · exact .inr ⟨cutoff, q, heffect.eq_error hr, hdomain⟩
  · obtain ⟨b, hb, rfl⟩ := perform_next_iff.1 hs'
    obtain ⟨b', hb', ⟨out, hout, hout'⟩, hmem', hunit'⟩ := heffect.exists_ok hb
    exact ⟨_, out, perform_next_iff.2 ⟨b', hb', rfl⟩, hout, hout', hmem', fun k ch h => sameUnit_iff.2 (hunit' k ch h)⟩

end

section
/-! PROOF. Which element of the sample buffers a command writes, read off `Completion`, and which unwritten element refuses
it, read off the reasons a command can be refused for, said once (`Refused`) (R51, R53, R161, R202, R203). -/

namespace Sys2Proof.Machine

/-! ### What a completed command writes -/

section
variable {α : Type} {p : α → Prop} {i : Instr} {blockMax j : Nat} {m m' : Memory α}

/-- An element of `IN` that is not the one a WRIN names reads as before. -/
theorem MemoryChange.read_inBuf_eq (h : MemoryChange p i blockMax m m') (hj : ∀ ix v, i = .wrin ix v → ix.toNat ≠ j) :
    Buffer.read m'.inBuf j = Buffer.read m.inBuf j := by
  cases h with
  | untouched => rfl
  | wroteIn hi => rw [Buffer.read_write, if_neg (hj _ _ hi).symm]
  | wroteOut => rfl

/-- An element of `OUT` that is not below the length of a block command reads as before. -/
theorem MemoryChange.read_outBuf_eq (h : MemoryChange p i blockMax m m')
    (hj : writesOut i = true → ∀ n, lengthOf i = some n → n.toNat ≤ j) :
    Buffer.read m'.outBuf j = Buffer.read m.outBuf j := by
  cases h with
  | untouched => rfl
  | wroteIn => rfl
  | wroteOut hi hlength hys =>
    have hn := hj hi _ hlength
    rw [Buffer.read_writeFrom, if_neg (by omega)]

end

/-! ### Why a command is refused -/

/-- Reading `n` elements from index 0 fails exactly at the least unwritten one (R53, R203). -/
theorem Buffer.readFrom_zero_error_iff {α : Type} {b : Buffer α} {n j : Nat} :
    Buffer.readFrom b 0 n = .error j ↔
      j < n ∧ Buffer.read b j = none ∧ ∀ j' < j, Buffer.read b j' ≠ none := by
  simp [Buffer.readFrom_error_iff, Buffer.written, Option.isSome_iff_ne_none]

/-- Every reason a command can be refused for: what it asks for that the state does not give (R102, R202, R203, R214,
R215), and for an instance not constructed or an element not written, that the checks before this one passed (R218). -/
inductive Refused (i : Instr) (s : State) : Refusal → Prop where
  | noInstance {k : UnitKind} {ch : BitVec 8} (h : addressed i = some (k, ch)) (hV : validBit k ch.toNat s = none) :
    Refused i s (.outOfRange (.channel ch.toNat))
  | noElement {j : BitVec 16} (h : indexOf i = some j) (hj : s.cfg.blockMax ≤ j.toNat) :
    Refused i s (.outOfRange (.index j.toNat))
  | tooLong {n : BitVec 16} (h : lengthOf i = some n) (hn : s.cfg.blockMax < n.toNat) :
    Refused i s (.outOfRange (.length n.toNat))
  | notConstructed {k : UnitKind} {ch : BitVec 8} (h : needsConstructed i = some (k, ch))
    (hV : validBit k ch.toNat s = some false) (hlength : ∀ n, lengthOf i = some n → n.toNat ≤ s.cfg.blockMax) :
    Refused i s (.notConstructed k ch.toNat)
  | unwrittenIn {n : BitVec 16} {j : Nat} (h : lengthOf i = some n) (hn : n.toNat ≤ s.cfg.blockMax)
    (hV : ∀ k ch, needsConstructed i = some (k, ch) → validBit k ch.toNat s = some true)
    (hread : Buffer.readFrom s.mem.inBuf 0 n.toNat = .error j) : Refused i s (.unwrittenElement .IN j)
  | unwrittenOut {j : BitVec 16} (h : i = .rdout j) (hj : j.toNat < s.cfg.blockMax)
    (hread : Buffer.read s.mem.outBuf j.toNat = none) : Refused i s (.unwrittenElement .OUT j.toNat)
  | lowpassDomain {ch : BitVec 8} {cutoff q : Word} (h : i = .bqLowpass ch cutoff q)
    (hdomain : lowpassDomain binary32 cutoff q = false) : Refused i s (.lowpassDomain cutoff q)

/-- A command is refused by its check, or the check passes and its effect is a refusal. -/
theorem perform_checked_refused {A : Type} {s : State} {check : BlockState Word → Except Refusal A}
    {effect : BlockState Word → A → Effect Word} {r : Refusal}
    (h : s.perform (fun b => checked (check b) (effect b)) = .refused r) :
    check s.toBlockState = .error r ∨
      ∃ a, check s.toBlockState = .ok a ∧ s.perform (fun b => effect b a) = .refused r := by
  rw [State.perform] at h
  cases hc : check s.toBlockState with
  | error e => rw [hc] at h; cases h; exact .inl rfl
  | ok a => rw [hc] at h; exact .inr ⟨a, rfl, h⟩

/-- A command whose effect always completes is refused by its check alone. -/
theorem check_error_of_refused {A : Type} {s : State} {check : BlockState Word → Except Refusal A}
    {effect : BlockState Word → A → Effect Word} {r : Refusal}
    (h : s.perform (fun b => checked (check b) (effect b)) = .refused r)
    (heffect : ∀ a, ∃ t, s.perform (fun b => effect b a) = .next t) : check s.toBlockState = .error r := by
  rcases perform_checked_refused h with h | ⟨a, -, ha⟩
  · exact h
  · obtain ⟨t, ht⟩ := heffect a
    rw [ht] at ha
    cases ha

/-! Each check fails only for reasons that `Refused` lists. -/

section
variable {i : Instr} {s : State} {r : Refusal} {U : Type} {k : UnitKind} {V : U → Bool} {us : List U} {ch : BitVec 8}
  {n : BitVec 16}

theorem Refused.of_requireIndex {j : BitVec 16} (hj : indexOf i = some j)
    (h : requireIndex s.toBlockState j = .error r) : Refused i s r := by
  obtain ⟨hmax, rfl⟩ := requireIndex_error_iff.1 h
  exact .noElement hj hmax

theorem Refused.of_instanceAt (hk : addressed i = some (k, ch)) (hV : validBit k ch.toNat s = (us[ch.toNat]?).map V)
    (h : instanceAt us ch = .error r) : Refused i s r := by
  cases hu : us[ch.toNat]? with
  | none =>
    rw [instanceAt_none hu] at h
    cases h
    exact .noInstance hk (by rw [hV, hu]; rfl)
  | some u => rw [instanceAt_some hu] at h; cases h

theorem Refused.of_constructedAt (hk : needsConstructed i = some (k, ch))
    (hV : validBit k ch.toNat s = (us[ch.toNat]?).map V) (hlength : lengthOf i = none)
    (h : constructedAt k V us ch = .error r) : Refused i s r := by
  rcases constructedAt_error_iff.1 h with ⟨hu, rfl⟩ | ⟨u, hu, hVu, rfl⟩
  · exact .noInstance (addressed_of_needsConstructed hk).1 (by rw [hV, hu]; rfl)
  · exact .notConstructed hk (by rw [hV, hu, Option.map_some, hVu]) (by simp [hlength])

theorem Refused.of_blockOperands (hk : needsConstructed i = some (k, ch))
    (hV : validBit k ch.toNat s = (us[ch.toNat]?).map V) (hlength : lengthOf i = some n)
    (h : blockOperands k V us ch n s.toBlockState = .error r) : Refused i s r := by
  rcases blockOperands_error_iff.1 h with
    ⟨hu, rfl⟩ | ⟨u, hu, ⟨hn, rfl⟩ | ⟨hn, hVu, rfl⟩ | ⟨hn, hVu, j, hread, rfl⟩⟩
  · exact .noInstance (addressed_of_needsConstructed hk).1 (by rw [hV, hu]; rfl)
  · exact .tooLong hlength hn
  · exact .notConstructed hk (by rw [hV, hu, Option.map_some, hVu]) (by simp [hlength, hn])
  · refine .unwrittenIn hlength hn (fun k' ch' hk' => ?_) hread
    cases hk.symm.trans hk'
    rw [hV, hu, Option.map_some, hVu]

theorem Refused.of_plainBlock (hk : needsConstructed i = none) (hlength : lengthOf i = some n)
    (h : plainBlock n s.toBlockState = .error r) : Refused i s r := by
  rcases plainBlock_error_iff.1 h with ⟨hn, rfl⟩ | ⟨hn, j, hread, rfl⟩
  · exact .tooLong hlength hn
  · exact .unwrittenIn hlength hn (by simp [hk]) hread

end

/-- RDOUT is refused for its index, or for the element it reads (R202). -/
theorem refused_of_rdout {s : State} {j : BitVec 16} {r : Refusal} (h : s.perform (runRdout j) = .refused r) :
    Refused (.rdout j) s r := by
  rcases perform_checked_refused h with h | ⟨_, hj, h⟩
  · exact .of_requireIndex rfl h
  · cases hread : Buffer.read s.mem.outBuf j.toNat with
    | none =>
      rw [State.perform, hread] at h
      cases h
      exact .unwrittenOut rfl (requireIndex_ok_iff.1 hj) hread
    | some v => rw [State.perform, hread] at h; cases h

/-- BQ.LOWPASS is refused for its channel, or outside its domain (R102). -/
theorem refused_of_bqLowpass {s : State} {ch : BitVec 8} {cutoff q : Word} {r : Refusal}
    (h : s.perform (runBqLowpass binary32 ch cutoff q) = .refused r) : Refused (.bqLowpass ch cutoff q) s r := by
  rcases perform_checked_refused h with h | ⟨_, -, h⟩
  · exact .of_instanceAt (k := .BQ) rfl rfl h
  · cases hdomain : lowpassDomain binary32 cutoff q with
    | false =>
      rw [State.perform, hdomain] at h
      cases h
      exact .lowpassDomain rfl hdomain
    | true => rw [State.perform, hdomain] at h; cases h

/-- Every reason a command can be refused for (R211). -/
theorem refused_of_exec {i : Instr} {s : State} {r : Refusal} (h : exec i s = .refused r) : Refused i s r := by
  rw [exec_eq_perform] at h
  match i, h with
  | .nop, h | .mix .., h | .db2lin _, h | .sclipa _, h => cases h
  | .wrin .., h => exact .of_requireIndex rfl (check_error_of_refused h fun _ => ⟨_, rfl⟩)
  | .rdout _, h => exact refused_of_rdout h
  | .bqLowpass .., h => exact refused_of_bqLowpass h
  | .bqSetc .., h | .riaaNew .., h | .satSet .., h | .hfSet .., h | .limNew .., h =>
    exact .of_instanceAt rfl rfl (check_error_of_refused h fun _ => ⟨_, rfl⟩)
  | .bqProc .., h | .bqReset _, h | .riaaProc .., h | .riaaReset _, h | .satProc .., h
  | .hfProc .., h | .hfReset _, h | .limProc .., h | .limReset _, h =>
    exact .of_constructedAt rfl rfl rfl (check_error_of_refused h fun _ => ⟨_, rfl⟩)
  | .bqProcb .., h | .riaaProcb .., h | .satProcb .., h | .hfProcb .., h | .limProcb .., h =>
    have hcheck := check_error_of_refused h fun _ => ⟨_, rfl⟩
    exact .of_blockOperands rfl rfl rfl hcheck
  | .vaRms _, h | .vaCrest _, h | .vaTilt _, h | .vaScore _, h | .legacyProcb .., h =>
    exact .of_plainBlock rfl rfl (check_error_of_refused h fun _ => ⟨_, rfl⟩)

/-! ### Commands that read an unwritten element -/

section
variable {α U : Type} {k : UnitKind} {V : U → Bool} {us : List U} {ch : BitVec 8} {n : BitVec 16} {s : BlockState α}
  {j : Nat}

theorem checked_blockOperands_of_unwritten {f : U × List α → Effect α} (hn : n.toNat ≤ s.cfg.blockMax)
    (hV : (us[ch.toNat]?).map V = some true) (hread : Buffer.readFrom s.mem.inBuf 0 n.toNat = .error j) :
    checked (blockOperands k V us ch n s) f = .error (.plain (.unwrittenElement .IN j)) := by
  obtain ⟨u, hu, hVu⟩ := Option.map_eq_some_iff.1 hV
  rw [blockOperands_error_iff.2 (.inr ⟨u, hu, .inr (.inr ⟨hn, hVu, j, hread, rfl⟩)⟩), checked_error]

theorem checked_plainBlock_of_unwritten {f : List α → Effect α} (hn : n.toNat ≤ s.cfg.blockMax)
    (hread : Buffer.readFrom s.mem.inBuf 0 n.toNat = .error j) :
    checked (plainBlock n s) f = .error (.plain (.unwrittenElement .IN j)) := by
  rw [plainBlock_error_iff.2 (.inr ⟨hn, j, hread, rfl⟩), checked_error]

end

/-- A block or analyzer command whose length fits, addressed to a constructed instance if to any, is refused for the first
element of `IN[0..n-1]` that is unwritten (R161, R203). -/
theorem exec_of_unwritten {i : Instr} {s : State} {n : BitVec 16} {j : Nat} (hlength : lengthOf i = some n)
    (hn : n.toNat ≤ s.cfg.blockMax)
    (hV : ∀ k ch, needsConstructed i = some (k, ch) → validBit k ch.toNat s = some true)
    (hread : Buffer.readFrom s.mem.inBuf 0 n.toNat = .error j) : exec i s = .refused (.unwrittenElement .IN j) := by
  rw [exec_eq_perform, perform_refused_iff]
  left
  match i, hlength with
  | .bqProcb .., rfl | .riaaProcb .., rfl | .satProcb .., rfl | .hfProcb .., rfl | .limProcb .., rfl =>
    exact checked_blockOperands_of_unwritten hn (hV _ _ rfl) hread
  | .vaRms _, rfl | .vaCrest _, rfl | .vaTilt _, rfl | .vaScore _, rfl | .legacyProcb .., rfl =>
    exact checked_plainBlock_of_unwritten hn hread

/-- RDOUT of an element that is unwritten is refused for it (R202). -/
theorem exec_rdout_of_unwritten {s : State} {j : BitVec 16} (hj : j.toNat < s.cfg.blockMax)
    (hread : Buffer.read s.mem.outBuf j.toNat = none) :
    exec (.rdout j) s = .refused (.unwrittenElement .OUT j.toNat) := by
  rw [exec_eq_perform, perform_refused_iff]
  left
  show runRdout j s.toBlockState = _
  rw [runRdout, requireIndex_ok_iff.2 hj, checked_ok, hread]

end Sys2Proof.Machine

open Sys2Proof Sys2Proof.Machine

/-- Settles O35: the one change a completed command makes to the buffers is read at the index. -/
theorem memoryFrame : Obligations.MemoryFrame := by
  intro i s t h
  obtain ⟨hc, -⟩ := exec_completion_any h
  exact ⟨fun _ => hc.mem.read_inBuf_eq, fun _ => hc.mem.read_outBuf_eq⟩

/-- Settles O12: reading the block fails at its least unwritten element, and of the reasons for a refusal two name an
element. -/
theorem unwrittenRefused : Obligations.UnwrittenRefused := by
  intro s i
  refine ⟨fun n j hlength hn hV hj hnone hleast => ?_, ?_, fun b j h => ?_⟩
  · exact exec_of_unwritten hlength hn hV (Buffer.readFrom_zero_error_iff.2 ⟨hj, hnone, hleast⟩)
  · rintro j rfl hj hnone
    exact exec_rdout_of_unwritten hj hnone
  · cases refused_of_exec h with
    | unwrittenIn hlength _ _ hread =>
      obtain ⟨hj, hnone, -⟩ := Buffer.readFrom_zero_error_iff.1 hread
      exact .inl ⟨rfl, ⟨_, hlength, hj⟩, hnone⟩
    | unwrittenOut hi _ hread => exact .inr ⟨rfl, ⟨_, hi, rfl⟩, hread⟩

end

section
/-! PROOF. The opcode table read as a code (R70 to R79): what each row's `make` column owes to its other columns is checked
once, row by row (`OpRow.Coherent`), and both directions of the round trip, `CW & mask == match` and the wait for operand
words are read off it. -/

namespace Sys2Proof

open Sys2Proof.Machine

/-! ### The rows of the table -/

/-- The `ch` field of an instruction of this format: 0 where the format reserves it (R72). -/
def Format.channel : Format → BitVec 8 → BitVec 8
  | .UC, ch | .UB, ch => ch
  | .GX, _ | .GP, _ => 0

/-- The `imm` field of an instruction of this format: 0 where the format reserves it (R72). -/
def Format.immediate : Format → BitVec 16 → BitVec 16
  | .UB, imm | .GX, imm => imm
  | .UC, _ | .GP, _ => 0

/-- Where the reserved fields are zero, a command word has just the fields of its format (R78). -/
theorem Format.fields_of_reservedZero {f : Format} {cw : Word} (h : f.reservedZero cw = true) :
    f.channel (chField cw) = chField cw ∧ f.immediate (immField cw) = immField cw := by
  cases f <;> simp_all [Format.reservedZero, Format.channel, Format.immediate]

/-- A row of the table is the one its opcode selects, and the instructions it makes have its opcode, the fields of its
format, and as operand words the first ones that follow, as many as it asks for; the checks of the fields read no operand
(R76, R77). -/
structure OpRow.Coherent (row : OpRow) : Prop where
  selected : rowOf row.op = some row
  opOf_make (ch : BitVec 8) (imm : BitVec 16) (o : Nat → Word) : opOf (row.make ch imm o) = row.op
  chOf_make (ch : BitVec 8) (imm : BitVec 16) (o : Nat → Word) : chOf (row.make ch imm o) = row.format.channel ch
  immOf_make (ch : BitVec 8) (imm : BitVec 16) (o : Nat → Word) :
    immOf (row.make ch imm o) = row.format.immediate imm
  operandsOf_make (ch : BitVec 8) (imm : BitVec 16) (o : Nat → Word) :
    operandsOf (row.make ch imm o) = (List.range row.operands).map o
  rangeRefusal_make (cfg : Config Word) (ch : BitVec 8) (imm : BitVec 16) (o o' : Nat → Word) :
    rangeRefusal cfg (row.make ch imm o) = rangeRefusal cfg (row.make ch imm o')

theorem OpRow.coherent {row : OpRow} (h : row ∈ opcodeTable) : row.Coherent := by
  fin_cases h <;>
    exact ⟨rfl, fun _ _ _ => rfl, fun _ _ _ => rfl, fun _ _ _ => rfl, fun _ _ _ => rfl, fun _ _ _ _ _ => rfl⟩

/-! ### Fields of command words -/

theorem commandWord_inj {op op' ch ch' : BitVec 8} {imm imm' : BitVec 16} :
    commandWord op ch imm = commandWord op' ch' imm' ↔ op = op' ∧ ch = ch' ∧ imm = imm' := by
  refine ⟨fun h => ⟨?_, ?_, ?_⟩, fun ⟨hop, hch, himm⟩ => by rw [hop, hch, himm]⟩
  · simpa using congrArg opField h
  · simpa using congrArg chField h
  · simpa using congrArg immField h

theorem commandWord_and (op op' ch ch' : BitVec 8) (imm imm' : BitVec 16) :
    commandWord op ch imm &&& commandWord op' ch' imm' = commandWord (op &&& op') (ch &&& ch') (imm &&& imm') := by
  have h : (op ++ ch ++ imm) &&& (op' ++ ch' ++ imm') = (op &&& op') ++ (ch &&& ch') ++ (imm &&& imm') := by
    rw [BitVec.and_append, BitVec.and_append]
  exact h

theorem OpRow.matchWord_eq (row : OpRow) : row.matchWord = commandWord row.op 0#8 0#16 := by
  rw [OpRow.matchWord, commandWord, BitVec.append_assoc]
  rfl

/-- `CW & mask == match` compares the opcode and asks the reserved fields to be zero (R72). -/
theorem and_mask_eq_matchWord_iff {cw : Word} {row : OpRow} :
    cw &&& row.format.mask = row.matchWord ↔ opField cw = row.op ∧ row.format.reservedZero cw = true := by
  have hUC : Format.UC.mask = commandWord (.allOnes 8) 0#8 (.allOnes 16) := rfl
  have hUB : Format.UB.mask = commandWord (.allOnes 8) 0#8 0#16 := rfl
  have hGX : Format.GX.mask = commandWord (.allOnes 8) (.allOnes 8) 0#16 := rfl
  have hGP : Format.GP.mask = commandWord (.allOnes 8) (.allOnes 8) (.allOnes 16) := rfl
  conv_lhs => rw [← commandWord_fields cw, row.matchWord_eq]
  cases row.format <;>
    simp only [hUC, hUB, hGX, hGP, commandWord_and, commandWord_inj, BitVec.and_allOnes, BitVec.and_zero] <;>
    simp [Format.reservedZero]

/-- A word decodes exactly as some row of the table makes of it, the row whose masked bits it has (R72, R77). -/
theorem decode_ok_iff_mask {cw : Word} {ops : List Word} {i : Instr} :
    decode cw ops = .ok i ↔
      ∃ row ∈ opcodeTable, cw &&& row.format.mask = row.matchWord ∧
        i = row.make (chField cw) (immField cw) (operandAt ops) := by
  simp only [and_mask_eq_matchWord_iff]
  constructor
  · intro h
    obtain ⟨row, hrow, hzero, hi⟩ := decode_ok h
    obtain ⟨hmem, hop⟩ := rowOf_some hrow
    exact ⟨row, hmem, ⟨hop.symm, hzero⟩, hi⟩
  · rintro ⟨row, hmem, ⟨hop, hzero⟩, rfl⟩
    exact decode_of_rowOf (hop ▸ (OpRow.coherent hmem).selected) hzero

/-- Reading `n` operands off words that are all there takes the first `n` (R73). -/
theorem map_operandAt_range {ops : List Word} {n : Nat} (h : n ≤ ops.length) :
    (List.range n).map (operandAt ops) = ops.take n := by
  refine List.ext_getElem (by simp [h]) fun k hk _ => ?_
  have hk' : k < ops.length := by simp at hk; omega
  simp [operandAt, hk']

/-- What a row makes of a word that matches it is encoded by that word (R71). -/
theorem encodeHead_make {cw : Word} {row : OpRow} {o : Nat → Word} (hmem : row ∈ opcodeTable)
    (hmatch : cw &&& row.format.mask = row.matchWord) :
    encodeHead (row.make (chField cw) (immField cw) o) = cw := by
  have hrow := OpRow.coherent hmem
  obtain ⟨hop, hzero⟩ := and_mask_eq_matchWord_iff.1 hmatch
  obtain ⟨hch, himm⟩ := Format.fields_of_reservedZero hzero
  rw [encodeHead, hrow.opOf_make, hrow.chOf_make, hrow.immOf_make, hch, himm, ← hop, commandWord_fields]

end Sys2Proof

open Sys2Proof Sys2Proof.Machine

/-- Settles O1: the row under the instruction's opcode makes it again, and asks for its operand words. -/
theorem decodeOfEncode : Obligations.DecodeOfEncode := by
  intro i more
  obtain ⟨row, hrow, hoperands, -⟩ := Laws.EncodeShape.holds i
  refine ⟨decode_encodeHead i more, ?_⟩
  rw [encodeHead, opField_commandWord, operandCount, hrow]
  exact hoperands

/-- Settles O2: the word matches the row that made the instruction, whose operands are the first words that follow. -/
theorem encodeOfDecode : Obligations.EncodeOfDecode := by
  intro cw ops i h hlength
  obtain ⟨row, hmem, hmatch, rfl⟩ := decode_ok_iff_mask.1 h
  have hoperands := (OpRow.coherent hmem).operandsOf_make (chField cw) (immField cw) (operandAt ops)
  rw [encode, encodeHead_make hmem hmatch, hoperands]
  rw [hoperands, List.length_map, List.length_range] at hlength
  rw [List.length_map, List.length_range, map_operandAt_range hlength]

/-- Settles O3: a match compares the opcode, under which the table has one row. -/
theorem maskMatchSelectsRow : Obligations.MaskMatchSelectsRow := by
  refine ⟨⟨rfl, rfl, rfl, rfl⟩, fun cw ops row hmem hmatch => ?_, fun cw ops i h => decode_ok_iff_mask.1 h,
    fun cw r hr r' hr' hmatch hmatch' => ?_⟩
  · exact decode_ok_iff_mask.2 ⟨row, hmem, hmatch, rfl⟩
  · have hop : r.op = r'.op :=
      (and_mask_eq_matchWord_iff.1 hmatch).1.symm.trans (and_mask_eq_matchWord_iff.1 hmatch').1
    have hrow : some r = some r' := by
      rw [← (OpRow.coherent hr).selected, ← (OpRow.coherent hr').selected, hop]
    rw [Option.some.inj hrow]

/-- Settles O4: the decoder, run on each word. -/
theorem decodeSanity : Obligations.DecodeSanity :=
  ⟨rfl, rfl, rfl, rfl, rfl, rfl, rfl, rfl, rfl, rfl⟩

end

section
/-! PROOF. While operand words are missing, the command word alone decides what a step does (R77, logs 3 and 4). -/

namespace Sys2Proof.Machine

/-- The operand words do not decide whether a command word decodes, to which command, and whether its fields are in range:
they only fill the operands in (R77). -/
theorem decode_with_other_operands {cw : Word} {ops : List Word} {i : Instr} (h : decode cw ops = .ok i)
    (ops' : List Word) :
    ∃ j, decode cw ops' = .ok j ∧ (operandsOf j).length = (operandsOf i).length ∧
      ∀ cfg : Config Word, rangeRefusal cfg j = rangeRefusal cfg i := by
  obtain ⟨row, hmem, hmatch, rfl⟩ := decode_ok_iff_mask.1 h
  have hrow := OpRow.coherent hmem
  refine ⟨_, decode_ok_iff_mask.2 ⟨row, hmem, hmatch, rfl⟩, ?_, fun cfg => hrow.rangeRefusal_make cfg _ _ _ _⟩
  simp only [hrow.operandsOf_make, List.length_map]

/-- A command whose fields are in range and whose operand words have not all arrived is waited for, unless a reset stands
after those that have (logs 3, 4). -/
theorem fetchCommand_of_missing {cfg : Config Word} {cw : Word} {rest : List HostEvent} {i : Instr}
    (hdecode : decode cw (leadingWords rest) = .ok i) (hrange : rangeRefusal cfg i = none)
    (hmissing : (leadingWords rest).length < (operandsOf i).length) :
    fetchCommand cfg cw rest =
      if (leadingWords rest).length < rest.length then .refuse .commandSplitByReset else .idle := by
  simp only [fetchCommand, hdecode, hrange, if_pos hmissing]

/-- The first words of a well-formed command, with no further word before the next reset (logs 3, 4). -/
theorem fetchCommand_encode_take {cfg : Config Word} {i : Instr} {m : Nat} {tail : List HostEvent}
    (hwf : i.wf cfg = true) (hm : m < (operandsOf i).length) (htail : leadingWords tail = []) :
    fetchCommand cfg (encodeHead i) (((operandsOf i).take m).map HostEvent.word ++ tail) =
      if tail = [] then .idle else .refuse .commandSplitByReset := by
  obtain ⟨hchannel, hindex, hlength, -⟩ := wf_iff.1 hwf
  have hwords : leadingWords (((operandsOf i).take m).map HostEvent.word ++ tail) = (operandsOf i).take m := by
    rw [leadingWords_words, htail, List.append_nil]
  obtain ⟨j, hdecode, hoperands, hrange⟩ := decode_with_other_operands (decode_encodeHead i []) ((operandsOf i).take m)
  have hinRange : rangeRefusal cfg j = none :=
    (hrange cfg).trans (rangeRefusal_eq_none.2 ⟨hchannel, hindex, hlength⟩)
  rw [← hwords] at hdecode
  rw [fetchCommand_of_missing hdecode hinRange (by rw [hwords, hoperands, List.length_take]; omega), hwords]
  cases tail <;> simp

end Sys2Proof.Machine

open Sys2Proof Sys2Proof.Machine

/-- Settles O6: the words that have arrived decode to a command of the same fields, whose operands are missing. -/
theorem portWaits : Obligations.PortWaits := by
  refine ⟨fun s hport => ?_, fun s i m hwf hm hport => ?_, fun s i m rest hwf hm hport => ?_⟩
  · rw [step, fetch, hport]
  · have hidle := fetchCommand_encode_take (tail := []) hwf hm rfl
    rw [List.append_nil] at hidle
    rw [step, fetch, hport]
    simp only [hidle, if_true]
  · have hsplit := fetchCommand_encode_take (tail := .reset :: rest) hwf hm rfl
    rw [step, fetch, hport]
    simp only [List.cons_append, hsplit, reduceCtorEq, if_false]

end

section
/-! PROOF. What a command puts on the response port, read off its checks and its effect (R74). -/

namespace Sys2Proof.Machine

variable {α : Type} {N : Numerics α} {s : BlockState α}

/-- An effect on `s` that, if it completes, puts one result on the response port, or none, as the flag says; earlier
results stay (R74). -/
inductive Responds (s : BlockState α) : Bool → Effect α → Prop where
  | refused (b : Bool) (r : Reason α) : Responds s b (.error r)
  | result {t : BlockState α} (v : α) (h : t.resp = s.resp := by rfl) : Responds s true (.ok (t.respond v))
  | silent {t : BlockState α} (h : t.resp = s.resp := by rfl) : Responds s false (.ok t)

theorem Responds.checked {A : Type} {b : Bool} {c : Except Refusal A} {f : A → Effect α} (hf : ∀ a, Responds s b (f a)) :
    Responds s b (checked c f) := by
  cases c with
  | error r => exact .refused b (.plain r)
  | ok a => exact hf a

theorem Responds.exists_result {t : BlockState α} (h : Responds s true (.ok t)) : ∃ v, t.resp = s.resp ++ [v] := by
  cases h with
  | result v h => exact ⟨v, congrArg (· ++ [v]) h⟩

theorem Responds.resp_eq {t : BlockState α} (h : Responds s false (.ok t)) : t.resp = s.resp := by
  cases h with
  | silent h => exact h

theorem execute_responds (i : Instr) (opnd : Nat → α) (s : BlockState α) :
    Responds s (hasResult i) (execute N i opnd s) :=
  match i with
  | .nop => .silent
  | .rdout j => .checked fun _ => by
      cases Buffer.read s.mem.outBuf j.toNat with
      | none => exact .refused _ _
      | some v => exact .result v
  | .bqLowpass .. => .checked fun _ => by
      split_ifs
      · exact .silent
      · exact .refused _ _
  | .mix .. | .db2lin _ | .sclipa _ => .result _
  | .bqProc .. | .riaaProc .. | .satProc .. | .hfProc .. | .limProc .. => .checked fun _ => .result _
  | .vaRms _ | .vaCrest _ | .vaTilt _ | .vaScore _ => .checked fun _ => .result _
  | .wrin .. | .bqSetc .. | .riaaNew .. | .satSet .. | .hfSet .. | .limNew .. => .checked fun _ => .silent
  | .bqReset _ | .riaaReset _ | .hfReset _ | .limReset _ => .checked fun _ => .silent
  | .bqProcb .. | .riaaProcb .. | .satProcb .. | .hfProcb .. | .limProcb .. | .legacyProcb .. =>
    .checked fun _ => .silent

/-- The opcodes of the commands with a result (R74, R76). -/
def resultOpcodes : List (BitVec 8) := [0x02, 0x10, 0x20, 0x30, 0x40, 0x50, 0x60, 0x61, 0x62, 0x63, 0x70, 0x71, 0x72]

theorem hasResult_eq_contains (i : Instr) : hasResult i = resultOpcodes.contains (opOf i) := by
  cases i <;> rfl

end Sys2Proof.Machine

open Sys2Proof Sys2Proof.Machine

/-- Settles O36: the machine's command is the command over binary32, and the column "res" is told from the opcode. -/
theorem responseFrame : Obligations.ResponseFrame := by
  intro i s t h
  rw [exec_eq_perform, perform_next_iff] at h
  obtain ⟨b, hb, rfl⟩ := h
  have hresponds := execute_responds (N := binary32) i (operandAt (operandsOf i)) s.toBlockState
  rw [hb] at hresponds
  refine ⟨fun hi => ?_, fun hi => ?_, ?_⟩
  · rw [hi] at hresponds
    exact hresponds.exists_result
  · rw [hi] at hresponds
    exact hresponds.resp_eq
  · rw [hasResult_eq_contains]
    exact List.contains_iff_mem

end

section
/-! PROOF. The biquad and the unit resets (R100 to R107, R126, R144, R154): each command is run once on the instance it
addresses, and the laws of the filter are about the element step alone. -/

namespace Sys2Proof.Machine

/-! ### Running one command on the machine -/

/-- A command word of the format UC, written with the shifts of R76's encodings; its `imm` field is zero (R72). -/
theorem encode_of_channel {i : Instr} {ch : BitVec 8} {w : Word} (op : BitVec 8) (hop : opOf i = op) (hch : chOf i = ch)
    (himm : immOf i = 0) (hw : op.setWidth 32 <<< 24 = w := by decide) :
    encode i = (w ||| ch.setWidth 32 <<< 16) :: operandsOf i := by
  rw [encode, encodeHead, hop, hch, himm, commandWord_eq_or, hw, BitVec.ofNat_eq_ofNat, BitVec.setWidth_zero,
    BitVec.or_zero]

/-- A command that completes on the block completes on the machine. -/
theorem exec_of_execute {i : Instr} {s : State} {b : BlockState Word}
    (h : execute binary32 i (operandAt (operandsOf i)) s.toBlockState = .ok b) :
    exec i s = .next { s with toBlockState := b } := by
  rw [exec_eq_perform]
  exact perform_next_iff.2 ⟨b, h, rfl⟩

/-- A command that completes hands its state to the commands after it. -/
theorem execAll_cons_of_next {i : Instr} {is : List Instr} {s t : State} (h : exec i s = .next t) :
    execAll (i :: is) s = execAll is t := by
  rw [execAll, h]

section
variable {s : State} {ch : BitVec 8}

theorem validBit_bq {u : BiquadUnit Word} {V : Bool} (hu : s.bq[ch.toNat]? = some u) (hV : u.V = V) :
    validBit .BQ ch.toNat s = some V := by rw [validBit, hu, Option.map_some, hV]

theorem validBit_riaa {u : RiaaUnit Word} {V : Bool} (hu : s.riaa[ch.toNat]? = some u) (hV : u.V = V) :
    validBit .RIAA ch.toNat s = some V := by rw [validBit, hu, Option.map_some, hV]

theorem validBit_hf {u : HfUnit Word} {V : Bool} (hu : s.hf[ch.toNat]? = some u) (hV : u.V = V) :
    validBit .HF ch.toNat s = some V := by rw [validBit, hu, Option.map_some, hV]

theorem validBit_lim {u : LimUnit Word} {V : Bool} (hu : s.lim[ch.toNat]? = some u) (hV : u.V = V) :
    validBit .LIM ch.toNat s = some V := by rw [validBit, hu, Option.map_some, hV]

/-! ### The biquad on the machine -/

theorem binary32_nat_two : binary32.nat 2 = 0x40000000 := F32.lit_two

theorem zeroed_binary32 : FilterState.zeroed binary32 = ⟨0, 0, 0, 0⟩ := by
  rw [FilterState.zeroed, binary32_nat_zero]

theorem BiquadUnit.construct_binary32 (c : FilterCoefficients Word) :
    BiquadUnit.construct binary32 c = { V := true, coeffs := c, state := ⟨0, 0, 0, 0⟩ } := by
  rw [BiquadUnit.construct, zeroed_binary32]

/-- BQ.SETC on an instance there is (R101). -/
theorem exec_bqSetc (b0 b1 b2 a1 a2 : Word) (hch : ch.toNat < s.bq.length) :
    exec (.bqSetc ch b0 b1 b2 a1 a2) s =
      .next { s with
        bq := s.bq.set ch.toNat { V := true, coeffs := ⟨b0, b1, b2, a1, a2⟩, state := ⟨0, 0, 0, 0⟩ } } := by
  rw [← BiquadUnit.construct_binary32]
  exact exec_of_execute (runBqSetc_ok_iff.2 ⟨_, List.getElem?_eq_getElem hch, rfl⟩)

/-- BQ.LOWPASS inside its domain (R102). -/
theorem exec_bqLowpass {cutoff q : Word} (hch : ch.toNat < s.bq.length)
    (hdomain : lowpassDomain binary32 cutoff q = true) :
    exec (.bqLowpass ch cutoff q) s = .next { s with
      bq := s.bq.set ch.toNat
        { V := true, coeffs := lowpassCoefficients binary32 cutoff q, state := ⟨0, 0, 0, 0⟩ } } := by
  rw [← BiquadUnit.construct_binary32]
  exact exec_of_execute (runBqLowpass_ok_iff.2 ⟨_, List.getElem?_eq_getElem hch, hdomain, rfl⟩)

/-- BQ.LOWPASS outside its domain (R102, R217). -/
theorem exec_bqLowpass_refused {cutoff q : Word} (hch : ch.toNat < s.bq.length)
    (hdomain : lowpassDomain binary32 cutoff q = false) :
    exec (.bqLowpass ch cutoff q) s = .refused (.lowpassDomain cutoff q) := by
  rw [exec_eq_perform, perform_refused_iff]
  refine .inr ⟨cutoff, q, ?_, rfl⟩
  show runBqLowpass binary32 ch cutoff q s.toBlockState = _
  rw [runBqLowpass, instanceAt_some (List.getElem?_eq_getElem hch), checked_ok, hdomain, if_neg Bool.false_ne_true]

/-- BQ.PROC on a constructed instance (R103). -/
theorem exec_bqProc {u : BiquadUnit Word} (x : Word) (hu : s.bq[ch.toNat]? = some u) (hV : u.V = true) :
    exec (.bqProc ch x) s = .next { s with
      bq := s.bq.set ch.toNat (BiquadUnit.proc binary32 u x).1
      resp := s.resp ++ [(BiquadUnit.proc binary32 u x).2] } :=
  exec_of_execute (runBqProc_ok_iff.2 ⟨u, hu, hV, rfl⟩)

/-! ### The resets on the machine -/

/-- BQ.RESET on a constructed instance (R105). -/
theorem exec_bqReset {u : BiquadUnit Word} (hu : s.bq[ch.toNat]? = some u) (hV : u.V = true) :
    exec (.bqReset ch) s = .next { s with bq := s.bq.set ch.toNat { u with state := ⟨0, 0, 0, 0⟩ } } := by
  rw [← zeroed_binary32]
  exact exec_of_execute (runBqReset_ok_iff.2 ⟨u, hu, hV, rfl⟩)

/-- RIAA.RESET on a constructed instance (R126). -/
theorem exec_riaaReset {u : RiaaUnit Word} (hu : s.riaa[ch.toNat]? = some u) (hV : u.V = true) :
    exec (.riaaReset ch) s = .next { s with riaa := s.riaa.set ch.toNat { u with state := ⟨0, 0, 0, 0⟩ } } := by
  rw [← zeroed_binary32]
  exact exec_of_execute (runRiaaReset_ok_iff.2 ⟨u, hu, hV, rfl⟩)

/-- HF.RESET on a constructed instance (R144). -/
theorem exec_hfReset {u : HfUnit Word} (hu : s.hf[ch.toNat]? = some u) (hV : u.V = true) :
    exec (.hfReset ch) s = .next { s with hf := s.hf.set ch.toNat { u with state := 0 } } := by
  rw [← binary32_nat_zero]
  exact exec_of_execute (runHfReset_ok_iff.2 ⟨u, hu, hV, rfl⟩)

/-- LIM.RESET on a constructed instance (R154). -/
theorem exec_limReset {u : LimUnit Word} (hu : s.lim[ch.toNat]? = some u) (hV : u.V = true) :
    exec (.limReset ch) s = .next { s with lim := s.lim.set ch.toNat { u with envelope := 0 } } := by
  rw [← binary32_nat_zero]
  exact exec_of_execute (runLimReset_ok_iff.2 ⟨u, hu, hV, rfl⟩)

/-- A command that clears a constructed instance does nothing more when it is run again, where clearing keeps the valid bit
and is idempotent. The instances of the kind are read and replaced by `get` and `put`. -/
theorem reset_idempotent {U : Type} {i : Instr} {get : State → List U} {put : State → List U → State} {V : U → Bool}
    {clear : U → U} {u : U}
    (hexec : ∀ {s u}, (get s)[ch.toNat]? = some u → V u = true →
      exec i s = .next (put s ((get s).set ch.toNat (clear u))))
    (hget : ∀ s us, get (put s us) = us) (hput : ∀ s us vs, put (put s us) vs = put s vs)
    (hclear : clear (clear u) = clear u) (hkeep : V (clear u) = V u)
    (hu : (get s)[ch.toNat]? = some u) (hV : V u = true) :
    ∃ t, t = put s ((get s).set ch.toNat (clear u)) ∧ exec i s = .next t ∧ exec i t = .next t := by
  refine ⟨_, rfl, hexec hu hV, ?_⟩
  have hcleared : (get (put s ((get s).set ch.toNat (clear u))))[ch.toNat]? = some (clear u) := by
    rw [hget, List.getElem?_set_self (List.getElem?_eq_some_iff.1 hu).1]
  rw [hexec hcleared (hkeep.trans hV), hget, hput, List.set_set, hclear]

end

/-! ### The lowpass design -/

theorem lowpassDomain_binary32 (cutoff q : Word) :
    lowpassDomain binary32 cutoff q = (F32.lt 0 cutoff && F32.lt cutoff 0x3F000000 && F32.lt 0 q) := by
  rw [lowpassDomain, binary32_nat_zero, show binary32.lit 1 2 = 0x3F000000 from F32.lit_half]
  rfl

/-- The cookbook's coefficients in binary32, with the words of their constants (R102). -/
theorem lowpassCoefficients_binary32 (cutoff q : Word) :
    let cw := F32.cos (F32.mul (F32.mul 0x40000000 0x40490FDB) cutoff)
    let sw := F32.sin (F32.mul (F32.mul 0x40000000 0x40490FDB) cutoff)
    let alpha := F32.div sw (F32.mul 0x40000000 q)
    let a0 := F32.add 0x3F800000 alpha
    lowpassCoefficients binary32 cutoff q =
      { b0 := F32.div (F32.div (F32.sub 0x3F800000 cw) 0x40000000) a0
        b1 := F32.div (F32.sub 0x3F800000 cw) a0
        b2 := F32.div (F32.div (F32.sub 0x3F800000 cw) 0x40000000) a0
        a1 := F32.div (F32.mul 0xC0000000 cw) a0
        a2 := F32.div (F32.sub 0x3F800000 alpha) a0 } := by
  have hneg : binary32.neg 0x40000000 = 0xC0000000 := by decide
  simp only [lowpassCoefficients, binary32_nat_one, binary32_nat_two, hneg]
  simp only [binary32, F32.pi]

/-- The cookbook's coefficients over the reals (R102). -/
theorem lowpassCoefficients_real (cutoff q : ℝ) :
    let w0 := 2 * Real.pi * cutoff
    let alpha := Real.sin w0 / (2 * q)
    lowpassCoefficients realNum cutoff q =
      { b0 := (1 - Real.cos w0) / 2 / (1 + alpha)
        b1 := (1 - Real.cos w0) / (1 + alpha)
        b2 := (1 - Real.cos w0) / 2 / (1 + alpha)
        a1 := -2 * Real.cos w0 / (1 + alpha)
        a2 := (1 - alpha) / (1 + alpha) } := by
  simp [lowpassCoefficients, Numerics.nat, realNum]

theorem lowpassDomain_real {cutoff q : ℝ} :
    lowpassDomain realNum cutoff q = true ↔ 0 < cutoff ∧ cutoff < 0.5 ∧ 0 < q := by
  have hhalf : (1 : ℝ) / 2 = 0.5 := by norm_num
  simp [lowpassDomain, Numerics.nat, realNum, and_assoc, ← hhalf]

/-- The angle of a cutoff in the domain lies strictly between 0 and π, where the sine is positive. -/
theorem sin_pos_of_cutoff {cutoff : ℝ} (h0 : 0 < cutoff) (h1 : cutoff < 0.5) : 0 < Real.sin (2 * Real.pi * cutoff) := by
  have hpi := Real.pi_pos
  exact Real.sin_pos_of_pos_of_lt_pi (by positivity) (by nlinarith)

theorem abs_cos_lt_one_of_sin_pos {w : ℝ} (h : 0 < Real.sin w) : |Real.cos w| < 1 := by
  have hsq := pow_pos h 2
  rw [← sq_lt_one_iff_abs_lt_one]
  linarith [Real.sin_sq_add_cos_sq w]

/-- The stability triangle of the denominator `1 + alpha, -2 * k, 1 - alpha` (R102). -/
theorem stable_of_alpha_pos {alpha k : ℝ} (ha : 0 < alpha) (hk : |k| < 1) :
    |(1 - alpha) / (1 + alpha)| < 1 ∧ |-2 * k / (1 + alpha)| < 1 + (1 - alpha) / (1 + alpha) := by
  have hpos : 0 < 1 + alpha := by linarith
  have hsum : 1 + (1 - alpha) / (1 + alpha) = 2 / (1 + alpha) := by field_simp; ring
  constructor
  · rw [abs_div, abs_of_pos hpos, div_lt_one hpos, abs_lt]
    constructor <;> linarith
  · rw [hsum, abs_div, abs_of_pos hpos, div_lt_div_iff_of_pos_right hpos, abs_mul, abs_neg, abs_two]
    linarith

/-! ### The element step over the reals -/

/-- The step of R103 over the reals. -/
theorem dfiiStep_real (c : FilterCoefficients ℝ) (z : FilterState ℝ) (x : ℝ) :
    dfiiStep realNum c z x =
      ({ z with
          y1 := c.b1 * x - c.a1 * (c.b0 * x + z.y1) + z.y2
          y2 := c.b2 * x - c.a2 * (c.b0 * x + z.y1) }, c.b0 * x + z.y1) := rfl

/-- The state after an impulse and `k` zeros, from zero state (R107). -/
noncomputable def impulseState (c : FilterCoefficients ℝ) (k : ℕ) : FilterState ℝ :=
  (runBlock (dfiiStep realNum c) ⟨0, 0, 0, 0⟩ (1 :: List.replicate k 0)).1

/-- The impulse response `h[k]` (R107). -/
noncomputable def impulseResponse (c : FilterCoefficients ℝ) (k : ℕ) : ℝ :=
  (runBlock (dfiiStep realNum c) ⟨0, 0, 0, 0⟩ (1 :: List.replicate k 0)).2.getD k 0

section
variable (c : FilterCoefficients ℝ) (k : ℕ)

/-- One zero more is one step more. -/
theorem runBlock_impulse_succ :
    runBlock (dfiiStep realNum c) ⟨0, 0, 0, 0⟩ (1 :: List.replicate (k + 1) 0) =
      ((dfiiStep realNum c (impulseState c k) 0).1,
        (runBlock (dfiiStep realNum c) ⟨0, 0, 0, 0⟩ (1 :: List.replicate k 0)).2 ++
          [(dfiiStep realNum c (impulseState c k) 0).2]) := by
  rw [List.replicate_succ', ← List.cons_append, runBlock_append]
  rfl

/-- A zero sample shifts the state: `y1` takes up `y2`, and both take up the output. -/
theorem impulseState_succ_y1 :
    (impulseState c (k + 1)).y1 = -c.a1 * (impulseState c k).y1 + (impulseState c k).y2 := by
  rw [impulseState, runBlock_impulse_succ, dfiiStep_real]
  ring

theorem impulseState_succ_y2 : (impulseState c (k + 1)).y2 = -c.a2 * (impulseState c k).y1 := by
  rw [impulseState, runBlock_impulse_succ, dfiiStep_real]
  ring

/-- After the impulse the output is `y1`. -/
theorem impulseResponse_succ : impulseResponse c (k + 1) = (impulseState c k).y1 := by
  have hlength : (runBlock (dfiiStep realNum c) ⟨0, 0, 0, 0⟩ (1 :: List.replicate k 0)).2.length = k + 1 := by
    rw [runBlock_length, List.length_cons, List.length_replicate]
  rw [impulseResponse, runBlock_impulse_succ, List.getD_append_right _ _ _ _ hlength.le, hlength, Nat.sub_self,
    List.getD_cons_zero, dfiiStep_real]
  ring

theorem impulseResponse_zero : impulseResponse c 0 = c.b0 := by
  simp [impulseResponse, dfiiStep_real]

theorem impulseState_zero :
    impulseState c 0 = ⟨0, 0, c.b1 - c.a1 * c.b0, c.b2 - c.a2 * c.b0⟩ := by
  simp [impulseState, dfiiStep_real]

end

/-! ### The identity filter -/

/-- A stream of BQ.PROC on a constructed instance: the element steps in order, their results on the response port
(R103). -/
theorem execAll_bqProc {s : State} {ch : BitVec 8} {u : BiquadUnit Word} (xs : List Word)
    (hu : s.bq[ch.toNat]? = some u) (hV : u.V = true) :
    execAll (xs.map (Instr.bqProc ch)) s = .next { s with
      bq := s.bq.set ch.toNat (runBlock (BiquadUnit.proc binary32) u xs).1
      resp := s.resp ++ (runBlock (BiquadUnit.proc binary32) u xs).2 } := by
  obtain ⟨hlt, hget⟩ := List.getElem?_eq_some_iff.1 hu
  induction xs generalizing s u with
  | nil => rw [runBlock_nil, List.append_nil, ← hget, List.set_getElem_self]; rfl
  | cons x xs ih =>
    have hset := List.getElem?_set_self (a := (BiquadUnit.proc binary32 u x).1) hlt
    obtain ⟨hlt', hget'⟩ := List.getElem?_eq_some_iff.1 hset
    have hrest := ih (s := { s with
      bq := s.bq.set ch.toNat (BiquadUnit.proc binary32 u x).1
      resp := s.resp ++ [(BiquadUnit.proc binary32 u x).2] }) hset hV hlt' hget'
    rw [List.map_cons, execAll_cons_of_next (exec_bqProc x hu hV)]
    simpa using hrest

theorem F32.isZero_zero : F32.IsZero 0 := ⟨isFinite_zero_one.1, units_zero_one.1⟩

theorem F32.isZero_pack (b : Bool) : F32.IsZero (F32.pack b 0) := by
  cases b <;> exact ⟨by decide, by decide⟩

section
variable {a b : Word}

theorem F32.isZero_add (ha : F32.IsZero a) (hb : F32.IsZero b) : F32.IsZero (F32.add a b) := by
  obtain ⟨hfin, hunits⟩ := F32.units_add_zero ha.1 hb.1 hb.2
  exact ⟨hfin, hunits.trans ha.2⟩

theorem F32.isZero_sub (ha : F32.IsZero a) (hb : F32.IsZero b) : F32.IsZero (F32.sub a b) := by
  rw [F32.sub_finite ha.1 hb.1, ha.2, hb.2]
  exact F32.sumResult_exact F32.isZero_zero.1 F32.isZero_zero.2

theorem F32.isZero_mul (ha : F32.IsZero a) (hb : F32.isFinite b = true) : F32.IsZero (F32.mul a b) := by
  rw [F32.zero_mul hb ha.1 ha.2]
  exact F32.isZero_pack _

end

/-- A constructed biquad with the coefficients `1, 0, 0, 0, 0`, its state a zero of either sign (R106). -/
structure BiquadUnit.IsIdentity (u : BiquadUnit Word) : Prop where
  valid : u.V = true
  coeffs : u.coeffs = ⟨0x3F800000, 0, 0, 0, 0⟩
  y1 : F32.IsZero u.state.y1
  y2 : F32.IsZero u.state.y2

/-- What BQ.SETC with the coefficients `1, 0, 0, 0, 0` leaves (R101, R106). -/
def BiquadUnit.identity : BiquadUnit Word :=
  { V := true, coeffs := ⟨0x3F800000, 0, 0, 0, 0⟩, state := ⟨0, 0, 0, 0⟩ }

theorem BiquadUnit.isIdentity_identity : BiquadUnit.identity.IsIdentity :=
  ⟨rfl, rfl, F32.isZero_zero, F32.isZero_zero⟩

/-- The output of the identity filter is the sample plus a zero. -/
theorem BiquadUnit.IsIdentity.sameValue {u : BiquadUnit Word} (hu : u.IsIdentity) {x : Word}
    (hx : F32.isFinite x = true) : F32.SameValue x (BiquadUnit.proc binary32 u x).2 := by
  have hy : (BiquadUnit.proc binary32 u x).2 = F32.add (F32.mul u.coeffs.b0 x) u.state.y1 := rfl
  rw [hy, hu.coeffs, F32.one_mul hx]
  obtain ⟨hfin, hunits⟩ := F32.units_add_zero hx hu.y1.1 hu.y1.2
  exact ⟨hx, hfin, hunits.symm⟩

/-- Every product that enters its state has the factor 0. -/
theorem BiquadUnit.IsIdentity.proc {u : BiquadUnit Word} (hu : u.IsIdentity) {x : Word} (hx : F32.isFinite x = true) :
    (BiquadUnit.proc binary32 u x).1.IsIdentity := by
  obtain ⟨-, hy, -⟩ := hu.sameValue hx
  have hterms : F32.IsZero (F32.sub (F32.mul 0 x) (F32.mul 0 (BiquadUnit.proc binary32 u x).2)) :=
    F32.isZero_sub (F32.isZero_mul F32.isZero_zero hx) (F32.isZero_mul F32.isZero_zero hy)
  have h1 : (BiquadUnit.proc binary32 u x).1.state.y1 = F32.add
    (F32.sub (F32.mul u.coeffs.b1 x) (F32.mul u.coeffs.a1 (BiquadUnit.proc binary32 u x).2)) u.state.y2 := rfl
  have h2 : (BiquadUnit.proc binary32 u x).1.state.y2 =
    F32.sub (F32.mul u.coeffs.b2 x) (F32.mul u.coeffs.a2 (BiquadUnit.proc binary32 u x).2) := rfl
  refine ⟨hu.valid, hu.coeffs, ?_, ?_⟩
  · rw [h1, hu.coeffs]; exact F32.isZero_add hterms hu.y2
  · rw [h2, hu.coeffs]; exact hterms

/-- The identity filter returns a whole stream (R106). -/
theorem BiquadUnit.IsIdentity.forall₂_runBlock {xs : List Word} (hxs : ∀ x ∈ xs, F32.isFinite x = true) :
    ∀ {u : BiquadUnit Word}, u.IsIdentity →
      List.Forall₂ F32.SameValue xs (runBlock (BiquadUnit.proc binary32) u xs).2 := by
  induction xs with
  | nil => exact fun _ => .nil
  | cons x xs ih =>
    obtain ⟨hx, hrest⟩ := List.forall_mem_cons.1 hxs
    exact fun hu => .cons (hu.sameValue hx) (ih hrest (hu.proc hx))

/-- Over the reals its state is not zero up to a sign, but zero. -/
theorem dfiiStep_real_identity (x : ℝ) :
    dfiiStep realNum ⟨1, 0, 0, 0, 0⟩ ⟨0, 0, 0, 0⟩ x = (⟨0, 0, 0, 0⟩, x) := by
  simp [dfiiStep_real]

theorem runBlock_real_identity (xs : List ℝ) :
    runBlock (dfiiStep realNum ⟨1, 0, 0, 0, 0⟩) ⟨0, 0, 0, 0⟩ xs = (⟨0, 0, 0, 0⟩, xs) := by
  induction xs with
  | nil => rfl
  | cons x xs ih => rw [runBlock_cons, dfiiStep_real_identity, ih]

end Sys2Proof.Machine

open Sys2Proof Sys2Proof.Machine

/-- Settles O42: the stream runs the element steps, each of which keeps the identity filter and returns its sample. -/
theorem identityFilter : Obligations.IdentityFilter := by
  refine ⟨fun s ch xs hch hxs => ?_, runBlock_real_identity⟩
  have hstart := BiquadUnit.isIdentity_identity
  have hend : (runBlock (BiquadUnit.proc binary32) BiquadUnit.identity xs).1.IsIdentity :=
    runBlock_keeps (p := (F32.isFinite · = true)) (fun _ _ hx hu => hu.proc hx) hxs hstart
  have hstream := execAll_bqProc (s := { s with bq := s.bq.set ch.toNat BiquadUnit.identity }) (ch := ch) xs
    (List.getElem?_set_self hch) hstart.valid
  rw [List.set_set] at hstream
  have hrun := (execAll_cons_of_next (exec_bqSetc 0x3F800000 0 0 0 0 hch)).trans hstream
  have hset := List.getElem?_set_self (a := (runBlock (BiquadUnit.proc binary32) BiquadUnit.identity xs).1) hch
  exact ⟨_, _, _, hrun, rfl, hstart.forall₂_runBlock hxs, hset, hend.y1, hend.y2, exec_bqReset hset hend.valid⟩

/-- Settles O43: the step is a linear form, and after the impulse the output is `y1`, which the state recurs on. -/
theorem biquadLinear : Obligations.BiquadLinear := by
  refine ⟨fun c z z' a b x x' => ?_, fun c => ?_⟩
  · simp only [dfiiStep_real]
    exact ⟨by ring, by ring, by ring⟩
  · have hone : impulseResponse c 1 = c.b1 - c.a1 * c.b0 := by rw [impulseResponse_succ, impulseState_zero]
    refine ⟨impulseResponse_zero c, hone, ?_, fun k => ?_⟩
    · show impulseResponse c 2 = c.b2 - c.a2 * c.b0 - c.a1 * impulseResponse c 1
      rw [hone, impulseResponse_succ, impulseState_succ_y1, impulseState_zero]
      ring
    · show impulseResponse c (k + 3) = -c.a1 * impulseResponse c (k + 2) - c.a2 * impulseResponse c (k + 1)
      rw [impulseResponse_succ, impulseResponse_succ, impulseResponse_succ, impulseState_succ_y1,
        impulseState_succ_y2]
      ring

/-- Settles O44: inside the domain the sine is positive and the cosine below 1 in magnitude. -/
theorem lowpassStable : Obligations.LowpassStable := by
  refine fun cutoff q => ⟨lowpassDomain_real, fun h0 h1 hq => ?_⟩
  intro w0 alpha c
  have hsin : 0 < Real.sin w0 := sin_pos_of_cutoff h0 h1
  have halpha : 0 < alpha := by positivity
  obtain ⟨ha2, ha1⟩ := stable_of_alpha_pos halpha (abs_cos_lt_one_of_sin_pos hsin)
  rw [show c = _ from lowpassCoefficients_real cutoff q]
  exact ⟨by linarith, rfl, rfl, rfl, rfl, rfl, ha2, ha1⟩

/-- Settles O19: the constructor's effect, in the words of its constants. -/
theorem bqSetcConstructs : Obligations.BqSetcConstructs :=
  fun _ _ b0 b1 b2 a1 a2 hch => ⟨encode_of_channel 0x13 rfl rfl rfl, exec_bqSetc b0 b1 b2 a1 a2 hch⟩

/-- Settles O20: one formula over any numerics, at binary32; the domain decides. -/
theorem bqLowpassConstructs : Obligations.BqLowpassConstructs := by
  intro s ch cutoff q hch cw sw alpha a0
  refine ⟨encode_of_channel 0x14 rfl rfl rfl, fun h0 h1 hq => ?_, fun hout => ?_⟩
  · have hdomain : lowpassDomain binary32 cutoff q = true := by rw [lowpassDomain_binary32, h0, h1, hq]; rfl
    rw [exec_bqLowpass hch hdomain, lowpassCoefficients_binary32]
  · have hdomain : lowpassDomain binary32 cutoff q = false := by
      rw [lowpassDomain_binary32, Bool.and_eq_false_iff, Bool.and_eq_false_iff]
      exact or_assoc.2 hout
    exact exec_bqLowpass_refused hch hdomain

/-- Settles O21: the element step of a constructed instance, and the check of the valid bit. -/
theorem bqProcStep : Obligations.BqProcStep :=
  ⟨fun _ _ x _ hu => ⟨encode_of_channel 0x10 rfl rfl rfl, exec_bqProc x hu,
    fun hV => exec_of_not_valid rfl (validBit_bq hu hV) nofun⟩, dfiiStep_real⟩

/-- Settles O28: each reset writes a constant to the state of its instance and keeps its valid bit. -/
theorem unitResets : Obligations.UnitResets := by
  refine fun s ch => ⟨⟨encode_of_channel 0x12 rfl rfl rfl, encode_of_channel 0x22 rfl rfl rfl,
    encode_of_channel 0x42 rfl rfl rfl, encode_of_channel 0x52 rfl rfl rfl⟩, fun u hu => ⟨?_, fun hV => ?_⟩,
    fun u hu => ⟨?_, fun hV => ?_⟩, fun u hu => ⟨?_, fun hV => ?_⟩, fun u hu => ⟨?_, fun hV => ?_⟩⟩
  · exact reset_idempotent (get := (·.bq)) (put := fun s us => { s with bq := us }) exec_bqReset
      (fun _ _ => rfl) (fun _ _ _ => rfl) rfl rfl hu
  · exact exec_of_not_valid rfl (validBit_bq hu hV) nofun
  · exact reset_idempotent (get := (·.riaa)) (put := fun s us => { s with riaa := us }) exec_riaaReset
      (fun _ _ => rfl) (fun _ _ _ => rfl) rfl rfl hu
  · exact exec_of_not_valid rfl (validBit_riaa hu hV) nofun
  · exact reset_idempotent (get := (·.hf)) (put := fun s us => { s with hf := us }) exec_hfReset
      (fun _ _ => rfl) (fun _ _ _ => rfl) rfl rfl hu
  · exact exec_of_not_valid rfl (validBit_hf hu hV) nofun
  · exact reset_idempotent (get := (·.lim)) (put := fun s us => { s with lim := us }) exec_limReset
      (fun _ _ => rfl) (fun _ _ _ => rfl) rfl rfl hu
  · exact exec_of_not_valid rfl (validBit_lim hu hV) nofun

end

section
/-! PROOF. The RIAA equalizer (R122 to R124). The rate that `snap` picks depends on two rounded distances: rounding
never reverses the order of two magnitudes, so the smaller distance stays the smaller or ties, and it keeps them apart
where they differ by more than the quantum at their size. -/

namespace Sys2Proof.Machine

/-! ### Representable magnitudes -/

/-- Every significand of 24 bits at every quantum is a magnitude; a small one is normalized at a smaller quantum. -/
theorem F32.exists_magUnits_eq (k : ℕ) {n : ℕ} (hn : n ≤ 2 ^ 24) : ∃ m, F32.magUnits m = n * 2 ^ k := by
  induction k generalizing n with
  | zero => exact ⟨_, F32.magUnits_grid (.inl ⟨rfl, hn⟩)⟩
  | succ k ih =>
    by_cases hnormal : 2 ^ 23 ≤ n
    · exact ⟨_, F32.magUnits_grid (.inr ⟨hnormal, hn⟩)⟩
    · obtain ⟨m, hm⟩ := ih (n := n * 2) (by omega)
      exact ⟨m, by rw [hm, pow_succ', mul_assoc]⟩

/-- The word of a significand of 24 bits at the quantum `2^k` units, below the overflow. -/
theorem F32.exists_value_eq {k n : ℕ} (hk : k ≤ 252) (hn : n ≤ 2 ^ 24) :
    ∃ w, F32.isFinite w = true ∧ (F32.value w : ℝ) = n * (2 ^ k / 2 ^ 149) := by
  obtain ⟨m, hm⟩ := F32.exists_magUnits_eq k hn
  have hfin : m < F32.infMag := by
    rw [← F32.magUnits_strictMono.lt_iff_lt, hm, F32.magUnits_infMag]
    calc n * 2 ^ k ≤ 2 ^ 24 * 2 ^ 252 := Nat.mul_le_mul hn (Nat.pow_le_pow_right two_pos hk)
      _ < 2 ^ 128 * 2 ^ 149 := by norm_num
  refine ⟨F32.pack false m, F32.isFinite_pack hfin, ?_⟩
  rw [F32.value_pack false (F32.lt_two_pow_31 hfin), hm, F32.signed, if_neg Bool.false_ne_true]
  push_cast
  ring

/-- A whole number is within a half of any number up to a whole bound, and within the bound. -/
theorem exists_nat_near {t : ℝ} {b : ℕ} (h0 : 0 ≤ t) (ht : t ≤ b) : ∃ n ≤ b, |(n : ℝ) - t| ≤ 1 / 2 := by
  have hlow := Nat.floor_le (show 0 ≤ t + 1 / 2 by positivity)
  have hhigh := Nat.lt_floor_add_one (t + 1 / 2)
  have hbound : (⌊t + 1 / 2⌋₊ : ℝ) < (b + 1 : ℕ) := by push_cast; linarith
  exact ⟨_, Nat.lt_succ_iff.1 (Nat.cast_lt.1 hbound), abs_le.2 ⟨by linarith, by linarith⟩⟩

/-! ### The words at the rates -/

/-- Above a magnitude the next number is the next magnitude. -/
theorem F32.magUnits_succ_le_units {m : ℕ} {w : Word} (h : (F32.magUnits m : ℤ) < F32.units w) :
    (F32.magUnits (m + 1) : ℤ) ≤ F32.units w := by
  have hunits : F32.units w = F32.magUnits (F32.mag w) := by
    rw [← F32.natAbs_units, Int.natAbs_of_nonneg (by omega)]
  rw [hunits, Nat.cast_lt] at h
  rw [hunits, Nat.cast_le]
  exact F32.magUnits_strictMono.monotone (F32.magUnits_strictMono.lt_iff_lt.1 h)

theorem F32.abs_value_le_largest {w : Word} (hw : F32.isFinite w = true) : |(F32.value w : ℝ)| ≤ 2 ^ 128 - 2 ^ 104 := by
  have hmag : F32.magUnits (F32.mag w) ≤ (2 ^ 128 - 2 ^ 104) * 2 ^ 149 :=
    F32.magUnits_largest ▸ F32.magUnits_strictMono.monotone (Nat.le_sub_one_of_lt (F32.isFinite_iff.1 hw))
  rw [F32.value_eq_signed, abs_div, F32.abs_signed, Nat.abs_cast, abs_of_pos (by positivity : (0 : ℝ) < 2 ^ 149),
    div_le_iff₀ (by positivity)]
  exact (Nat.cast_le.2 hmag).trans_eq (by norm_num)

/-- The word of a whole number, read off its units. -/
theorem F32.value_eq_natCast {w : Word} {n : ℕ} (h : F32.units w = n * 2 ^ 149) : (F32.value w : ℝ) = n := by
  rw [F32.value_eq_units, h, div_eq_iff (by positivity)]
  norm_num

theorem F32.value_hz44100 : (F32.value 0x472C4400 : ℝ) = 44100 := F32.value_eq_natCast (n := 44100) (by decide +kernel)

theorem F32.value_hz48000 : (F32.value 0x473B8000 : ℝ) = 48000 := F32.value_eq_natCast (n := 48000) (by decide +kernel)

/-- The word of 1950, the distance of the midpoint 46050 from either rate. -/
theorem F32.value_1950 : (F32.value 0x44F3C000 : ℝ) = 1950 := F32.value_eq_natCast (n := 1950) (by decide +kernel)

/-- The numbers at 46050 are `2^-8` apart. -/
theorem F32.value_ge_of_gt_46050 {w : Word} (h : (46050 : ℝ) < F32.value w) :
    (46050 + 1 / 2 ^ 8 : ℝ) ≤ F32.value w := by
  have hmid : F32.magUnits 0x4733E200 = 46050 * 2 ^ 149 := by decide +kernel
  have hnext : F32.magUnits (0x4733E200 + 1) = (46050 * 2 ^ 8 + 1) * 2 ^ 141 := by decide +kernel
  rw [F32.value_eq_units, lt_div_iff₀ (by positivity)] at h
  have hunits := F32.magUnits_succ_le_units (m := 0x4733E200) (w := w) (by rw [hmid]; exact_mod_cast h)
  rw [hnext] at hunits
  rw [F32.value_eq_units, le_div_iff₀ (by positivity)]
  calc (46050 + 1 / 2 ^ 8 : ℝ) * 2 ^ 149 = ((46050 * 2 ^ 8 + 1) * 2 ^ 141 : ℕ) := by norm_num
    _ ≤ F32.units w := mod_cast hunits

end Sys2Proof.Machine

namespace Sys2Proof

open Sys2Proof.Machine

/-! ### Rounding and the order of magnitudes -/

/-- No word's magnitude is nearer to the exact magnitude than the rounded word's: with the sign of the exact number it
would be a nearer word. -/
theorem F32.Rounds.abs_sub_abs_le {e : ℝ} {r w : Word} (h : F32.Rounds e r) (hw : F32.isFinite w = true) :
    |(|(F32.value r : ℝ)| - |e|)| ≤ |(|(F32.value w : ℝ)| - |e|)| := by
  have habs := F32.isFinite_abs hw
  refine (abs_abs_sub_abs_le _ _).trans ?_
  rcases le_total 0 e with he | he
  · rw [abs_of_nonneg he]
    have hnear := (h.2 _ habs).1
    rwa [F32.value_abs hw] at hnear
  · rw [abs_of_nonpos he, sub_neg_eq_add]
    have hnear := (h.2 _ (F32.isFinite_neg habs)).1
    rwa [F32.value_neg habs, F32.value_abs hw, ← neg_add', abs_neg] at hnear

/-- A representable magnitude is kept. -/
theorem F32.Rounds.abs_eq {e : ℝ} {r w : Word} (h : F32.Rounds e r) (hw : F32.isFinite w = true)
    (he : |e| = |(F32.value w : ℝ)|) : |(F32.value r : ℝ)| = |(F32.value w : ℝ)| := by
  have hnear := h.abs_sub_abs_le hw
  rwa [he, sub_self, abs_zero, abs_nonpos_iff, sub_eq_zero] at hnear

/-- Rounding does not reverse the order of two magnitudes: each rounded one is at least as near to its own as the
other is (compared by squares), which a reversal would break. -/
theorem F32.Rounds.abs_le_abs {d e : ℝ} {q r : Word} (hq : F32.Rounds d q) (hr : F32.Rounds e r) (hlt : |d| < |e|) :
    |(F32.value q : ℝ)| ≤ |(F32.value r : ℝ)| := by
  have hnearq := hq.abs_sub_abs_le hr.1
  have hnearr := hr.abs_sub_abs_le hq.1
  generalize |(F32.value q : ℝ)| = x at *
  generalize |(F32.value r : ℝ)| = y at *
  rw [← sq_le_sq] at hnearq hnearr
  by_contra hswap
  linarith [mul_pos (sub_pos.2 (not_le.1 hswap)) (sub_pos.2 hlt)]

/-- Up to `2^24` quanta a rounded magnitude is off by half a quantum at most: a whole number of quanta is that near. -/
theorem F32.Rounds.abs_sub_abs_le_half {e : ℝ} {r : Word} (h : F32.Rounds e r) {k : ℕ} (hk : k ≤ 252)
    (he : |e| ≤ 2 ^ 24 * (2 ^ k / 2 ^ 149)) : |(|(F32.value r : ℝ)| - |e|)| ≤ 2 ^ k / 2 ^ 149 / 2 := by
  have hquantum : (0 : ℝ) < 2 ^ k / 2 ^ 149 := by positivity
  have hquanta : |e| / (2 ^ k / 2 ^ 149) ≤ (2 ^ 24 : ℕ) := by
    rw [div_le_iff₀ hquantum]
    exact_mod_cast he
  obtain ⟨n, hn, hnear⟩ := exists_nat_near (by positivity) hquanta
  obtain ⟨w, hw, hval⟩ := F32.exists_value_eq hk hn
  calc |(|(F32.value r : ℝ)| - |e|)| ≤ |(|(F32.value w : ℝ)| - |e|)| := h.abs_sub_abs_le hw
    _ = |n - |e| / (2 ^ k / 2 ^ 149)| * (2 ^ k / 2 ^ 149) := by
      rw [hval, abs_of_nonneg (by positivity : (0 : ℝ) ≤ n * (2 ^ k / 2 ^ 149)), ← abs_of_pos hquantum, ← abs_mul,
        abs_of_pos hquantum, sub_mul, div_mul_cancel₀ _ hquantum.ne']
    _ ≤ 1 / 2 * (2 ^ k / 2 ^ 149) := mul_le_mul_of_nonneg_right hnear hquantum.le
    _ = 2 ^ k / 2 ^ 149 / 2 := one_div_mul_eq_div _ _

/-- Magnitudes up to `2^24` quanta that differ by more than a quantum stay apart. -/
theorem F32.Rounds.abs_lt_abs {d e : ℝ} {q r : Word} (hq : F32.Rounds d q) (hr : F32.Rounds e r) {k : ℕ} (hk : k ≤ 252)
    (hgap : |d| + 2 ^ k / 2 ^ 149 < |e|) (he : |e| ≤ 2 ^ 24 * (2 ^ k / 2 ^ 149)) :
    |(F32.value q : ℝ)| < |(F32.value r : ℝ)| := by
  have hquantum : (0 : ℝ) < 2 ^ k / 2 ^ 149 := by positivity
  have herrq := (abs_le.1 (hq.abs_sub_abs_le_half hk (by linarith))).2
  have herrr := (abs_le.1 (hr.abs_sub_abs_le_half hk he)).1
  linarith

end Sys2Proof

namespace Sys2Proof.Machine

/-! ### The rate -/

/-- `snap` over the reals (R122). -/
theorem snapRate_real (sr : ℝ) :
    snapRate realNum sr = if |sr - 44100| ≤ |sr - 48000| then .hz44100 else .hz48000 := by
  simp [snapRate, Numerics.nat, realNum]

theorem abs_sub_44100_le_iff {sr : ℝ} : |sr - 44100| ≤ |sr - 48000| ↔ sr ≤ 46050 := by
  rw [← sq_le_sq]
  constructor <;> intro h <;> linarith

/-- `snap` in binary32, with the words of its constants (R122). -/
theorem snapRate_binary32 (w : Word) :
    snapRate binary32 w =
      if F32.le (F32.abs (F32.sub w 0x472C4400)) (F32.abs (F32.sub w 0x473B8000)) then .hz44100 else .hz48000 := by
  rw [snapRate, show binary32.nat 44100 = 0x472C4400 from F32.lit_hz44100,
    show binary32.nat 48000 = 0x473B8000 from F32.lit_hz48000]
  rfl

section
variable {w : Word} (hw : F32.isFinite w = true)
include hw

/-- A rate's distance from a table rate cannot overflow. -/
theorem rounds_sub_rate {c : Word} (hc : F32.isFinite c = true) (hrate : |(F32.value c : ℝ)| ≤ 48000) :
    F32.Rounds ((F32.value w : ℝ) - F32.value c) (F32.sub w c) :=
  F32.rounds_sub hw hc <| calc
    |(F32.value w : ℝ) - F32.value c| ≤ |(F32.value w : ℝ)| + |(F32.value c : ℝ)| := abs_sub _ _
    _ ≤ 2 ^ 128 - 2 ^ 104 + 48000 := add_le_add (F32.abs_value_le_largest hw) hrate
    _ < 2 ^ 128 - 2 ^ 103 := by norm_num

theorem rounds_sub_hz44100 : F32.Rounds ((F32.value w : ℝ) - 44100) (F32.sub w 0x472C4400) := by
  rw [← F32.value_hz44100]
  exact rounds_sub_rate hw (by decide) (by rw [F32.value_hz44100]; norm_num)

theorem rounds_sub_hz48000 : F32.Rounds ((F32.value w : ℝ) - 48000) (F32.sub w 0x473B8000) := by
  rw [← F32.value_hz48000]
  exact rounds_sub_rate hw (by decide) (by rw [F32.value_hz48000]; norm_num)

/-- `snap` compares the rounded distances of a finite rate. -/
theorem snapRate_binary32_of_finite :
    snapRate binary32 w =
      if |(F32.value (F32.sub w 0x472C4400) : ℝ)| ≤ |(F32.value (F32.sub w 0x473B8000) : ℝ)| then .hz44100
      else .hz48000 := by
  have hlow := (rounds_sub_hz44100 hw).1
  have hhigh := (rounds_sub_hz48000 hw).1
  simp only [snapRate_binary32, F32.le_finite (F32.isFinite_abs hlow) (F32.isFinite_abs hhigh), decide_eq_true_iff,
    ← F32.value_le_value, F32.value_abs hlow, F32.value_abs hhigh]

/-- Below the midpoint the distance from 44100 is the smaller, and rounds to the smaller or ties; at the midpoint both
are 1950. -/
theorem snapRate_of_le_46050 (hle : (F32.value w : ℝ) ≤ 46050) : snapRate binary32 w = .hz44100 := by
  rw [snapRate_binary32_of_finite hw]
  refine if_pos ?_
  rcases hle.lt_or_eq with hlt | heq
  · exact (rounds_sub_hz44100 hw).abs_le_abs (rounds_sub_hz48000 hw)
      (not_le.1 fun h => absurd (by rw [← sq_le_sq] at h; linarith) hlt.not_ge)
  · have hlow := (rounds_sub_hz44100 hw).abs_eq (w := 0x44F3C000) (by decide) (by rw [heq, F32.value_1950]; norm_num)
    have hhigh := (rounds_sub_hz48000 hw).abs_eq (w := 0x44F3C000) (by decide) (by rw [heq, F32.value_1950]; norm_num)
    rw [hlow, hhigh]

/-- Above the midpoint the distances differ by `2^-7` at least, more than the quantum `2^-12` of numbers up to `2^12`;
from 48000 on they differ by 3900, more than the quantum 2048 of numbers up to `2^35`. -/
theorem snapRate_of_gt_46050 (hgt : (46050 : ℝ) < F32.value w) (hle : (F32.value w : ℝ) ≤ 2 ^ 35) :
    snapRate binary32 w = .hz48000 := by
  have hnext := F32.value_ge_of_gt_46050 hgt
  have hlow := abs_of_nonneg (by linarith : (0 : ℝ) ≤ F32.value w - 44100)
  rw [snapRate_binary32_of_finite hw]
  refine if_neg (not_le.2 ?_)
  rcases le_total (F32.value w : ℝ) 48000 with hbelow | habove
  · have hhigh := abs_of_nonpos (by linarith : (F32.value w : ℝ) - 48000 ≤ 0)
    refine (rounds_sub_hz48000 hw).abs_lt_abs (rounds_sub_hz44100 hw) (k := 137) (by norm_num) ?_ ?_
    · rw [hlow, hhigh]; norm_num at hnext ⊢; linarith
    · rw [hlow]; norm_num; linarith
  · have hhigh := abs_of_nonneg (by linarith : (0 : ℝ) ≤ (F32.value w : ℝ) - 48000)
    refine (rounds_sub_hz48000 hw).abs_lt_abs (rounds_sub_hz44100 hw) (k := 160) (by norm_num) ?_ ?_
    · rw [hlow, hhigh]; norm_num; linarith
    · rw [hlow]; norm_num at hle ⊢; linarith

end

/-! ### The commands on the machine -/

section
variable {s : State} {ch : BitVec 8}

/-- RIAA.NEW on an instance there is (R123). -/
theorem exec_riaaNew (sr : Word) (hch : ch.toNat < s.riaa.length) :
    exec (.riaaNew ch sr) s = .next { s with
      riaa := s.riaa.set ch.toNat
        { V := true, rate := snapRate binary32 sr, coeffs := s.cfg.riaaTable.row (snapRate binary32 sr)
          state := ⟨0, 0, 0, 0⟩ } } := by
  rw [← zeroed_binary32]
  exact exec_of_execute (runRiaaNew_ok_iff.2 ⟨_, List.getElem?_eq_getElem hch, rfl⟩)

/-- RIAA.PROC on a constructed instance (R124). -/
theorem exec_riaaProc {u : RiaaUnit Word} (x : Word) (hu : s.riaa[ch.toNat]? = some u) (hV : u.V = true) :
    exec (.riaaProc ch x) s = .next { s with
      riaa := s.riaa.set ch.toNat (RiaaUnit.proc binary32 u x).1
      resp := s.resp ++ [(RiaaUnit.proc binary32 u x).2] } :=
  exec_of_execute (runRiaaProc_ok_iff.2 ⟨u, hu, hV, rfl⟩)

end

end Sys2Proof.Machine

open Sys2Proof Sys2Proof.Machine

/-- Settles O45: over the reals by squaring the distances, in binary32 by the two sides of the midpoint. -/
theorem snapNearest : Obligations.SnapNearest := by
  refine ⟨fun sr => ⟨snapRate_real sr, ?_⟩, fun w hw => ⟨fun hle => ?_, fun hgt hle => ?_⟩⟩
  · rw [snapRate_real, ← abs_sub_44100_le_iff]
    split_ifs with h <;> simp [h]
  · exact snapRate_of_le_46050 hw (mod_cast hle)
  · exact snapRate_of_gt_46050 hw (mod_cast hgt) (mod_cast hle)

/-- Settles O22: the constructor's effect, in the words of its constants. -/
theorem riaaNewConstructs : Obligations.RiaaNewConstructs := by
  intro s ch sr hch rate
  rw [show rate = snapRate binary32 sr from (snapRate_binary32 sr).symm]
  exact ⟨encode_of_channel 0x23 rfl rfl rfl, exec_riaaNew sr hch⟩

/-- Settles O23: the element step of a constructed instance, and the check of the valid bit. -/
theorem riaaProcStep : Obligations.RiaaProcStep :=
  fun _ _ x _ hu => ⟨encode_of_channel 0x20 rfl rfl rfl, exec_riaaProc x hu,
    fun hV => exec_of_not_valid rfl (validBit_riaa hu hV) nofun⟩

end

section
/-! PROOF. The saturation shaper and the setters (R131, R132, R134, R141, R151). Above the linear threshold the curve is a
sign on a function of the magnitude alone (`kneeCurve`), so the shaper is odd; in binary32 this needs that nothing
overflows on the way, which bounds of every intermediate result between whole numbers give (`F32.Within`). -/

namespace Sys2Proof.Machine

/-! ### The setters on the machine -/

theorem clamp01_binary32 (v : Word) : binary32.clamp01 v = F32.min (F32.max v 0) 0x3F800000 := by
  rw [Numerics.clamp01, Numerics.clamp, binary32_nat_zero, binary32_nat_one]
  rfl

section
variable {s : State} {ch : BitVec 8}

/-- SAT.SET on an instance there is (R131). -/
theorem exec_satSet (a b : Word) (hch : ch.toNat < s.sat.length) :
    exec (.satSet ch a b) s = .next { s with
      sat := s.sat.set ch.toNat
        { V := true
          saturation := F32.min (F32.max a 0) 0x3F800000
          hardness := F32.min (F32.max b 0) 0x3F800000 } } := by
  rw [← clamp01_binary32, ← clamp01_binary32]
  exact exec_of_execute (runSatSet_ok_iff.2 ⟨_, List.getElem?_eq_getElem hch, rfl⟩)

/-- HF.SET on an instance there is, whose history it keeps (R141). -/
theorem exec_hfSet {u : HfUnit Word} (a : Word) (hu : s.hf[ch.toNat]? = some u) :
    exec (.hfSet ch a) s = .next { s with
      hf := s.hf.set ch.toNat { V := true, intensity := F32.min (F32.max a 0) 0x3F800000, state := u.state } } := by
  rw [← clamp01_binary32]
  exact exec_of_execute (runHfSet_ok_iff.2 ⟨u, hu, rfl⟩)

/-- LIM.NEW on an instance there is (R151). -/
theorem exec_limNew (a b : Word) (hch : ch.toNat < s.lim.length) :
    exec (.limNew ch a b) s = .next { s with
      lim := s.lim.set ch.toNat
        { V := true
          threshold := F32.min (F32.max a 0) 0x3F800000
          releaseTime := F32.max b 0x3A83126F
          envelope := 0 } } := by
  rw [← clamp01_binary32, ← F32.lit_thousandth, ← binary32_nat_zero]
  exact exec_of_execute (runLimNew_ok_iff.2 ⟨_, List.getElem?_eq_getElem hch, rfl⟩)

theorem validBit_sat {u : SatUnit Word} {V : Bool} (hu : s.sat[ch.toNat]? = some u) (hV : u.V = V) :
    validBit .SAT ch.toNat s = some V := by rw [validBit, hu, Option.map_some, hV]

/-- SAT.PROC on a constructed instance (R132). -/
theorem exec_satProc {u : SatUnit Word} (x : Word) (hu : s.sat[ch.toNat]? = some u) (hV : u.V = true) :
    exec (.satProc ch x) s =
      .next { s with resp := s.resp ++ [shape binary32 u.saturation u.hardness x] } :=
  exec_of_execute (runSatProc_ok_iff.2 ⟨u, hu, hV, rfl⟩)

end

/-! ### The curve above its linear threshold -/

/-- Step 2 of R132 from the linear threshold on, as a function of the magnitude of the driven sample. -/
def kneeCurve {α : Type} (N : Numerics α) (h a : α) : α :=
  let knee := N.add (N.lit 1 2) (N.mul h (N.lit 1 5))
  let excess := N.max (N.sub a knee) (N.nat 0)
  let factor := N.sub (N.nat 1) (N.mul h (N.lit 3 10))
  N.min (N.add knee (N.mul excess factor)) (N.add (N.nat 1) (N.mul h (N.lit 1 10)))

/-- The curve is linear below the threshold, and from there on a signed `kneeCurve`. -/
theorem saturationCurve_eq {α : Type} (N : Numerics α) (h d : α) :
    saturationCurve N h d =
      if N.lt (N.abs d) (N.lit 1 2) then d
      else if N.lt d (N.nat 0) then N.neg (kneeCurve N h (N.abs d)) else kneeCurve N h (N.abs d) := rfl

/-! ### The shaper over the reals -/

theorem kneeCurve_real (h a : ℝ) :
    kneeCurve realNum h a =
      min (0.5 + h * 0.2 + max (a - (0.5 + h * 0.2)) 0 * (1 - h * 0.3)) (1 + h * 0.1) := by
  norm_num [kneeCurve, Numerics.nat, realNum]

theorem saturationCurve_real (h d : ℝ) :
    saturationCurve realNum h d =
      if |d| < 0.5 then d else if d < 0 then -kneeCurve realNum h |d| else kneeCurve realNum h |d| := by
  rw [saturationCurve_eq]
  norm_num [Numerics.nat, realNum]

theorem shape_real (sat h x : ℝ) :
    shape realNum sat h x = saturationCurve realNum h (x * (1 + sat * 5)) / ((1 + sat * 5) * 0.8) := by
  norm_num [shape, Numerics.nat, realNum]

/-- Negating the driven sample negates the curve: from the threshold on the sample is not 0, so exactly one of the two is
negative. -/
theorem saturationCurve_real_neg (h d : ℝ) : saturationCurve realNum h (-d) = -saturationCurve realNum h d := by
  rw [saturationCurve_real, saturationCurve_real, abs_neg]
  by_cases hlinear : |d| < 0.5
  · rw [if_pos hlinear, if_pos hlinear]
  · have hd : d ≠ 0 := by rintro rfl; norm_num at hlinear
    rw [if_neg hlinear, if_neg hlinear]
    rcases hd.lt_or_gt with hneg | hpos
    · rw [if_neg (by linarith), if_pos hneg, neg_neg]
    · rw [if_pos (by linarith), if_neg hpos.not_gt]

theorem monotone_kneeCurve {h : ℝ} (h1 : h ≤ 1) : Monotone (kneeCurve realNum h) := by
  intro a b hab
  have hfactor : 0 ≤ 1 - h * 0.3 := by linarith
  rw [kneeCurve_real, kneeCurve_real]
  gcongr

section
variable {h : ℝ} (h0 : 0 ≤ h) (h1 : h ≤ 1)
include h0 h1

theorem half_le_kneeCurve (a : ℝ) : 0.5 ≤ kneeCurve realNum h a := by
  have hexcess : 0 ≤ max (a - (0.5 + h * 0.2)) 0 * (1 - h * 0.3) :=
    mul_nonneg (le_max_right _ _) (by linarith)
  rw [kneeCurve_real]
  exact le_min (by linarith) (by linarith)

theorem abs_kneeCurve_le (a : ℝ) : |kneeCurve realNum h a| ≤ 1 + h * 0.1 := by
  rw [abs_of_nonneg (by linarith [half_le_kneeCurve h0 h1 a]), kneeCurve_real]
  exact min_le_right _ _

/-- The curve stays within its ceiling (R132, corner case 6). -/
theorem abs_saturationCurve_real_le (d : ℝ) : |saturationCurve realNum h d| ≤ 1 + h * 0.1 := by
  rw [saturationCurve_real]
  split_ifs with hlinear
  · linarith
  · rw [abs_neg]
    exact abs_kneeCurve_le h0 h1 _
  · exact abs_kneeCurve_le h0 h1 _

/-- The curve is odd, and on magnitudes it is the identity up to the threshold, which `kneeCurve` is never below (R132,
corner case 7). -/
theorem monotone_saturationCurve_real : Monotone (saturationCurve realNum h) := by
  refine monotone_of_odd_of_monotoneOn_nonneg (saturationCurve_real_neg h) fun a (ha : 0 ≤ a) b (hb : 0 ≤ b) hab => ?_
  rw [saturationCurve_real, saturationCurve_real, abs_of_nonneg ha, abs_of_nonneg hb, if_neg ha.not_gt,
    if_neg hb.not_gt]
  split_ifs with halinear hblinear hblinear
  · exact hab
  · linarith [half_le_kneeCurve h0 h1 b]
  · linarith
  · exact monotone_kneeCurve h1 hab

end

/-! ### The shaper in binary32 -/

/-- The curve above the threshold, with the words of its constants (R132). -/
theorem kneeCurve_binary32 (h a : Word) :
    kneeCurve binary32 h a =
      F32.min
        (F32.add (F32.add 0x3F000000 (F32.mul h 0x3E4CCCCD))
          (F32.mul (F32.max (F32.sub a (F32.add 0x3F000000 (F32.mul h 0x3E4CCCCD))) 0)
            (F32.sub 0x3F800000 (F32.mul h 0x3E99999A))))
        (F32.add 0x3F800000 (F32.mul h 0x3DCCCCCD)) := by
  simp only [kneeCurve, binary32_nat_zero, binary32_nat_one]
  simp only [binary32, F32.lit_half, F32.lit_fifth, F32.lit_three_tenths, F32.lit_tenth]

theorem saturationCurve_binary32 (h d : Word) :
    saturationCurve binary32 h d =
      if F32.lt (F32.abs d) 0x3F000000 then d
      else if F32.lt d 0 then F32.neg (kneeCurve binary32 h (F32.abs d)) else kneeCurve binary32 h (F32.abs d) := by
  rw [saturationCurve_eq, binary32_nat_zero, show binary32.lit 1 2 = 0x3F000000 from F32.lit_half]
  rfl

/-- The drive and the makeup gain, with the words of their constants (R132). -/
theorem shape_binary32 (sat h x : Word) :
    shape binary32 sat h x =
      F32.div (saturationCurve binary32 h (F32.mul x (F32.add 0x3F800000 (F32.mul sat 0x40A00000))))
        (F32.mul (F32.add 0x3F800000 (F32.mul sat 0x40A00000)) 0x3F4CCCCD) := by
  simp only [shape, binary32_nat_one]
  simp only [binary32, Numerics.nat, F32.lit_five, F32.lit_four_fifths]

/-! ### Signs in binary32 -/

theorem F32.sign_neg {a : Word} (ha : F32.isFinite a = true) : F32.sign (F32.neg a) = !F32.sign a := by
  rw [F32.neg_finite ha, F32.sign_pack (F32.mag_lt a)]

theorem F32.mag_neg {a : Word} (ha : F32.isFinite a = true) : F32.mag (F32.neg a) = F32.mag a := by
  rw [F32.neg_finite ha, F32.mag_pack (F32.mag_lt a)]

theorem F32.neg_neg {a : Word} (ha : F32.isFinite a = true) : F32.neg (F32.neg a) = a :=
  F32.ext (by rw [F32.sign_neg (F32.isFinite_neg ha), F32.sign_neg ha, Bool.not_not])
    (by rw [F32.mag_neg (F32.isFinite_neg ha), F32.mag_neg ha])

theorem F32.abs_neg {a : Word} (ha : F32.isFinite a = true) : F32.abs (F32.neg a) = F32.abs a := by
  rw [F32.abs_finite (F32.isFinite_neg ha), F32.abs_finite ha, F32.mag_neg ha]

/-- Where a rounded quotient of units does not overflow, its sign goes through the rounding. -/
theorem F32.finish_not {e : ℝ} {b : Bool} {p q : ℕ} (free free' : Word) (hq : 0 < q)
    (he : e = F32.signed b ((p : ℝ) / q) / 2 ^ 149) (hlt : |e| < 2 ^ 128 - 2 ^ 103) :
    F32.finish free' (!b) (F32.roundMag p q) = F32.neg (F32.finish free b (F32.roundMag p q)) := by
  have hM : F32.roundMag p q < F32.infMag :=
    F32.nearestMag_lt_infMag (F32.nearestMag_roundMag p hq) (F32.units_lt_of_abs_lt (by positivity) (he ▸ hlt))
  have hM31 := F32.lt_two_pow_31 hM
  rw [F32.finish_of_lt hM, F32.finish_of_lt hM, F32.neg_finite (F32.isFinite_pack hM), F32.sign_pack hM31,
    F32.mag_pack hM31]

/-- A product of values, as the quotient of units that `F32.mul` rounds. -/
theorem F32.value_mul_value (a b : Word) :
    (F32.value a : ℝ) * F32.value b = F32.signed (F32.sign a ^^ F32.sign b)
      ((F32.magUnits (F32.mag a) * F32.magUnits (F32.mag b) : ℕ) / (2 ^ 149 : ℕ)) / 2 ^ 149 := by
  rw [F32.value_eq_signed, F32.value_eq_signed, div_mul_div_comm, F32.signed_mul, ← div_div, F32.signed_div_right,
    Nat.cast_mul, F32.cast_scale]

/-- A quotient of values, as the quotient of units that `F32.div` rounds. -/
theorem F32.value_div_value (a b : Word) :
    (F32.value a : ℝ) / F32.value b = F32.signed (F32.sign a ^^ F32.sign b)
      ((F32.magUnits (F32.mag a) * 2 ^ 149 : ℕ) / F32.magUnits (F32.mag b)) / 2 ^ 149 := by
  rw [F32.value_eq_signed, F32.value_eq_signed, div_div_div_cancel_right₀ (by positivity), F32.signed_div,
    F32.signed_div_right, Nat.cast_mul, F32.cast_scale, mul_div_right_comm, mul_div_cancel_right₀ _ (by positivity)]

section
variable {a b : Word} (ha : F32.isFinite a = true) (hb : F32.isFinite b = true)
include ha hb

theorem F32.neg_mul (hlt : |(F32.value a : ℝ) * F32.value b| < 2 ^ 128 - 2 ^ 103) :
    F32.mul (F32.neg a) b = F32.neg (F32.mul a b) := by
  rw [F32.mul_finite (F32.isFinite_neg ha) hb, F32.mul_finite ha hb, F32.sign_neg ha, F32.mag_neg ha, Bool.not_xor]
  exact F32.finish_not _ _ (by positivity) (F32.value_mul_value a b) hlt

theorem F32.neg_div (h0 : (F32.value b : ℝ) ≠ 0) (hlt : |(F32.value a : ℝ) / F32.value b| < 2 ^ 128 - 2 ^ 103) :
    F32.div (F32.neg a) b = F32.neg (F32.div a b) := by
  have hmag : F32.mag b ≠ 0 := mt F32.value_eq_zero.2 h0
  rw [F32.div_finite (F32.isFinite_neg ha) hb hmag, F32.div_finite ha hb hmag, F32.sign_neg ha, F32.mag_neg ha,
    Bool.not_xor]
  exact F32.finish_not _ _ (Nat.pos_of_ne_zero (mt F32.magUnits_eq_zero.1 hmag)) (F32.value_div_value a b) hlt

theorem F32.isFinite_min : F32.isFinite (F32.min a b) = true := by
  rw [F32.min_finite ha hb]
  split_ifs
  · exact hb
  · exact ha

end

end Sys2Proof.Machine

namespace Sys2Proof

open Sys2Proof.Machine

/-! ### Bounds of rounded results -/

theorem F32.Rounds.value_le {e : ℝ} {r w : Word} (h : F32.Rounds e r) (hw : F32.isFinite w = true)
    (he : e ≤ F32.value w) : (F32.value r : ℝ) ≤ F32.value w := by
  have hnear := (le_abs_self _).trans (h.2 w hw).1
  rw [abs_of_nonneg (sub_nonneg.2 he)] at hnear
  linarith

theorem F32.Rounds.le_value {e : ℝ} {r w : Word} (h : F32.Rounds e r) (hw : F32.isFinite w = true)
    (he : F32.value w ≤ e) : (F32.value w : ℝ) ≤ F32.value r := by
  have hnear := (neg_le_abs _).trans (h.2 w hw).1
  rw [abs_of_nonpos (sub_nonpos.2 he)] at hnear
  linarith

/-- A finite word whose value lies between two whole numbers. -/
structure F32.Within (lo hi : ℕ) (w : Word) : Prop where
  finite : F32.isFinite w = true
  lower : (lo : ℝ) ≤ F32.value w
  upper : (F32.value w : ℝ) ≤ hi

/-- Whole numbers up to `2^24` are representable. -/
theorem F32.exists_value_eq_natCast {n : ℕ} (hn : n ≤ 2 ^ 24) :
    ∃ w, F32.isFinite w = true ∧ (F32.value w : ℝ) = n := by
  obtain ⟨w, hw, hval⟩ := F32.exists_value_eq (k := 149) (by norm_num) hn
  exact ⟨w, hw, by rw [hval, div_self (by positivity), mul_one]⟩

/-- Rounding does not leave an interval between whole numbers, since they are representable. -/
theorem F32.Rounds.within {e : ℝ} {r : Word} {lo hi : ℕ} (h : F32.Rounds e r) (hlo : lo ≤ e) (hhi : e ≤ hi)
    (hn : hi ≤ 2 ^ 24 := by norm_num) : F32.Within lo hi r := by
  obtain ⟨v, hv, hval⟩ := F32.exists_value_eq_natCast ((Nat.cast_le.1 (hlo.trans hhi)).trans hn)
  obtain ⟨w, hw, hwal⟩ := F32.exists_value_eq_natCast hn
  exact ⟨h.1, hval ▸ h.le_value hv (hval ▸ hlo), hwal ▸ h.value_le hw (hwal ▸ hhi)⟩

/-- What lies between whole numbers up to `2^24` does not overflow. -/
theorem abs_lt_overflow {e : ℝ} {hi : ℕ} (h0 : 0 ≤ e) (hhi : e ≤ hi) (hn : hi ≤ 2 ^ 24) : |e| < 2 ^ 128 - 2 ^ 103 := by
  rw [abs_of_nonneg h0]
  calc e ≤ (2 ^ 24 : ℕ) := hhi.trans (Nat.cast_le.2 hn)
    _ < 2 ^ 128 - 2 ^ 103 := by norm_num

section
variable {a b : Word} {lo hi lo' hi' : ℕ}

theorem F32.Within.nonneg (ha : F32.Within lo hi a) : (0 : ℝ) ≤ F32.value a := (Nat.cast_nonneg lo).trans ha.lower

theorem F32.Within.add (ha : F32.Within lo hi a) (hb : F32.Within lo' hi' b) (hn : hi + hi' ≤ 2 ^ 24 := by norm_num) :
    F32.Within (lo + lo') (hi + hi') (F32.add a b) := by
  have hlo : ((lo + lo' : ℕ) : ℝ) ≤ F32.value a + F32.value b := by
    push_cast; exact add_le_add ha.lower hb.lower
  have hhi : (F32.value a : ℝ) + F32.value b ≤ (hi + hi' : ℕ) := by
    push_cast; exact add_le_add ha.upper hb.upper
  exact (F32.rounds_add ha.finite hb.finite
    (abs_lt_overflow (add_nonneg ha.nonneg hb.nonneg) hhi hn)).within hlo hhi hn

theorem F32.Within.value_mul_le (ha : F32.Within lo hi a) (hb : F32.Within lo' hi' b) :
    (F32.value a : ℝ) * F32.value b ≤ (hi * hi' : ℕ) := by
  push_cast; exact mul_le_mul ha.upper hb.upper hb.nonneg (Nat.cast_nonneg _)

theorem F32.Within.rounds_mul (ha : F32.Within lo hi a) (hb : F32.Within lo' hi' b)
    (hn : hi * hi' ≤ 2 ^ 24 := by norm_num) : F32.Rounds ((F32.value a : ℝ) * F32.value b) (F32.mul a b) :=
  F32.rounds_mul ha.finite hb.finite (abs_lt_overflow (mul_nonneg ha.nonneg hb.nonneg) (ha.value_mul_le hb) hn)

theorem F32.Within.mul (ha : F32.Within lo hi a) (hb : F32.Within lo' hi' b) (hn : hi * hi' ≤ 2 ^ 24 := by norm_num) :
    F32.Within (lo * lo') (hi * hi') (F32.mul a b) := by
  have hlo : ((lo * lo' : ℕ) : ℝ) ≤ F32.value a * F32.value b := by
    push_cast; exact mul_le_mul ha.lower hb.lower (Nat.cast_nonneg _) ha.nonneg
  exact (ha.rounds_mul hb hn).within hlo (ha.value_mul_le hb) hn

end

theorem F32.value_zero : (F32.value 0 : ℝ) = 0 := F32.value_eq_zero.2 (by decide)

theorem F32.Rounds.nonneg {e : ℝ} {r : Word} (h : F32.Rounds e r) (he : 0 ≤ e) : (0 : ℝ) ≤ F32.value r := by
  rw [← F32.value_zero] at he ⊢
  exact h.le_value (by decide) he

theorem F32.value_one : (F32.value 0x3F800000 : ℝ) = 1 :=
  (F32.value_eq_natCast (n := 1) (by decide +kernel)).trans Nat.cast_one

theorem F32.value_half : (F32.value 0x3F000000 : ℝ) = 1 / 2 := by
  have hunits : F32.units 0x3F000000 = 2 ^ 148 := by decide +kernel
  rw [F32.value_eq_units, hunits]
  norm_num

/-- The word of a whole number, read off its units. -/
theorem F32.within_natCast {w : Word} {n : ℕ} (hw : F32.isFinite w = true) (h : F32.units w = n * 2 ^ 149) :
    F32.Within n n w := ⟨hw, (F32.value_eq_natCast h).ge, (F32.value_eq_natCast h).le⟩

theorem F32.within_one : F32.Within 1 1 0x3F800000 := F32.within_natCast (by decide) (by decide +kernel)

theorem F32.within_five : F32.Within 5 5 0x40A00000 := F32.within_natCast (by decide) (by decide +kernel)

theorem F32.In01.within {w : Word} (h : F32.In01 w) : F32.Within 0 1 w := by
  obtain ⟨hfin, h0, h1⟩ := h
  rw [← units_zero_one.1, ← F32.value_le_value, F32.value_zero] at h0
  rw [← F32.value_le_value, F32.value_one] at h1
  exact ⟨hfin, by simpa using h0, by simpa using h1⟩

/-- 1 less a number in [0, 1] lies there. -/
theorem F32.within_one_sub {w : Word} (hw : F32.Within 0 1 w) : F32.Within 0 1 (F32.sub 0x3F800000 w) := by
  have hupper := hw.upper
  rw [Nat.cast_one] at hupper
  have hlo : ((0 : ℕ) : ℝ) ≤ F32.value 0x3F800000 - F32.value w := by
    rw [F32.value_one, Nat.cast_zero]; linarith
  have hhi : (F32.value 0x3F800000 : ℝ) - F32.value w ≤ (1 : ℕ) := by
    rw [F32.value_one, Nat.cast_one]; linarith [hw.nonneg]
  exact (F32.rounds_sub F32.within_one.finite hw.finite
    (abs_lt_overflow (by simpa using hlo) hhi (by norm_num))).within hlo hhi

end Sys2Proof

namespace Sys2Proof.Machine

/-! ### The shaper is odd in binary32 -/

/-- The decimal constants of the shaper lie between 0 and 1. -/
theorem in01_shaper_constants :
    F32.In01 0x3F000000 ∧ F32.In01 0x3E4CCCCD ∧ F32.In01 0x3E99999A ∧ F32.In01 0x3DCCCCCD ∧ F32.In01 0x3F4CCCCD := by
  unfold F32.In01; decide +kernel

/-- Any number and 2 more do not overflow. -/
theorem F32.abs_value_add_two_lt {w : Word} (hw : F32.isFinite w = true) :
    |(F32.value w : ℝ)| + 2 < 2 ^ 128 - 2 ^ 103 := by
  have hlargest := F32.abs_value_le_largest hw
  norm_num at hlargest ⊢
  linarith

section
variable {a f : Word}

/-- Subtracting a number in [0, 2] does not overflow. -/
theorem F32.isFinite_sub_within (ha : F32.isFinite a = true) (hf : F32.Within 0 2 f) :
    F32.isFinite (F32.sub a f) = true := by
  refine (F32.rounds_sub ha hf.finite (lt_of_le_of_lt (abs_sub _ _) ?_)).1
  rw [abs_of_nonneg hf.nonneg]
  exact (add_le_add_right hf.upper _).trans_lt (F32.abs_value_add_two_lt ha)

variable (ha : F32.isFinite a = true) (h0 : (0 : ℝ) ≤ F32.value a)
include ha h0

/-- A number that is not negative stays so under a factor in [0, 1]. -/
theorem F32.nonneg_mul_within (hf : F32.Within 0 1 f) :
    F32.isFinite (F32.mul a f) = true ∧ (0 : ℝ) ≤ F32.value (F32.mul a f) := by
  have hproduct : |(F32.value a : ℝ) * F32.value f| ≤ |(F32.value a : ℝ)| := by
    rw [abs_mul, abs_of_nonneg hf.nonneg]
    exact mul_le_of_le_one_right (abs_nonneg _) (by simpa using hf.upper)
  have hround := F32.rounds_mul ha hf.finite (by linarith [F32.abs_value_add_two_lt ha])
  exact ⟨hround.1, hround.nonneg (mul_nonneg h0 hf.nonneg)⟩

/-- Added to a number in [0, 2], a number that is not negative neither overflows nor turns negative. -/
theorem F32.nonneg_within_add (hf : F32.Within 0 2 f) :
    F32.isFinite (F32.add f a) = true ∧ (0 : ℝ) ≤ F32.value (F32.add f a) := by
  have hsum : (0 : ℝ) ≤ F32.value f + F32.value a := add_nonneg hf.nonneg h0
  have hlt := F32.abs_value_add_two_lt ha
  rw [abs_of_nonneg h0] at hlt
  have hupper : (F32.value f : ℝ) ≤ 2 := by simpa using hf.upper
  have hround := F32.rounds_add hf.finite ha (by rw [abs_of_nonneg hsum]; linarith)
  exact ⟨hround.1, hround.nonneg hsum⟩

end

/-- The curve above the threshold is a number between 0 and 2, whatever the magnitude. -/
theorem within_kneeCurve {h a : Word} (hh : F32.In01 h) (ha : F32.isFinite a = true) :
    F32.Within 0 2 (kneeCurve binary32 h a) := by
  obtain ⟨hhalf, hfifth, hthree, htenth, -⟩ := in01_shaper_constants
  have hknee := hhalf.within.add (hh.within.mul hfifth.within)
  have hceiling := F32.within_one.add (hh.within.mul htenth.within)
  have hfactor := F32.within_one_sub (hh.within.mul hthree.within)
  rw [kneeCurve_binary32]
  generalize F32.add 0x3F000000 (F32.mul h 0x3E4CCCCD) = knee at *
  generalize F32.add 0x3F800000 (F32.mul h 0x3DCCCCCD) = ceiling at *
  generalize F32.sub 0x3F800000 (F32.mul h 0x3E99999A) = factor at *
  have hexcess := F32.isFinite_sub_within ha hknee
  have hexcess0 : (0 : ℝ) ≤ F32.value (F32.max (F32.sub a knee) 0) := by
    rw [F32.value_max hexcess (by decide), F32.value_zero]
    exact le_max_right _ _
  obtain ⟨hproduct, hproduct0⟩ := F32.nonneg_mul_within (F32.max_range hexcess (by decide)).1 hexcess0 hfactor
  obtain ⟨hsum, hsum0⟩ := F32.nonneg_within_add hproduct hproduct0 hknee
  refine ⟨F32.isFinite_min hsum hceiling.finite, ?_, ?_⟩
  · rw [F32.value_min hsum hceiling.finite, Nat.cast_zero]
    exact le_min hsum0 hceiling.nonneg
  · rw [F32.value_min hsum hceiling.finite]
    exact (min_le_right _ _).trans hceiling.upper

section
variable {h d : Word} (hh : F32.In01 h) (hd : F32.isFinite d = true)
include hh hd

/-- The curve of a number is a number of magnitude 2 at most. -/
theorem saturationCurve_binary32_range :
    F32.isFinite (saturationCurve binary32 h d) = true ∧ |(F32.value (saturationCurve binary32 h d) : ℝ)| ≤ 2 := by
  have hknee := within_kneeCurve hh (F32.isFinite_abs hd)
  have hupper : |(F32.value (kneeCurve binary32 h (F32.abs d)) : ℝ)| ≤ 2 := by
    rw [abs_of_nonneg hknee.nonneg]
    exact_mod_cast hknee.upper
  rw [saturationCurve_binary32]
  split_ifs with hlinear
  · refine ⟨hd, ?_⟩
    rw [F32.lt_finite (F32.isFinite_abs hd) (by decide), decide_eq_true_iff, ← F32.value_lt_value, F32.value_abs hd,
      F32.value_half] at hlinear
    linarith
  · exact ⟨F32.isFinite_neg hknee.finite, by rwa [F32.value_neg hknee.finite, abs_neg]⟩
  · exact ⟨hknee.finite, hupper⟩

/-- Negating the driven sample negates the curve, bit for bit (R134). -/
theorem saturationCurve_binary32_neg :
    saturationCurve binary32 h (F32.neg d) = F32.neg (saturationCurve binary32 h d) := by
  have hneg := F32.isFinite_neg hd
  rw [saturationCurve_binary32, saturationCurve_binary32, F32.abs_neg hd,
    F32.lt_finite (F32.isFinite_abs hd) (by decide), F32.lt_finite hneg (by decide), F32.lt_finite hd (by decide),
    F32.units_neg hd, F32.units_abs hd, units_zero_one.1]
  simp only [decide_eq_true_iff]
  by_cases hlinear : |F32.units d| < F32.units 0x3F000000
  · rw [if_pos hlinear, if_pos hlinear]
  · have hd0 : F32.units d ≠ 0 := by
      intro h0
      rw [h0] at hlinear
      exact hlinear (by decide +kernel)
    rw [if_neg hlinear, if_neg hlinear]
    rcases hd0.lt_or_gt with hlt | hgt
    · rw [if_neg (by omega), if_pos hlt, F32.neg_neg (within_kneeCurve hh (F32.isFinite_abs hd)).finite]
    · rw [if_pos (by omega), if_neg hgt.not_gt]

end

/-! ### Drive and makeup gain -/

theorem within_drive {sat : Word} (hsat : F32.In01 sat) :
    F32.Within 1 6 (F32.add 0x3F800000 (F32.mul sat 0x40A00000)) :=
  F32.within_one.add (hsat.within.mul F32.within_five)

/-- The makeup gain of a drive from 1 on is a half at least. -/
theorem makeup_range {drive : Word} (hdrive : F32.Within 1 6 drive) :
    F32.isFinite (F32.mul drive 0x3F4CCCCD) = true ∧ (1 / 2 : ℝ) ≤ F32.value (F32.mul drive 0x3F4CCCCD) := by
  obtain ⟨-, -, -, -, hconst⟩ := in01_shaper_constants
  have hgain := hconst.within
  have hhalf : (F32.value 0x3F000000 : ℝ) ≤ F32.value 0x3F4CCCCD := F32.value_le_value.2 (by decide +kernel)
  have hdrive1 : (1 : ℝ) ≤ F32.value drive := by exact_mod_cast hdrive.lower
  have hround := hdrive.rounds_mul hgain
  refine ⟨hround.1, ?_⟩
  rw [← F32.value_half]
  exact hround.le_value (by decide) (hhalf.trans (le_mul_of_one_le_left hgain.nonneg hdrive1))

/-- Samples up to `2^125`, the bound of the statement. -/
theorem F32.abs_value_le_of_mag_le {w : Word} (h : F32.mag w ≤ 0x7E000000) : |(F32.value w : ℝ)| ≤ 2 ^ 125 := by
  have hmag := F32.magUnits_strictMono.monotone h
  have hbound : F32.magUnits 0x7E000000 = 2 ^ 125 * 2 ^ 149 := by decide +kernel
  rw [hbound] at hmag
  rw [F32.value_eq_signed, abs_div, F32.abs_signed, Nat.abs_cast, abs_of_pos (by positivity : (0 : ℝ) < 2 ^ 149),
    div_le_iff₀ (by positivity)]
  exact_mod_cast hmag

/-- The drive of such a sample does not overflow: `6 * 2^125` is three quarters of `2^128`. -/
theorem abs_value_mul_drive_lt {x drive : Word} (hx : F32.mag x ≤ 0x7E000000) (hdrive : F32.Within 1 6 drive) :
    |(F32.value x : ℝ) * F32.value drive| < 2 ^ 128 - 2 ^ 103 := by
  rw [abs_mul, abs_of_nonneg hdrive.nonneg]
  calc |(F32.value x : ℝ)| * F32.value drive ≤ 2 ^ 125 * (6 : ℕ) :=
        mul_le_mul (F32.abs_value_le_of_mag_le hx) hdrive.upper hdrive.nonneg (by positivity)
    _ < 2 ^ 128 - 2 ^ 103 := by norm_num

/-- The makeup gain does not overflow: a curve of at most 2 over at least a half is at most 4. -/
theorem abs_div_makeup_lt {c m : ℝ} (hc : |c| ≤ 2) (hm : 1 / 2 ≤ m) : |c / m| < 2 ^ 128 - 2 ^ 103 := by
  have hpos : 0 < m := by linarith
  rw [abs_div, abs_of_pos hpos]
  calc |c| / m ≤ 4 := by rw [div_le_iff₀ hpos]; linarith
    _ < 2 ^ 128 - 2 ^ 103 := by norm_num

/-- Where the drive does not overflow, negating the sample negates the shaped sample, which is a number (R134). -/
theorem shape_binary32_neg {sat h x : Word} (hsat : F32.In01 sat) (hh : F32.In01 h) (hx : F32.mag x ≤ 0x7E000000) :
    F32.isFinite (shape binary32 sat h x) = true ∧
      shape binary32 sat h (F32.neg x) = F32.neg (shape binary32 sat h x) := by
  have hdrive := within_drive hsat
  have hfin : F32.isFinite x = true := F32.isFinite_iff.2 (hx.trans_lt (by decide))
  have hlt := abs_value_mul_drive_lt hx hdrive
  have hdriven := (F32.rounds_mul hfin hdrive.finite hlt).1
  obtain ⟨hcurve, hbound⟩ := saturationCurve_binary32_range hh hdriven
  obtain ⟨hmakeup, hhalf⟩ := makeup_range hdrive
  have h0 := (one_half_pos.trans_le hhalf).ne'
  have hquotient := abs_div_makeup_lt hbound hhalf
  rw [shape_binary32, shape_binary32, F32.neg_mul hfin hdrive.finite hlt, saturationCurve_binary32_neg hh hdriven]
  exact ⟨(F32.rounds_div hcurve hmakeup h0 hquotient).1, F32.neg_div hcurve hmakeup h0 hquotient⟩

end Sys2Proof.Machine

open Sys2Proof Sys2Proof.Machine

/-- Settles O46: over the reals from the oddness of the curve; in binary32 the drive, the curve and the makeup gain each
take the sign through, since none of them overflows. -/
theorem shaperOdd : Obligations.ShaperOdd := by
  refine ⟨fun sat h x => ?_, fun sat h x hsat hh hx => ?_⟩
  · rw [shape_real, shape_real, neg_mul, saturationCurve_real_neg, neg_div]
  · obtain ⟨hfin, hneg⟩ := shape_binary32_neg hsat hh hx
    rw [hneg]
    exact ⟨F32.isFinite_neg hfin, F32.isFinite_neg hfin, rfl⟩

/-- Settles O47: the curve's bound and monotony, over a makeup gain that is positive. -/
theorem shaperBounded : Obligations.ShaperBounded := by
  intro sat h hsat0 _ h0 h1
  have hmakeup : 0 < (1 + sat * 5) * 0.8 := by positivity
  refine ⟨fun x => ?_, ?_, fun x y hxy => ?_⟩
  · rw [shape_real, abs_div, abs_of_pos hmakeup, mul_comm 0.8, mul_comm 0.1]
    gcongr
    exact abs_saturationCurve_real_le h0 h1 _
  · rw [div_le_iff₀ (by positivity)]
    linarith
  · rw [shape_real, shape_real]
    gcongr
    exact monotone_saturationCurve_real h0 h1 (by gcongr)

/-- Settles O24: each setter's effect, in the words of its constants. -/
theorem settersClamp : Obligations.SettersClamp :=
  fun _ _ a b => ⟨⟨encode_of_channel 0x33 rfl rfl rfl, encode_of_channel 0x43 rfl rfl rfl,
    encode_of_channel 0x53 rfl rfl rfl⟩, exec_satSet a b, fun _ => exec_hfSet a, exec_limNew a b⟩

/-- Settles O25: the shaper of a constructed instance, the check of the valid bit, and the curve's cases over the
reals. -/
theorem satProcShapes : Obligations.SatProcShapes := by
  refine ⟨fun s ch x u hu => ⟨encode_of_channel 0x30 rfl rfl rfl, fun hV => ?_,
    fun hV => exec_of_not_valid rfl (validBit_sat hu hV) nofun⟩, fun sat h x => ?_⟩
  · rw [exec_satProc x hu hV, shape_binary32, saturationCurve_binary32, kneeCurve_binary32]
  · simp only [shape_real, saturationCurve_real, kneeCurve_real]
    refine ⟨fun hlinear => ?_, fun hknee hneg => ?_, fun hknee hpos => ?_⟩
    · rw [if_pos hlinear]
    · rw [if_neg hknee.not_gt, if_pos hneg]
    · rw [if_neg hknee.not_gt, if_neg hpos.not_gt]

end

section
/-! PROOF. The HF filter (R142, R143). The output is one formula over any numerics, read in binary32 and over the reals; the
history after a step is the step's input, whatever it was before. -/

namespace Sys2Proof.Machine

/-! ### The output -/

/-- The output in binary32, with the words of its constants (R142). -/
theorem hfOutput_binary32 (t z x : Word) :
    hfOutput binary32 t z x = F32.add (F32.mul x (F32.sub 0x3F800000 t))
      (F32.mul (F32.add x (F32.mul (F32.sub x z) 0x3F000000)) t) := by
  rw [hfOutput, binary32_nat_one, show binary32.lit 1 2 = 0x3F000000 from F32.lit_half]
  rfl

/-- The output over the reals (R142). -/
theorem hfOutput_real (t z x : ℝ) : hfOutput realNum t z x = x * (1 - t) + (x + (x - z) * 0.5) * t := by
  have hhalf : (1 : ℝ) / 2 = 0.5 := by norm_num
  simp [hfOutput, Numerics.nat, realNum, ← hhalf]

/-- The blend adds the intensity's share of half the step from the history to the input (R142, corner case 3). -/
theorem hfOutput_real_eq_add (t z x : ℝ) : hfOutput realNum t z x = x + 0.5 * t * (x - z) := by
  rw [hfOutput_real]
  ring

/-! ### The commands on the machine -/

/-- After a block the history is its last sample (R143). -/
theorem HfUnit.state_runBlock_concat {α : Type} (N : Numerics α) (u : HfUnit α) (xs : List α) (x : α) :
    (runBlock (HfUnit.proc N) u (xs ++ [x])).1.state = x := by
  rw [runBlock_append]
  rfl

/-- A written block is what the checks of a block command read (R203). -/
theorem readFrom_of_inBlock {s : State} {n : BitVec 16} {xs : List Word} (h : InBlock s n xs) :
    Buffer.readFrom s.mem.inBuf 0 n.toNat = .ok xs := by
  obtain ⟨hlength, hread⟩ := h
  exact (Buffer.readFrom_ok_iff _ _ _ _).2 ⟨hlength, fun j hj => by rw [Nat.zero_add, hread j hj]⟩

section
variable {s t : State} {ch : BitVec 8}

/-- HF.PROC on a constructed instance (R142). -/
theorem exec_hfProc {u : HfUnit Word} (x : Word) (hu : s.hf[ch.toNat]? = some u) (hV : u.V = true) :
    exec (.hfProc ch x) s = .next { s with
      hf := s.hf.set ch.toNat { u with state := x }
      resp := s.resp ++ [hfOutput binary32 u.intensity u.state x] } :=
  exec_of_execute (runHfProc_ok_iff.2 ⟨u, hu, hV, rfl⟩)

/-- A completed HF.PROCB has run its instance through the block (R143). -/
theorem hf_of_exec_hfProcb {n : BitVec 16} {xs : List Word} (hin : InBlock s n xs)
    (h : exec (.hfProcb ch n) s = .next t) :
    ∃ u, s.hf[ch.toNat]? = some u ∧ t.hf[ch.toNat]? = some (runBlock (HfUnit.proc binary32) u xs).1 := by
  rw [exec_eq_perform, perform_next_iff] at h
  obtain ⟨b, hb, rfl⟩ := h
  obtain ⟨u, ys, hu, -, -, hread, rfl⟩ := runHfProcb_ok_iff.1 hb
  obtain rfl : xs = ys := Except.ok.inj ((readFrom_of_inBlock hin).symm.trans hread)
  exact ⟨u, hu, List.getElem?_set_self (List.getElem?_eq_some_iff.1 hu).1⟩

end

end Sys2Proof.Machine

open Sys2Proof Sys2Proof.Machine

/-- Settles O48: the output moves from the input by a multiple of the step, and the last step of a block leaves its
input. -/
theorem hfLaws : Obligations.HfLaws := by
  refine ⟨fun t z x => ?_, fun s t ch n xs x hin h => ?_⟩
  · refine ⟨hfOutput_real_eq_add t z x, ?_, ?_, ?_⟩ <;> rw [hfOutput_real_eq_add] <;> ring
  · obtain ⟨u, -, ht⟩ := hf_of_exec_hfProcb hin h
    exact ⟨_, ht, HfUnit.state_runBlock_concat binary32 u xs x⟩

/-- Settles O26: the element step of a constructed instance, and the check of the valid bit. -/
theorem hfProcStep : Obligations.HfProcStep := by
  refine ⟨fun s ch x u hu => ⟨encode_of_channel 0x40 rfl rfl rfl, fun hV => ?_,
    fun hV => exec_of_not_valid rfl (validBit_hf hu hV) nofun⟩, hfOutput_real⟩
  rw [exec_hfProc x hu hV, hfOutput_binary32]

end

section
/-! PROOF. The limiter (R152, R155 to R157). Over the reals an attack sets the envelope to the sample's magnitude and a
release multiplies it by `exp(-1 / release_time)`; a block is a run of such steps, since no step changes a parameter. -/

namespace Sys2Proof.Machine

/-! ### The envelope and the output -/

/-- The envelope in binary32, with the words of its constants (R152, R14, R239). -/
theorem limEnvelope_binary32 (b : Bool) (thr releaseTime e x : Word) :
    limEnvelope binary32 b thr releaseTime e x =
      if F32.lt thr (F32.abs x) then F32.abs x
      else if b && F32.lt 0 e && F32.lt (F32.exp (F32.div 0xBF800000 releaseTime)) 0x3F800000 &&
          F32.le e (F32.mul e (F32.exp (F32.div 0xBF800000 releaseTime))) then 0
      else F32.mul e (F32.exp (F32.div 0xBF800000 releaseTime)) := by
  have hneg : binary32.neg 0x3F800000 = 0xBF800000 := by decide
  rw [limEnvelope, limRelease, binary32_nat_zero, binary32_nat_one, hneg]
  rfl

/-- The output in binary32 (R152). -/
theorem limOutput_binary32 (thr env x : Word) :
    limOutput binary32 thr env x = if F32.lt 0 env then F32.div (F32.mul x thr) env else x := by
  rw [limOutput, binary32_nat_zero]
  rfl

section
variable (b : Bool) {thr rt e x : ℝ}

/-- Attack over the reals (R152). -/
theorem limEnvelope_real_of_gt (h : thr < |x|) : limEnvelope realNum b thr rt e x = |x| :=
  if_pos (decide_eq_true h)

/-- Release over the reals (R152). -/
theorem limEnvelope_real_of_le (h : |x| ≤ thr) : limEnvelope realNum b thr rt e x = e * Real.exp (-1 / rt) := by
  have hattack : realNum.lt thr (realNum.abs x) = false := decide_eq_false h.not_gt
  rw [limEnvelope, hattack, if_neg Bool.false_ne_true, limRelease_real]
  simp [realNum, Numerics.nat]

theorem limOutput_real_of_pos (h : 0 < e) : limOutput realNum thr e x = x * thr / e :=
  if_pos (by simpa [realNum, Numerics.nat] using h)

theorem limOutput_real_of_nonpos (h : e ≤ 0) : limOutput realNum thr e x = x :=
  if_neg (by simpa [realNum, Numerics.nat] using h)

end

/-! ### Runs over the reals -/

section
variable {b : Bool} {u : LimUnit ℝ} {x : ℝ} {xs : List ℝ}

theorem LimUnit.proc_real_of_gt (hthr : 0 ≤ u.threshold) (h : u.threshold < |x|) :
    LimUnit.proc realNum b u x = ({ u with envelope := |x| }, x * u.threshold / |x|) := by
  rw [LimUnit.proc, limEnvelope_real_of_gt b h, limOutput_real_of_pos (hthr.trans_lt h)]

/-- Every sample above the threshold leaves at the threshold (R155). -/
theorem LimUnit.abs_of_mem_runBlock_attack (hthr : 0 ≤ u.threshold) (hxs : ∀ x ∈ xs, u.threshold < |x|) :
    ∀ y ∈ (runBlock (LimUnit.proc realNum b) u xs).2, |y| = u.threshold := by
  induction xs generalizing u with
  | nil => simp
  | cons x xs ih =>
    obtain ⟨hx, hrest⟩ := List.forall_mem_cons.1 hxs
    have hpos : 0 < |x| := hthr.trans_lt hx
    rw [runBlock_cons, proc_real_of_gt hthr hx]
    refine List.forall_mem_cons.2 ⟨?_, ih (u := { u with envelope := |x| }) hthr hrest⟩
    rw [abs_div, abs_mul, abs_abs, abs_of_nonneg hthr, mul_div_cancel_left₀ _ hpos.ne']

/-- Whatever came before, an attack sets the envelope to its sample: the threshold has not moved (R152). -/
theorem LimUnit.envelope_runBlock_concat (h : u.threshold < |x|) :
    (runBlock (LimUnit.proc realNum b) u (xs ++ [x])).1.envelope = |x| := by
  have hthr : (runBlock (LimUnit.proc realNum b) u xs).1.threshold = u.threshold :=
    runBlock_keeps (p := fun _ => True) (P := fun v : LimUnit ℝ => v.threshold = u.threshold)
      (fun _ _ _ hv => hv) (fun _ _ => trivial) rfl
  rw [runBlock_append]
  exact limEnvelope_real_of_gt b (hthr.trans_lt h)

/-- `k` releases multiply the envelope by `exp(-k / release_time)` and change nothing else (R157). -/
theorem LimUnit.runBlock_release (hxs : ∀ x ∈ xs, |x| ≤ u.threshold) :
    (runBlock (LimUnit.proc realNum b) u xs).1 =
      { u with envelope := u.envelope * Real.exp (-(xs.length : ℝ) / u.releaseTime) } := by
  induction xs generalizing u with
  | nil => simp
  | cons x xs ih =>
    obtain ⟨hx, hrest⟩ := List.forall_mem_cons.1 hxs
    have hstep : (LimUnit.proc realNum b u x).1 =
        { u with envelope := u.envelope * Real.exp (-1 / u.releaseTime) } := by
      rw [LimUnit.proc, limEnvelope_real_of_le b hx]
    have hexp : Real.exp (-1 / u.releaseTime) * Real.exp (-(xs.length : ℝ) / u.releaseTime) =
        Real.exp (-((x :: xs).length : ℝ) / u.releaseTime) := by
      rw [← Real.exp_add, List.length_cons, Nat.cast_succ]
      ring_nf
    have hrun := ih (u := (LimUnit.proc realNum b u x).1) hrest
    rw [hstep] at hrun
    rw [runBlock_cons, hstep, hrun, mul_assoc, hexp]

/-- A sample after a run of releases leaves multiplied by the threshold over the decayed envelope (R156). -/
theorem LimUnit.output_after_release (he : 0 < u.envelope) (hxs : ∀ x ∈ xs, |x| ≤ u.threshold)
    (hx : |x| ≤ u.threshold) :
    (LimUnit.proc realNum b (runBlock (LimUnit.proc realNum b) u xs).1 x).2 = x * u.threshold /
      (u.envelope * Real.exp (-(xs.length : ℝ) / u.releaseTime) * Real.exp (-1 / u.releaseTime)) := by
  rw [LimUnit.runBlock_release hxs, LimUnit.proc, limEnvelope_real_of_le b hx, limOutput_real_of_pos (by positivity)]

end

/-- The release takes any number below any positive bound (R156). -/
theorem exists_mul_exp_release_lt {rt bound : ℝ} (hrt : 0 < rt) (hbound : 0 < bound) (c : ℝ) :
    ∃ k : ℕ, c * Real.exp (-(k : ℝ) / rt) < bound := by
  have hfactor : Real.exp (-1 / rt) < 1 := Real.exp_lt_one_iff.2 (div_neg_of_neg_of_pos neg_one_lt_zero hrt)
  have hlimit := (tendsto_pow_atTop_nhds_zero_of_lt_one (Real.exp_nonneg _) hfactor).const_mul c
  obtain ⟨k, hk⟩ := (hlimit.eventually_lt_const (by rwa [mul_zero])).exists
  refine ⟨k, ?_⟩
  rwa [← Real.exp_nat_mul, mul_div_assoc', mul_neg_one] at hk

/-! ### The command on the machine -/

/-- LIM.PROC on a constructed instance (R152). -/
theorem exec_limProc {s : State} {ch : BitVec 8} {u : LimUnit Word} (x : Word) (hu : s.lim[ch.toNat]? = some u)
    (hV : u.V = true) :
    exec (.limProc ch x) s = .next { s with
      lim := s.lim.set ch.toNat (LimUnit.proc binary32 s.cfg.releaseUnderflow u x).1
      resp := s.resp ++ [(LimUnit.proc binary32 s.cfg.releaseUnderflow u x).2] } :=
  exec_of_execute (runLimProc_ok_iff.2 ⟨u, hu, hV, rfl⟩)

end Sys2Proof.Machine

open Sys2Proof Sys2Proof.Machine

/-- Settles O49: a run of attacks by induction on the run, a run of releases as one product. -/
theorem limiterAttackRelease : Obligations.LimiterAttackRelease := by
  refine fun b u hthr => ⟨fun xs hxs => ⟨?_, fun x hx => ?_⟩, fun xs hxs => ?_⟩
  · exact LimUnit.abs_of_mem_runBlock_attack hthr hxs
  · exact LimUnit.envelope_runBlock_concat hx
  · rw [LimUnit.runBlock_release hxs]

/-- Settles O50: the gain is the threshold over the envelope, which silence takes below any bound. -/
theorem limiterExpands : Obligations.LimiterExpands := by
  intro b B u x hthr hrt he hx0 hx
  have hrt0 : 0 < u.releaseTime := by linarith
  obtain ⟨k, hk⟩ := exists_mul_exp_release_lt hrt0 hthr (B * u.envelope * Real.exp (-1 / u.releaseTime))
  have hsilence : ∀ y ∈ List.replicate k (0 : ℝ), |y| ≤ u.threshold := by
    intro y hy
    rw [List.eq_of_mem_replicate hy, abs_zero]
    exact hthr.le
  have henvelope : 0 < u.envelope * Real.exp (-k / u.releaseTime) * Real.exp (-1 / u.releaseTime) := by positivity
  refine ⟨k, ?_⟩
  rw [LimUnit.output_after_release he hsilence hx, List.length_replicate, abs_div, abs_mul, abs_of_pos hthr,
    abs_of_pos henvelope, lt_div_iff₀ henvelope]
  calc B * |x| * (u.envelope * Real.exp (-k / u.releaseTime) * Real.exp (-1 / u.releaseTime))
      = |x| * (B * u.envelope * Real.exp (-1 / u.releaseTime) * Real.exp (-k / u.releaseTime)) := by ring
    _ < |x| * u.threshold := mul_lt_mul_of_pos_left hk (abs_pos.2 hx0)

/-- Settles O27: the element step of a constructed instance, the check of the valid bit, and the formula's cases over the
reals. -/
theorem limProcStep : Obligations.LimProcStep := by
  refine ⟨fun s ch x u hu => ⟨encode_of_channel 0x50 rfl rfl rfl, fun hV => ?_,
    fun hV => exec_of_not_valid rfl (validBit_lim hu hV) nofun⟩, fun b thr rt e x => ?_⟩
  · rw [exec_limProc x hu hV, LimUnit.proc, limOutput_binary32, limEnvelope_binary32]
  · exact ⟨limEnvelope_real_of_gt b, limEnvelope_real_of_le b, limOutput_real_of_pos, limOutput_real_of_nonpos⟩

end

section
/-! PROOF. The velocity analyzer (R162 to R173). The features read a block only through squares and magnitudes, so a map
that keeps both keeps every feature; the score reads it only through rms, crest and tilt. Over the reals the bounds of
crest compare the sum of the squares with the square of the peak. -/

namespace Sys2Proof.Machine

variable {α : Type} {N : Numerics α} {xs ys : List α}

/-! ### The score reads three features -/

/-- Two blocks with the same rms, crest and tilt. -/
structure SameFeatures (N : Numerics α) (xs ys : List α) : Prop where
  rms : rms N xs = rms N ys
  crest : crest N xs = crest N ys
  tilt : tilt N xs = tilt N ys

theorem SameFeatures.score (h : SameFeatures N xs ys) : score N xs = score N ys := by
  simp only [Machine.score, rmsNorm, crestNorm, h.rms, h.crest, h.tilt]

theorem SameFeatures.velocity (h : SameFeatures N xs ys) : velocity N xs = velocity N ys := by
  rw [Machine.velocity, Machine.velocity, h.score]

/-! ### Maps that keep squares and magnitudes -/

section
variable {f : α → α}

theorem sumSquares_map (hsq : ∀ x ∈ xs, N.mul (f x) (f x) = N.mul x x) : N.sumSquares (xs.map f) = N.sumSquares xs := by
  rw [Numerics.sumSquares, List.foldl_map]
  exact List.foldl_ext _ _ _ fun acc x hx => by rw [hsq x hx]

theorem peak_map (habs : ∀ x ∈ xs, N.abs (f x) = N.abs x) : N.peak (xs.map f) = N.peak xs := by
  cases xs with
  | nil => rfl
  | cons x xs =>
    obtain ⟨hx, hrest⟩ := List.forall_mem_cons.1 habs
    rw [List.map_cons, Numerics.peak, List.foldl_map, hx]
    exact List.foldl_ext _ _ _ fun acc y hy => by rw [hrest y hy]

theorem sameFeatures_map (hsq : ∀ x ∈ xs, N.mul (f x) (f x) = N.mul x x) (habs : ∀ x ∈ xs, N.abs (f x) = N.abs x) :
    SameFeatures N (xs.map f) xs := by
  have hrms : rms N (xs.map f) = rms N xs := by rw [rms, rms, List.length_map, sumSquares_map hsq]
  have htake (k : ℕ) : N.sumSquares ((xs.take k).map f) = N.sumSquares (xs.take k) :=
    sumSquares_map fun x hx => hsq x (List.mem_of_mem_take hx)
  have hdrop (k : ℕ) : N.sumSquares ((xs.drop k).map f) = N.sumSquares (xs.drop k) :=
    sumSquares_map fun x hx => hsq x (List.mem_of_mem_drop hx)
  refine ⟨hrms, ?_, ?_⟩
  · rw [crest, crest, hrms, peak_map habs]
  · simp only [tilt, List.length_map, ← List.map_take, ← List.map_drop, htake, hdrop]

end

/-! ### Silent blocks -/

/-- A block whose squares add nothing to 0, in a number system where 0 equals itself and is the root of 0 over the
block's length. -/
structure Silent (N : Numerics α) (xs : List α) : Prop where
  square : ∀ x ∈ xs, N.add (N.nat 0) (N.mul x x) = N.nat 0
  zero_eq : N.eq (N.nat 0) (N.nat 0) = true
  root : xs.length ≠ 0 → N.sqrt (N.div (N.nat 0) (N.nat xs.length)) = N.nat 0

theorem sumSquares_of_square (h : ∀ x ∈ xs, N.add (N.nat 0) (N.mul x x) = N.nat 0) : N.sumSquares xs = N.nat 0 := by
  induction xs with
  | nil => rfl
  | cons x xs ih =>
    obtain ⟨hx, hrest⟩ := List.forall_mem_cons.1 h
    rw [Numerics.sumSquares, List.foldl_cons, hx]
    exact ih hrest

theorem Silent.rms (h : Silent N xs) : rms N xs = N.nat 0 := by
  rw [Machine.rms, sumSquares_of_square h.square]
  split_ifs with hlength
  · rfl
  · exact h.root hlength

theorem Silent.crest (h : Silent N xs) : crest N xs = N.nat 0 := by
  rw [Machine.crest, h.rms]
  exact if_pos h.zero_eq

theorem Silent.tilt (h : Silent N xs) : tilt N xs = N.lit 1 2 := by
  have htake (k : ℕ) : N.sumSquares (xs.take k) = N.nat 0 :=
    sumSquares_of_square fun x hx => h.square x (List.mem_of_mem_take hx)
  have hdrop (k : ℕ) : N.sumSquares (xs.drop k) = N.nat 0 :=
    sumSquares_of_square fun x hx => h.square x (List.mem_of_mem_drop hx)
  simp only [Machine.tilt, htake, hdrop, h.zero_eq, Bool.and_self, if_true, ite_self]

/-- The score of a silent block is that of the empty one (R171). -/
theorem Silent.velocity (h : Silent N xs) : velocity N xs = velocity N [] := by
  have hnil : Silent N [] := ⟨fun _ hx => absurd hx List.not_mem_nil, h.zero_eq, fun hlength => absurd rfl hlength⟩
  exact SameFeatures.velocity
    ⟨h.rms.trans hnil.rms.symm, h.crest.trans hnil.crest.symm, h.tilt.trans hnil.tilt.symm⟩

/-! ### The commands on the machine -/

/-- A command word of the format GX, whose `ch` field is zero (R72). -/
theorem encode_of_length {i : Instr} {n : BitVec 16} {w : Word} (op : BitVec 8) (hop : opOf i = op) (hch : chOf i = 0)
    (himm : immOf i = n) (hw : op.setWidth 32 <<< 24 = w := by decide) :
    encode i = (w ||| n.setWidth 32) :: operandsOf i := by
  rw [encode, encodeHead, hop, hch, himm, commandWord_eq_or, hw, BitVec.ofNat_eq_ofNat, BitVec.setWidth_zero,
    BitVec.zero_shiftLeft, BitVec.or_zero]

section
variable {s : State} {n : BitVec 16} {xs : List Word} (hlength : n.toNat ≤ s.cfg.blockMax) (hin : InBlock s n xs)
include hlength hin

/-- VA.RMS on a written block (R165). -/
theorem exec_vaRms : exec (.vaRms n) s = .next { s with resp := s.resp ++ [rms binary32 xs] } :=
  exec_of_execute (runVaRms_ok_iff.2 ⟨xs, hlength, readFrom_of_inBlock hin, rfl⟩)

/-- VA.CREST on a written block (R166). -/
theorem exec_vaCrest : exec (.vaCrest n) s = .next { s with resp := s.resp ++ [crest binary32 xs] } :=
  exec_of_execute (runVaCrest_ok_iff.2 ⟨xs, hlength, readFrom_of_inBlock hin, rfl⟩)

/-- VA.TILT on a written block (R167). -/
theorem exec_vaTilt : exec (.vaTilt n) s = .next { s with resp := s.resp ++ [tilt binary32 xs] } :=
  exec_of_execute (runVaTilt_ok_iff.2 ⟨xs, hlength, readFrom_of_inBlock hin, rfl⟩)

/-- VA.SCORE on a written block (R170). -/
theorem exec_vaScore : exec (.vaScore n) s = .next { s with resp := s.resp ++ [velocity binary32 xs] } :=
  exec_of_execute (runVaScore_ok_iff.2 ⟨xs, hlength, readFrom_of_inBlock hin, rfl⟩)

end

/-! ### The features in binary32, with the words of their constants -/

section
variable (xs : List Word)

theorem sumSquares_binary32 : binary32.sumSquares xs = xs.foldl (fun acc x => F32.add acc (F32.mul x x)) 0 := by
  rw [Numerics.sumSquares, binary32_nat_zero]
  rfl

/-- The peak as the statement writes it, which reads a zero where there is no first sample (log 14). -/
theorem peak_binary32 :
    binary32.peak xs = xs.tail.foldl (fun acc x => F32.max acc (F32.abs x)) (F32.abs (xs.headD 0)) := by
  cases xs with
  | nil => exact binary32_nat_zero.trans (by decide)
  | cons x xs => rfl

theorem rms_binary32 :
    rms binary32 xs =
      if xs.length = 0 then 0 else F32.sqrt (F32.div (binary32.sumSquares xs) (F32.lit xs.length 1)) := by
  rw [rms, binary32_nat_zero]
  rfl

theorem crest_binary32 :
    crest binary32 xs = if F32.eq (rms binary32 xs) 0 then 0 else F32.div (binary32.peak xs) (rms binary32 xs) := by
  rw [crest, binary32_nat_zero]
  rfl

theorem tilt_binary32 :
    tilt binary32 xs =
      if xs.length < 4 then 0x3F000000
      else if F32.eq (binary32.sumSquares (xs.take (xs.length / 4))) 0 &&
          F32.eq (binary32.sumSquares (xs.drop (xs.length - xs.length / 4))) 0 then 0x3F000000
      else F32.div (binary32.sumSquares (xs.take (xs.length / 4)))
        (F32.add (binary32.sumSquares (xs.take (xs.length / 4)))
          (binary32.sumSquares (xs.drop (xs.length - xs.length / 4)))) := by
  rw [tilt, binary32_nat_zero, show binary32.lit 1 2 = 0x3F000000 from F32.lit_half]
  rfl

theorem rmsNorm_binary32 : rmsNorm binary32 xs = F32.min (F32.mul (rms binary32 xs) 0x41200000) 0x3F800000 := by
  rw [rmsNorm, binary32_nat_one, show binary32.nat 10 = 0x41200000 from F32.lit_ten]
  rfl

theorem crestNorm_binary32 :
    crestNorm binary32 xs =
      F32.min (F32.max (F32.div (F32.sub (crest binary32 xs) 0x3F800000) 0x41200000) 0) 0x3F800000 := by
  rw [crestNorm, clamp01_binary32, binary32_nat_one, show binary32.nat 10 = 0x41200000 from F32.lit_ten]
  rfl

theorem score_binary32 :
    score binary32 xs =
      F32.add (F32.add (F32.mul 0x3F000000 (rmsNorm binary32 xs)) (F32.mul 0x3E99999A (crestNorm binary32 xs)))
        (F32.mul 0x3E4CCCCD (tilt binary32 xs)) := by
  rw [score]
  simp only [binary32, F32.lit_half, F32.lit_three_tenths, F32.lit_fifth]

theorem velocity_binary32 :
    velocity binary32 xs = F32.div 0x3F800000 (F32.add 0x3F800000
      (F32.exp (F32.neg (F32.sub (F32.mul (score binary32 xs) 0x40000000) 0x3F800000)))) := by
  rw [velocity, Numerics.logistic, binary32_nat_one, binary32_nat_two]
  simp only [binary32]

end

/-! ### Silence in binary32 -/

/-- The word of a whole number up to `2^24` has that value. -/
theorem F32.within_lit {n : ℕ} (hn : n ≤ 2 ^ 24) : F32.Within n n (F32.lit n 1) := by
  have hvalue : (n : ℝ) / (1 : ℕ) = n := by rw [Nat.cast_one, div_one]
  have hlt : (n : ℝ) / (1 : ℕ) < 2 ^ 128 - 2 ^ 103 :=
    (le_abs_self _).trans_lt (abs_lt_overflow (by positivity) hvalue.le hn)
  exact (F32.rounds_lit one_pos hlt).within hvalue.ge hvalue.le hn

/-- Zero over a positive whole number is the zero without a sign. -/
theorem F32.zero_div_lit {n : ℕ} (h0 : n ≠ 0) (hn : n ≤ 2 ^ 24) : F32.div 0 (F32.lit n 1) = 0 := by
  have hlit := F32.within_lit hn
  have hpos : (0 : ℝ) < F32.value (F32.lit n 1) := (Nat.cast_pos.2 (Nat.pos_of_ne_zero h0)).trans_le hlit.lower
  have hmag : F32.mag (F32.lit n 1) ≠ 0 := mt F32.value_eq_zero.2 hpos.ne'
  have hsign := F32.sign_eq_false_of_value_nonneg hpos.le hmag
  have hround := F32.roundMag_zero (Nat.pos_of_ne_zero (mt F32.magUnits_eq_zero.1 hmag))
  rw [F32.div_finite (by decide) hlit.finite hmag, hsign, show F32.mag 0 = 0 from rfl, F32.magUnits_zero,
    Nat.zero_mul, hround]
  exact F32.finish_of_lt (by decide)

/-- The square of a zero of either sign is the zero without a sign. -/
theorem F32.mul_self_of_isZero {x : Word} (h : F32.IsZero x) : F32.mul x x = 0 := by
  rw [F32.mul_zero h.1 h.1 h.2, Bool.xor_self]
  rfl

/-- A block of zeros of any signs is silent in binary32 (R171, log 12). -/
theorem silent_binary32 {xs : List Word} (hn : xs.length ≤ 2 ^ 24) (h : ∀ x ∈ xs, F32.IsZero x) :
    Silent binary32 xs where
  square x hx := by
    rw [binary32_nat_zero]
    exact (congrArg (F32.add 0) (F32.mul_self_of_isZero (h x hx))).trans (by decide)
  zero_eq := by
    rw [binary32_nat_zero]
    decide
  root h0 := by
    rw [binary32_nat_zero]
    exact (congrArg F32.sqrt (F32.zero_div_lit h0 hn)).trans (by decide)

/-! ### Squares in binary32 -/

/-- The square of a sample up to `2^63`, the bound of the statement, does not overflow, so the magnitude alone gives it
(R172). -/
theorem F32.mul_self_of_mag_le {x : Word} (h : F32.mag x ≤ 0x5F000000) :
    F32.mul x x = F32.pack false (F32.roundMag (F32.magUnits (F32.mag x) * F32.magUnits (F32.mag x)) (2 ^ 149)) := by
  have hfin : F32.isFinite x = true := F32.isFinite_iff.2 (h.trans_lt (by decide))
  have hmag := F32.magUnits_strictMono.monotone h
  have hbound : F32.magUnits 0x5F000000 * F32.magUnits 0x5F000000 = F32.magUnits 0x7E800000 * 2 ^ 149 := by
    decide +kernel
  have hround := F32.roundMag_le (q := 2 ^ 149) (by positivity) ((Nat.mul_le_mul hmag hmag).trans hbound.le)
  rw [F32.mul_finite hfin hfin, Bool.xor_self, F32.finish_of_lt (hround.trans_lt (by decide))]

theorem F32.neg_mul_neg_self {x : Word} (h : F32.mag x ≤ 0x5F000000) :
    F32.mul (F32.neg x) (F32.neg x) = F32.mul x x := by
  have hneg := F32.mag_neg (F32.isFinite_iff.2 (h.trans_lt (by decide)))
  rw [F32.mul_self_of_mag_le (hneg.trans_le h), hneg, F32.mul_self_of_mag_le h]

/-! ### The features over the reals -/

section
variable (a b : ℝ)
@[simp] theorem realNum_add : realNum.add a b = a + b := rfl
@[simp] theorem realNum_sub : realNum.sub a b = a - b := rfl
@[simp] theorem realNum_mul : realNum.mul a b = a * b := rfl
@[simp] theorem realNum_div : realNum.div a b = a / b := rfl
@[simp] theorem realNum_neg : realNum.neg a = -a := rfl
@[simp] theorem realNum_min : realNum.min a b = min a b := rfl
@[simp] theorem realNum_max : realNum.max a b = max a b := rfl
@[simp] theorem realNum_eq : realNum.eq a b = decide (a = b) := rfl
@[simp] theorem realNum_sqrt : realNum.sqrt a = √a := rfl
@[simp] theorem realNum_exp : realNum.exp a = Real.exp a := rfl
@[simp] theorem realNum_lit (p q : ℕ) : realNum.lit p q = p / q := rfl
@[simp] theorem realNum_nat (n : ℕ) : realNum.nat n = n := (realNum_lit n 1).trans (by simp)
end

theorem realNum_half : realNum.lit 1 2 = 0.5 := by norm_num

section
variable (xs : List ℝ)

theorem sumSquares_real : realNum.sumSquares xs = (xs.map fun x => x * x).sum := by
  rw [Numerics.sumSquares, realNum_nat, Nat.cast_zero, List.sum_eq_foldl, List.foldl_map]
  rfl

theorem rms_real : rms realNum xs = if xs.length = 0 then 0 else √(realNum.sumSquares xs / xs.length) := by
  simp [rms]

theorem crest_real :
    crest realNum xs = if rms realNum xs = 0 then 0 else realNum.peak xs / rms realNum xs := by
  simp [crest]

theorem tilt_real :
    tilt realNum xs =
      if xs.length < 4 then 0.5
      else if realNum.sumSquares (xs.take (xs.length / 4)) = 0 ∧
          realNum.sumSquares (xs.drop (xs.length - xs.length / 4)) = 0 then 0.5
      else realNum.sumSquares (xs.take (xs.length / 4)) /
        (realNum.sumSquares (xs.take (xs.length / 4)) +
          realNum.sumSquares (xs.drop (xs.length - xs.length / 4))) := by
  rw [tilt, realNum_half]
  simp

theorem rmsNorm_real : rmsNorm realNum xs = min (rms realNum xs * 10) 1 := by
  simp [rmsNorm]

theorem crestNorm_real : crestNorm realNum xs = min (max ((crest realNum xs - 1) / 10) 0) 1 := by
  simp [crestNorm, Numerics.clamp01, Numerics.clamp]

theorem score_real :
    score realNum xs = 0.5 * rmsNorm realNum xs + 0.3 * crestNorm realNum xs + 0.2 * tilt realNum xs := by
  norm_num [score]

theorem velocity_real : velocity realNum xs = 1 / (1 + Real.exp (-(score realNum xs * 2 - 1))) := by
  simp [velocity, Numerics.logistic]

end

/-! ### Energy and peak over the reals -/

section
variable {xs : List ℝ}

theorem sumSquares_real_nonneg : 0 ≤ realNum.sumSquares xs := by
  rw [sumSquares_real]
  exact List.sum_nonneg (List.forall_mem_map.2 fun x _ => mul_self_nonneg x)

theorem sq_le_sumSquares_real {x : ℝ} (hx : x ∈ xs) : x ^ 2 ≤ realNum.sumSquares xs := by
  rw [sumSquares_real, sq]
  exact List.single_le_sum (List.forall_mem_map.2 fun y _ => mul_self_nonneg y) _ (List.mem_map_of_mem hx)

theorem sumSquares_real_eq_zero : realNum.sumSquares xs = 0 ↔ ∀ x ∈ xs, x = 0 := by
  refine ⟨fun h x hx => pow_eq_zero_iff two_ne_zero |>.1 (le_antisymm ?_ (sq_nonneg x)), fun h => ?_⟩
  · exact h ▸ sq_le_sumSquares_real hx
  · exact (sumSquares_of_square fun x hx => by simp [h x hx]).trans (by simp)

theorem sumSquares_real_le {p : ℝ} (h : ∀ x ∈ xs, |x| ≤ p) : realNum.sumSquares xs ≤ xs.length * p ^ 2 := by
  rw [sumSquares_real]
  have hsum := List.sum_le_card_nsmul (xs.map fun x => x * x) (p ^ 2)
    (List.forall_mem_map.2 fun x hx => by rw [← abs_mul_abs_self, ← sq]; gcongr; exact h x hx)
  rwa [List.length_map, nsmul_eq_mul] at hsum

/-- The peak of a block that is not empty is its largest magnitude (R163). -/
theorem peak_real (h : xs ≠ []) : (∃ x ∈ xs, |x| = realNum.peak xs) ∧ ∀ x ∈ xs, |x| ≤ realNum.peak xs := by
  have hmax : (xs.map abs).max? = some (realNum.peak xs) := by
    cases xs with
    | nil => exact absurd rfl h
    | cons x xs =>
      rw [List.map_cons, List.max?_cons', List.foldl_map]
      rfl
  obtain ⟨hmem, hle⟩ := List.max?_eq_some_iff.1 hmax
  exact ⟨List.mem_map.1 hmem, List.forall_mem_map.1 hle⟩

theorem rms_real_nonneg : 0 ≤ rms realNum xs := by
  rw [rms_real]
  split_ifs
  · exact le_rfl
  · exact Real.sqrt_nonneg _

/-- The square of rms is the mean square (R162). -/
theorem length_mul_rms_real_sq : xs.length * rms realNum xs ^ 2 = realNum.sumSquares xs := by
  rw [rms_real]
  split_ifs with hlength
  · rw [List.eq_nil_of_length_eq_zero hlength]
    simp [sumSquares_real]
  · have hpos : (xs.length : ℝ) ≠ 0 := Nat.cast_ne_zero.2 hlength
    rw [Real.sq_sqrt (div_nonneg sumSquares_real_nonneg (Nat.cast_nonneg _)), mul_div_cancel₀ _ hpos]

theorem rms_real_eq_zero : rms realNum xs = 0 ↔ ∀ x ∈ xs, x = 0 := by
  rw [← sumSquares_real_eq_zero]
  refine ⟨fun h => ?_, fun h => ?_⟩
  · rw [← length_mul_rms_real_sq, h]
    simp
  · rw [rms_real, h]
    simp

theorem ne_nil_of_rms_real (h : rms realNum xs ≠ 0) : xs ≠ [] := by
  rintro rfl
  exact h (rms_real_eq_zero.2 fun _ hx => absurd hx List.not_mem_nil)

/-- The peak is rms at least: the mean of the squares is at most the largest of them. -/
theorem rms_real_le_peak (h : xs ≠ []) : rms realNum xs ≤ realNum.peak xs := by
  obtain ⟨⟨x, -, hx⟩, hle⟩ := peak_real h
  have hpeak : 0 ≤ realNum.peak xs := hx ▸ abs_nonneg x
  have hlength : (0 : ℝ) < xs.length := Nat.cast_pos.2 (List.length_pos_iff.2 h)
  have hsum := sumSquares_real_le hle
  rw [← length_mul_rms_real_sq] at hsum
  exact (pow_le_pow_iff_left₀ rms_real_nonneg hpeak two_ne_zero).1 (le_of_mul_le_mul_left hsum hlength)

/-- The peak is at most `√n` times rms: the largest square is at most the sum. -/
theorem peak_real_le (h : xs ≠ []) : realNum.peak xs ≤ √xs.length * rms realNum xs := by
  obtain ⟨⟨x, hmem, hx⟩, -⟩ := peak_real h
  have hsum := sq_le_sumSquares_real hmem
  rw [← length_mul_rms_real_sq] at hsum
  rw [← hx]
  refine abs_le_of_sq_le_sq ?_ (mul_nonneg (Real.sqrt_nonneg _) rms_real_nonneg)
  rwa [mul_pow, Real.sq_sqrt (Nat.cast_nonneg _)]

theorem tilt_real_mem : 0 ≤ tilt realNum xs ∧ tilt realNum xs ≤ 1 := by
  have hfirst := sumSquares_real_nonneg (xs := xs.take (xs.length / 4))
  have hlast := sumSquares_real_nonneg (xs := xs.drop (xs.length - xs.length / 4))
  rw [tilt_real]
  split_ifs
  · norm_num
  · norm_num
  · exact ⟨by positivity, div_le_one_of_le₀ (le_add_of_nonneg_right hlast) (add_nonneg hfirst hlast)⟩

theorem score_real_mem : 0 ≤ score realNum xs ∧ score realNum xs ≤ 1 := by
  obtain ⟨htilt0, htilt1⟩ := tilt_real_mem (xs := xs)
  have hrms0 : 0 ≤ rmsNorm realNum xs := by
    rw [rmsNorm_real]
    exact le_min (mul_nonneg rms_real_nonneg (by norm_num)) zero_le_one
  have hrms1 : rmsNorm realNum xs ≤ 1 := by
    rw [rmsNorm_real]
    exact min_le_right _ _
  have hcrest0 : 0 ≤ crestNorm realNum xs := by
    rw [crestNorm_real]
    exact le_min (le_max_right _ _) zero_le_one
  have hcrest1 : crestNorm realNum xs ≤ 1 := by
    rw [crestNorm_real]
    exact min_le_right _ _
  rw [score_real]
  constructor <;> linarith

/-- A block of zeros is silent over the reals (R171). -/
theorem silent_real (h : ∀ x ∈ xs, x = 0) : Silent realNum xs where
  square x hx := by simp [h x hx]
  zero_eq := by simp
  root _ := by simp

theorem velocity_real_nil : velocity realNum [] = 1 / (1 + Real.exp 0.8) := by
  have hsilent : Silent realNum [] := silent_real fun _ hx => absurd hx List.not_mem_nil
  have hscore : score realNum [] = 0.1 := by
    rw [score_real, rmsNorm_real, crestNorm_real, hsilent.rms, hsilent.crest, hsilent.tilt, realNum_half]
    norm_num
  rw [velocity_real, hscore]
  norm_num

end

end Sys2Proof.Machine

open Sys2Proof Sys2Proof.Machine

/-- Settles O53: the formulas over the reals, with the peak as the maximum of the magnitudes. -/
theorem analyzerReference : Obligations.AnalyzerReference := by
  intro xs n energy
  simp only [n, energy, ← sumSquares_real]
  refine ⟨rms_real xs, fun h => ?_, fun h => ?_, tilt_real xs⟩
  · rw [crest_real, if_pos h]
  · rw [crest_real, if_neg h]
    exact ⟨_, rfl, peak_real (ne_nil_of_rms_real h)⟩

/-- Settles O54: crest by comparing the sum of the squares with the square of the peak, velocity by the bounds of the
score. -/
theorem analyzerBounds : Obligations.AnalyzerBounds := by
  intro xs
  obtain ⟨hscore0, hscore1⟩ := score_real_mem (xs := xs)
  refine ⟨rms_real_nonneg, rms_real_eq_zero, fun hpos => ?_, tilt_real_mem, rmsNorm_real xs, crestNorm_real xs,
    score_real xs, score_real_mem, velocity_real xs, ?_, ?_⟩
  · have hne := ne_nil_of_rms_real hpos.ne'
    rw [crest_real, if_neg hpos.ne', one_le_div hpos, div_le_iff₀ hpos]
    exact ⟨rms_real_le_peak hne, peak_real_le hne⟩
  · rw [velocity_real]
    gcongr
    linarith
  · rw [velocity_real]
    gcongr
    linarith

/-- Settles O55: a silent block has the features of the empty block, over the reals and in binary32. -/
theorem silence : Obligations.Silence := by
  refine ⟨fun xs h => ?_, velocity binary32 [], fun s n xs hlength hin h => ?_⟩
  · have hsilent := silent_real h
    exact ⟨hsilent.rms.trans (by simp), hsilent.crest.trans (by simp), hsilent.tilt.trans realNum_half,
      hsilent.velocity.trans velocity_real_nil⟩
  · have hsilent := silent_binary32 (xs := xs) (by rw [hin.1]; omega) h
    rw [exec_vaRms hlength hin, exec_vaCrest hlength hin, exec_vaTilt hlength hin, exec_vaScore hlength hin,
      hsilent.rms, hsilent.crest, hsilent.tilt, hsilent.velocity, binary32_nat_zero]
    refine ⟨⟨0, rfl, F32.isZero_zero⟩, ⟨0, rfl, F32.isZero_zero⟩, ?_, rfl⟩
    rw [show binary32.lit 1 2 = 0x3F000000 from F32.lit_half]

/-- Settles O56: negation keeps magnitudes, and squares where they do not overflow. -/
theorem signInvariance : Obligations.SignInvariance := by
  refine ⟨fun xs => ?_, fun xs hxs => ?_⟩
  · have hsame : SameFeatures realNum (xs.map (-·)) xs :=
      sameFeatures_map (fun x _ => neg_mul_neg x x) (fun x _ => abs_neg x)
    exact ⟨hsame.rms, hsame.crest, hsame.tilt, hsame.score, hsame.velocity⟩
  · have hsame : SameFeatures binary32 (xs.map F32.neg) xs :=
      sameFeatures_map (fun x hx => F32.neg_mul_neg_self (hxs x hx))
        (fun x hx => F32.abs_neg (F32.isFinite_iff.2 ((hxs x hx).trans_lt (by decide))))
    exact ⟨hsame.rms, hsame.crest, hsame.tilt, hsame.score, hsame.velocity⟩

/-- Settles O30: the commands put out the features of the block, which the statement writes with the words of their
constants. -/
theorem analyzerResults : Obligations.AnalyzerResults := by
  intro s n xs hlength hin
  rw [exec_vaRms hlength hin, exec_vaCrest hlength hin, exec_vaTilt hlength hin, exec_vaScore hlength hin,
    velocity_binary32, score_binary32, rmsNorm_binary32, crestNorm_binary32, crest_binary32, rms_binary32,
    tilt_binary32, peak_binary32, sumSquares_binary32, sumSquares_binary32, sumSquares_binary32, hin.1]
  exact ⟨⟨encode_of_length 0x60 rfl rfl rfl, encode_of_length 0x61 rfl rfl rfl, encode_of_length 0x62 rfl rfl rfl,
    encode_of_length 0x63 rfl rfl rfl⟩, rfl, rfl, rfl, rfl⟩

end

section
/-! PROOF. The mix utilities (R181 to R185, R188). Over the reals the first soft clip is its cubic at the sample clamped to
`[-1, 1]`, where the cubic is monotone with the end values ±2/3; in binary32 the endpoints of the mix add a zero. -/

namespace Sys2Proof.Machine

/-! ### The commands on the machine -/

/-- A command word of the format GP, all of whose fields but the opcode are zero (R72). -/
theorem encode_of_opcode {i : Instr} {w : Word} (op : BitVec 8) (hop : opOf i = op) (hch : chOf i = 0) (himm : immOf i = 0)
    (hw : op.setWidth 32 <<< 24 = w := by decide) : encode i = w :: operandsOf i := by
  rw [encode_of_length op hop hch himm hw, BitVec.ofNat_eq_ofNat, BitVec.setWidth_zero, BitVec.or_zero]

section
variable {s : State}

/-- MIX (R181). -/
theorem exec_mix (dry wet mix : Word) :
    exec (.mix dry wet mix) s = .next { s with resp := s.resp ++ [mixDryWet binary32 dry wet mix] } :=
  exec_of_execute (runMix_ok_iff.2 rfl)

/-- DB2LIN (R182). -/
theorem exec_db2lin (db : Word) :
    exec (.db2lin db) s = .next { s with resp := s.resp ++ [dbToLinear binary32 db] } :=
  exec_of_execute (runDb2lin_ok_iff.2 rfl)

/-- SCLIPA (R184). -/
theorem exec_sclipa (x : Word) : exec (.sclipa x) s = .next { s with resp := s.resp ++ [softClipA binary32 x] } :=
  exec_of_execute (runSclipa_ok_iff.2 rfl)

/-- LEGACY.PROCB on a written block (R185). -/
theorem exec_legacyProcb {n : BitVec 16} {xs : List Word} (db : Word) (hlength : n.toNat ≤ s.cfg.blockMax)
    (hin : InBlock s n xs) :
    exec (.legacyProcb n db) s = .next { s with mem := { s.mem with
      outBuf := Buffer.writeFrom s.mem.outBuf 0 (xs.map (legacySample binary32 (dbToLinear binary32 db))) } } :=
  exec_of_execute (runLegacyProcb_ok_iff.2 ⟨xs, hlength, readFrom_of_inBlock hin, rfl⟩)

end

/-! ### The formulas in binary32, with the words of their constants -/

theorem mixDryWet_binary32 (dry wet mix : Word) :
    mixDryWet binary32 dry wet mix = F32.add (F32.mul dry (F32.sub 0x3F800000 mix)) (F32.mul wet mix) := by
  rw [mixDryWet, binary32_nat_one]
  rfl

theorem dbToLinear_binary32 (db : Word) : dbToLinear binary32 db = F32.pow10 (F32.div db 0x41A00000) := by
  rw [dbToLinear, show binary32.nat 20 = 0x41A00000 from F32.lit_twenty]
  rfl

theorem softClipA_binary32 (x : Word) :
    softClipA binary32 x =
      if F32.le (F32.abs x) 0x3F800000 then F32.sub x (F32.div (F32.mul (F32.mul x x) x) 0x40400000)
      else if F32.lt 0 x then 0x3F2AAAAB else 0xBF2AAAAB := by
  have hneg : binary32.neg 0x3F2AAAAB = 0xBF2AAAAB := by decide
  rw [softClipA, binary32_nat_zero, binary32_nat_one, show binary32.nat 3 = 0x40400000 from F32.lit_three,
    show binary32.lit 2 3 = 0x3F2AAAAB from F32.lit_two_thirds, hneg]
  rfl

/-! ### The endpoints of the mix in binary32 -/

section
variable {a b z : Word}

/-- A finite word times a zero of either sign is a zero. -/
theorem F32.isZero_mul_right (hb : F32.isFinite b = true) (hz : F32.IsZero z) : F32.IsZero (F32.mul b z) := by
  rw [F32.mul_zero hb hz.1 hz.2]
  exact F32.isZero_pack _

theorem F32.one_sub_of_isZero (hz : F32.IsZero z) : F32.sub 0x3F800000 z = 0x3F800000 := by
  rw [← F32.pack_sign_mag z, F32.mag_eq_zero_iff.1 hz.2]
  cases F32.sign z
  · decide +kernel
  · decide +kernel

variable (ha : F32.isFinite a = true) (hb : F32.isFinite b = true)
include ha hb

/-- A mix of zero adds a zero to the dry operand (R188). -/
theorem mixDryWet_zero_sameValue (hz : F32.IsZero z) : F32.SameValue (mixDryWet binary32 a b z) a := by
  have hwet := F32.isZero_mul_right hb hz
  rw [mixDryWet_binary32, F32.one_sub_of_isZero hz, F32.mul_one ha]
  obtain ⟨hfin, hunits⟩ := F32.units_add_zero ha hwet.1 hwet.2
  exact ⟨hfin, ha, hunits⟩

/-- A mix of one adds the wet operand to a zero (R188). -/
theorem mixDryWet_one_sameValue : F32.SameValue (mixDryWet binary32 a b 0x3F800000) b := by
  have hone : F32.sub 0x3F800000 0x3F800000 = 0 := by decide +kernel
  have hdry := F32.isZero_mul_right ha F32.isZero_zero
  rw [mixDryWet_binary32, hone, F32.mul_one hb]
  obtain ⟨hfin, hunits⟩ := F32.units_zero_add hb hdry.1 hdry.2
  exact ⟨hfin, hb, hunits⟩

end

/-! ### The formulas over the reals -/

section
variable (a b : ℝ)
@[simp] theorem realNum_abs : realNum.abs a = |a| := rfl
@[simp] theorem realNum_lt : realNum.lt a b = decide (a < b) := rfl
@[simp] theorem realNum_le : realNum.le a b = decide (a ≤ b) := rfl
@[simp] theorem realNum_pow10 : realNum.pow10 a = (10 : ℝ) ^ a := rfl
end

theorem mixDryWet_real (a b m : ℝ) : mixDryWet realNum a b m = a * (1 - m) + b * m := by simp [mixDryWet]

theorem dbToLinear_real (db : ℝ) : dbToLinear realNum db = (10 : ℝ) ^ (db / 20) := by simp [dbToLinear]

theorem softClipA_real (x : ℝ) :
    softClipA realNum x = if |x| ≤ 1 then x - x * x * x / 3 else if 0 < x then 2 / 3 else -(2 / 3) := by
  simp [softClipA]

section
variable {x : ℝ}

theorem softClipA_real_of_abs_le (h : |x| ≤ 1) : softClipA realNum x = x - x * x * x / 3 := by
  rw [softClipA_real, if_pos h]

theorem softClipA_real_of_gt (h : 1 < x) : softClipA realNum x = 2 / 3 := by
  rw [softClipA_real, if_neg (lt_abs.2 (.inl h)).not_ge, if_pos (one_pos.trans h)]

theorem softClipA_real_of_lt (h : x < -1) : softClipA realNum x = -(2 / 3) := by
  rw [softClipA_real, if_neg (lt_abs.2 (.inr (lt_neg_of_lt_neg h))).not_ge, if_neg (by linarith)]

end

theorem softClipA_real_one : softClipA realNum 1 = 2 / 3 := by norm_num [softClipA_real]

theorem softClipA_real_neg_one : softClipA realNum (-1) = -(2 / 3) := by norm_num [softClipA_real]

/-- Outside `[-1, 1]` the soft clip keeps its value at the nearer end (R183). -/
theorem softClipA_real_clamp (x : ℝ) : softClipA realNum (max (-1) (min x 1)) = softClipA realNum x := by
  rcases lt_or_ge x (-1) with hlow | hlow
  · rw [min_eq_left (by linarith), max_eq_left hlow.le, softClipA_real_neg_one, softClipA_real_of_lt hlow]
  · rcases lt_or_ge 1 x with hhigh | hhigh
    · rw [min_eq_right hhigh.le, max_eq_right (by norm_num), softClipA_real_one, softClipA_real_of_gt hhigh]
    · rw [min_eq_left hhigh, max_eq_right hlow]

theorem softClipA_real_neg (x : ℝ) : softClipA realNum (-x) = -softClipA realNum x := by
  rcases le_or_gt |x| 1 with hinner | houter
  · rw [softClipA_real_of_abs_le hinner, softClipA_real_of_abs_le (by rwa [abs_neg])]
    ring
  · rcases lt_abs.1 houter with hpos | hneg
    · rw [softClipA_real_of_gt hpos, softClipA_real_of_lt (neg_lt_neg hpos)]
    · rw [softClipA_real_of_gt hneg, softClipA_real_of_lt (lt_neg_of_lt_neg hneg), neg_neg]

/-- The cubic rises on `[-1, 1]`: a difference of two of its values is the difference of the samples times a factor that is
not negative there. -/
theorem monotoneOn_softClipA_real : MonotoneOn (softClipA realNum) (Set.Icc (-1) 1) := by
  intro a ha b hb hab
  have hstep : 0 ≤ b - a := sub_nonneg.2 hab
  have hslope : 0 ≤ 3 - a ^ 2 - a * b - b ^ 2 := by
    nlinarith [abs_le_one_iff_mul_self_le_one.1 (abs_le.2 ha), abs_le_one_iff_mul_self_le_one.1 (abs_le.2 hb),
      sq_nonneg (a - b)]
  rw [softClipA_real_of_abs_le (abs_le.2 ha), softClipA_real_of_abs_le (abs_le.2 hb), ← sub_nonneg]
  calc 0 ≤ (b - a) * (3 - a ^ 2 - a * b - b ^ 2) / 3 := by positivity
    _ = b - b * b * b / 3 - (a - a * a * a / 3) := by ring

theorem clamp_mem_Icc (x : ℝ) : max (-1) (min x 1) ∈ Set.Icc (-1 : ℝ) 1 :=
  ⟨le_max_left _ _, max_le (by norm_num) (min_le_right _ _)⟩

theorem monotone_softClipA_real : Monotone (softClipA realNum) := by
  intro x y hxy
  rw [← softClipA_real_clamp x, ← softClipA_real_clamp y]
  exact monotoneOn_softClipA_real (clamp_mem_Icc x) (clamp_mem_Icc y) (by gcongr)

/-- The clamped sample lies between the ends, whose values are ±2/3. -/
theorem abs_softClipA_real_le (x : ℝ) : |softClipA realNum x| ≤ 2 / 3 := by
  obtain ⟨hlow, hhigh⟩ := clamp_mem_Icc x
  rw [← softClipA_real_clamp x, abs_le, ← softClipA_real_neg_one, ← softClipA_real_one]
  exact ⟨monotone_softClipA_real hlow, monotone_softClipA_real hhigh⟩

end Sys2Proof.Machine

open Sys2Proof Sys2Proof.Machine

/-- Settles O57: a power of 10 is positive and strictly increasing in its exponent, and the logarithm to the base 10 of a
gain gives back the gain. -/
theorem dbToLinearBijective : Obligations.DbToLinearBijective := by
  simp only [Obligations.DbToLinearBijective, dbToLinear_real]
  refine ⟨fun db => ⟨trivial, by positivity⟩, fun a b hab => ?_, fun g hg => ⟨20 * Real.logb 10 g, ?_⟩, ?_, ?_⟩
  · exact Real.rpow_lt_rpow_of_exponent_lt (by norm_num) (by linarith)
  · rw [mul_div_cancel_left₀ _ (by norm_num), Real.rpow_logb (by norm_num) (by norm_num) hg]
  · norm_num
  · norm_num

/-- Settles O58: clamping the sample to `[-1, 1]` does not change its soft clip, and there it is a cubic that rises. -/
theorem softClipShape : Obligations.SoftClipShape :=
  ⟨fun x => ⟨softClipA_real_of_abs_le, softClipA_real_of_gt, softClipA_real_of_lt, softClipA_real_neg x,
    abs_softClipA_real_le x⟩, fun _ _ hxy => monotone_softClipA_real hxy,
    fun g x => ⟨rfl, abs_softClipA_real_le (x * g)⟩⟩

/-- Settles O59: at either endpoint one factor is one and the other product a zero. -/
theorem mixEndpoints : Obligations.MixEndpoints := by
  refine ⟨fun s a b zero ha hb hzero => ⟨⟨_, exec_mix a b zero, mixDryWet_zero_sameValue ha hb hzero⟩,
    ⟨_, exec_mix a b 0x3F800000, mixDryWet_one_sameValue ha hb⟩⟩, fun a b m => ⟨mixDryWet_real a b m, ?_, ?_⟩⟩
  · rw [mixDryWet_real, sub_zero, mul_one, mul_zero, add_zero]
  · rw [mixDryWet_real, sub_self, mul_zero, mul_one, zero_add]

/-- Settles O31: the three commands put out their formula, which the statement writes with the words of its constants. -/
theorem utilityResults : Obligations.UtilityResults := by
  refine fun s => ⟨fun dry wet mix => ⟨encode_of_opcode 0x70 rfl rfl rfl, ?_⟩,
    fun db => ⟨encode_of_opcode 0x71 rfl rfl rfl, ?_⟩, fun x => ⟨encode_of_opcode 0x72 rfl rfl rfl, ?_⟩⟩
  · rw [exec_mix, mixDryWet_binary32]
  · rw [exec_db2lin, dbToLinear_binary32]
  · rw [exec_sclipa, softClipA_binary32]

/-- Settles O32: the output buffer is the one before with the clipped block written from its start. -/
theorem legacyBlock : Obligations.LegacyBlock := by
  intro s n db xs hlength g clip
  have hsample : legacySample binary32 (dbToLinear binary32 db) = fun x => clip (F32.mul x g) := by
    funext x
    rw [legacySample, softClipA_binary32, dbToLinear_binary32]
    rfl
  refine ⟨encode_of_length 0x74 rfl rfl rfl, fun hin => ⟨_, exec_legacyProcb db hlength hin, fun j => ?_⟩,
    fun j hj hnone hleast => ?_⟩
  · rw [Buffer.read_writeFrom, hsample, List.length_map, hin.1, Nat.zero_add, Nat.sub_zero, List.getElem?_map]
    simp only [Nat.zero_le, true_and]
  · exact exec_of_unwritten rfl hlength nofun (Buffer.readFrom_zero_error_iff.2 ⟨hj, hnone, hleast⟩)

end

section
/-! PROOF. Why a step is refused (R211 to R218): every reason with what it needs and with the earlier checks passed,
said once (`StepRefused`). Each statement on refusals reads off it which reason can stand where, and runs the checks for
the other direction. -/

namespace Sys2Proof.Machine

/-! ### Fields that an instruction has -/

/-- The channel field of a command is the channel of the instance it is addressed to (R36, R71). -/
theorem channelOf_eq_map_addressed (i : Instr) : channelOf i = (addressed i).map Prod.snd := by
  cases i <;> rfl

/-- A command with an element index in `imm` has no channel, and no block length, which would stand there too (R71,
R72). -/
theorem only_indexOf (i : Instr) :
    ((indexOf i).isSome && ((channelOf i).isSome || (lengthOf i).isSome)) = false := by
  cases i <;> rfl

theorem channelOf_of_indexOf {i : Instr} {j : BitVec 16} (h : indexOf i = some j) : channelOf i = none := by
  have honly := only_indexOf i
  rw [h, Option.isSome_some, Bool.true_and, Bool.or_eq_false_iff] at honly
  exact Option.isNone_iff_eq_none.1 (Option.isSome_eq_false_iff.1 honly.1)

theorem indexOf_of_lengthOf {i : Instr} {n : BitVec 16} (h : lengthOf i = some n) : indexOf i = none := by
  have honly := only_indexOf i
  rw [h, Option.isSome_some, Bool.or_true, Bool.and_true] at honly
  exact Option.isNone_iff_eq_none.1 (Option.isSome_eq_false_iff.1 honly)

/-- In a structured state every channel below `NCH` has its instance of each kind (R5). -/
theorem validBit_ne_none {s : State} (hs : Structured s) (k : UnitKind) {c : Nat} (hc : c < s.cfg.nch) :
    validBit k c s ≠ none := by
  cases k with
  | BQ => simpa [validBit, hs.bqLength] using hc
  | RIAA => simpa [validBit, hs.riaaLength] using hc
  | SAT => simpa [validBit, hs.satLength] using hc
  | HF => simpa [validBit, hs.hfLength] using hc
  | LIM => simpa [validBit, hs.limLength] using hc

section
variable {cfg : Config Word} {s : State} {i : Instr}

theorem channel_lt_of_channelOk {ch : BitVec 8} (hok : i.channelOk cfg = true) (h : channelOf i = some ch) :
    ch.toNat < cfg.nch := by simpa [Instr.channelOk, h] using hok

theorem index_lt_of_indexOk {j : BitVec 16} (hok : i.indexOk cfg = true) (h : indexOf i = some j) :
    j.toNat < cfg.blockMax := by simpa [Instr.indexOk, h] using hok

theorem length_le_of_lengthOk {n : BitVec 16} (hok : i.lengthOk cfg = true) (h : lengthOf i = some n) :
    n.toNat ≤ cfg.blockMax := by simpa [Instr.lengthOk, h] using hok

/-- A command whose fields are in range meets its instance, its element and its block in a structured state, so its own
checks find nothing out of range (R214). -/
theorem Refused.ne_outOfRange {r : Refusal} (h : Refused i s r) (hs : Structured s)
    (hchannel : i.channelOk s.cfg = true)
    (hindex : i.indexOk s.cfg = true) (hlength : i.lengthOk s.cfg = true) (w : RangeField) : r ≠ .outOfRange w := by
  rintro rfl
  cases h with
  | noInstance hk hV =>
    have hch := channelOf_eq_map_addressed i
    rw [hk] at hch
    exact validBit_ne_none hs _ (channel_lt_of_channelOk hchannel hch) hV
  | noElement hj hmax => exact absurd (index_lt_of_indexOk hindex hj) (not_lt.2 hmax)
  | tooLong hn hmax => exact absurd (length_le_of_lengthOk hlength hn) (not_le.2 hmax)

/-! ### The checks that refuse a command -/

theorem rangeRefusal_of_channel {ch : BitVec 8} (h : channelOf i = some ch) (hch : cfg.nch ≤ ch.toNat) :
    rangeRefusal cfg i = some (.outOfRange (.channel ch.toNat)) := by
  simp [rangeRefusal, h, channelRefusal, not_lt.2 hch]

theorem rangeRefusal_of_index {j : BitVec 16} (h : indexOf i = some j) (hj : cfg.blockMax ≤ j.toNat) :
    rangeRefusal cfg i = some (.outOfRange (.index j.toNat)) := by
  simp [rangeRefusal, channelOf_of_indexOf h, h, indexRefusal, not_lt.2 hj]

theorem rangeRefusal_of_length {n : BitVec 16} (hchannel : i.channelOk cfg = true) (h : lengthOf i = some n)
    (hn : cfg.blockMax < n.toNat) : rangeRefusal cfg i = some (.outOfRange (.length n.toNat)) := by
  have hnone : (channelOf i).bind (channelRefusal cfg) = none := by
    cases hch : channelOf i with
    | none => rfl
    | some ch => simp [channelRefusal, channel_lt_of_channelOk hchannel hch]
  simp [rangeRefusal, hnone, indexOf_of_lengthOf h, h, lengthRefusal, not_le.2 hn]

section
variable {cw : Word} {rest : List HostEvent} {r : Refusal}

/-- What decoding refuses, the step refuses (R77, R211). -/
theorem step_of_fetchCommand_refuse (hport : s.port = .word cw :: rest) (h : fetchCommand s.cfg cw rest = .refuse r) :
    step s = .refused r := by
  have hfetch : fetch s = .refuse r := by rw [fetch, hport]; exact h
  rw [step, hfetch]

theorem step_of_decode_error (hport : s.port = .word cw :: rest) {e : DecodeError}
    (h : decode cw (leadingWords rest) = .error e) : step s = .refused (decodeRefusal e) :=
  step_of_fetchCommand_refuse hport (by simp only [fetchCommand, h])

/-- The checks of the fields need no operand word (R77 steps 3 and 4). -/
theorem step_of_rangeRefusal (hport : s.port = .word cw :: rest) (hdecode : decode cw (leadingWords rest) = .ok i)
    (h : rangeRefusal s.cfg i = some r) : step s = .refused r :=
  step_of_fetchCommand_refuse hport (by simp only [fetchCommand, hdecode, h])

theorem step_of_operandRefusal (hport : s.port = .word cw :: rest) (hdecode : decode cw (leadingWords rest) = .ok i)
    (hrange : rangeRefusal s.cfg i = none) (harrived : (operandsOf i).length ≤ (leadingWords rest).length)
    (h : operandRefusal i = some r) : step s = .refused r :=
  step_of_fetchCommand_refuse hport (by simp only [fetchCommand, hdecode, hrange, if_neg (not_lt.2 harrived), h])

end

/-! ### Every reason for a refused step -/

/-- Why the step is refused whose command word is `cw`, with `rest` behind it on the port: each reason names what it
needs and the earlier checks that have passed (R77, R211, R218). -/
inductive StepRefused (s : State) (cw : Word) (rest : List HostEvent) : Refusal → Prop where
  | undefinedOpcode (h : rowOf (opField cw) = none) : StepRefused s cw rest (.undefinedOpcode (opField cw))
  | reservedField {row : OpRow} (h : rowOf (opField cw) = some row) (hzero : row.format.reservedZero cw = false) :
    StepRefused s cw rest .reservedFieldNonzero
  | channel {i : Instr} {ch : BitVec 8} (hdecode : decode cw (leadingWords rest) = .ok i) (hch : channelOf i = some ch)
    (h : s.cfg.nch ≤ ch.toNat) : StepRefused s cw rest (.outOfRange (.channel ch.toNat))
  | index {i : Instr} {j : BitVec 16} (hdecode : decode cw (leadingWords rest) = .ok i)
    (hchannel : i.channelOk s.cfg = true) (hj : indexOf i = some j) (h : s.cfg.blockMax ≤ j.toNat) :
    StepRefused s cw rest (.outOfRange (.index j.toNat))
  | length {i : Instr} {n : BitVec 16} (hdecode : decode cw (leadingWords rest) = .ok i)
    (hchannel : i.channelOk s.cfg = true) (hn : lengthOf i = some n) (h : s.cfg.blockMax < n.toNat) :
    StepRefused s cw rest (.outOfRange (.length n.toNat))
  | split {i : Instr} (hdecode : decode cw (leadingWords rest) = .ok i)
    (hmissing : (leadingWords rest).length < (operandsOf i).length)
    (hreset : (leadingWords rest).length < rest.length) : StepRefused s cw rest .commandSplitByReset
  | operand {i : Instr} {k : Nat} {w : Word} (hdecode : decode cw (leadingWords rest) = .ok i)
    (hrange : rangeRefusal s.cfg i = none) (hw : (operandsOf i)[k]? = some w) (h : F32.isFinite w = false)
    (hleast : ∀ j < k, ∃ v, (operandsOf i)[j]? = some v ∧ F32.isFinite v = true) :
    StepRefused s cw rest (.nonFiniteOperand k)
  | command {i : Instr} {r : Refusal} (hdecode : decode cw (leadingWords rest) = .ok i) (hwf : i.wf s.cfg = true)
    (harrived : (operandsOf i).length ≤ (leadingWords rest).length) (h : Refused i s r) : StepRefused s cw rest r

/-- The command port is no part of why a command is refused. -/
theorem Refused.of_port {r : Refusal} {port : List HostEvent} (h : Refused i { s with port := port } r) :
    Refused i s r := by
  cases h with
  | noInstance h hV => exact .noInstance h hV
  | noElement h hj => exact .noElement h hj
  | tooLong h hn => exact .tooLong h hn
  | notConstructed h hV hlength => exact .notConstructed h hV hlength
  | unwrittenIn h hn hV hread => exact .unwrittenIn h hn hV hread
  | unwrittenOut h hj hread => exact .unwrittenOut h hj hread
  | lowpassDomain h hdomain => exact .lowpassDomain h hdomain

/-- The reasons decoding can have (R77). -/
theorem StepRefused.of_fetchCommand {cw : Word} {rest : List HostEvent} {r : Refusal}
    (h : fetchCommand s.cfg cw rest = .refuse r) : StepRefused s cw rest r := by
  rcases fetchCommand_refuse h with
    ⟨e, he, rfl⟩ | ⟨i, hdecode, hrange | ⟨-, hmissing, hreset, rfl⟩ | ⟨hrange, -, hoperand⟩⟩
  · rcases decode_error he with ⟨hrow, rfl⟩ | ⟨row, hrow, hzero, rfl⟩
    · exact .undefinedOpcode hrow
    · exact .reservedField hrow hzero
  · rcases rangeRefusal_eq_some hrange with
      ⟨ch, hch, hmax, rfl⟩ | ⟨hchannel, j, hj, hmax, rfl⟩ | ⟨hchannel, n, hn, hmax, rfl⟩
    · exact .channel hdecode hch hmax
    · exact .index hdecode hchannel hj hmax
    · exact .length hdecode hchannel hn hmax
  · exact .split hdecode hmissing hreset
  · obtain ⟨k, w, rfl, hw, hfinite, hleast⟩ := operandRefusal_eq_some.1 hoperand
    exact .operand hdecode hrange hw hfinite hleast

/-- Every reason a step can be refused for (R211). -/
theorem stepRefused_of_step {r : Refusal} (h : step s = .refused r) :
    ∃ cw rest, s.port = .word cw :: rest ∧ StepRefused s cw rest r := by
  obtain ⟨cw, rest, hport, hfetch | ⟨i, hdecode, hwf, harrived, hexec⟩⟩ := step_refused_cases h
  · exact ⟨cw, rest, hport, .of_fetchCommand hfetch⟩
  · exact ⟨cw, rest, hport, .command hdecode hwf harrived (refused_of_exec hexec).of_port⟩

/-- The same, of the command word that is known to be next. -/
theorem stepRefused_of_port {cw : Word} {rest : List HostEvent} {r : Refusal} (hport : s.port = .word cw :: rest)
    (h : step s = .refused r) : StepRefused s cw rest r := by
  obtain ⟨cw', rest', hport', hrefused⟩ := stepRefused_of_step h
  cases hport.symm.trans hport'
  exact hrefused

end

/-! ### The command word and the port -/

theorem rowOf_eq_none_iff {op : BitVec 8} : rowOf op = none ↔ op ∉ opcodeTable.map OpRow.op := by
  simp [rowOf]

/-- The reserved opcodes and those from `0x80` on have no row (R78, R212). -/
theorem OpRow.op_not_reserved {row : OpRow} (h : row ∈ opcodeTable) :
    ¬ (row.op = 0x32 ∨ row.op = 0x73 ∨ row.op = 0x75 ∨ 0x80 ≤ row.op) := by
  have htable : (opcodeTable.all fun row =>
      !decide (row.op = 0x32 ∨ row.op = 0x73 ∨ row.op = 0x75 ∨ 0x80 ≤ row.op)) = true := by rfl
  rw [← decide_eq_false_iff_not, ← Bool.not_eq_true']
  exact List.all_eq_true.1 htable row h

/-- Where a reset stands behind the words that have arrived, the port is these words, the reset and what follows it. -/
theorem exists_reset_of_leadingWords_lt {es : List HostEvent} (h : (leadingWords es).length < es.length) :
    ∃ rest, es = (leadingWords es).map HostEvent.word ++ .reset :: rest := by
  induction es with
  | nil => exact absurd h (lt_irrefl _)
  | cons e es ih =>
    cases e with
    | reset => exact ⟨es, rfl⟩
    | word w =>
      obtain ⟨rest, hrest⟩ := ih (by simpa [leadingWords] using h)
      exact ⟨rest, congrArg (HostEvent.word w :: ·) hrest⟩

/-- The first words on the port are the first of those that have arrived. -/
theorem take_eq_map_take_leadingWords {es : List HostEvent} {n : Nat} (h : n ≤ (leadingWords es).length) :
    es.take n = ((leadingWords es).take n).map HostEvent.word := by
  induction es generalizing n with
  | nil => simp
  | cons e es ih =>
    cases n with
    | zero => simp
    | succ n =>
      cases e with
      | reset => simp at h
      | word w => simp [leadingWords, ih (n := n) (by simpa [leadingWords] using h)]

/-- A command that decodes and whose operand words have arrived stands on the port as its encoding (R70, R71). -/
theorem take_port_of_decode {cw : Word} {rest : List HostEvent} {i : Instr}
    (hdecode : decode cw (leadingWords rest) = .ok i) (harrived : (operandsOf i).length ≤ (leadingWords rest).length) :
    (HostEvent.word cw :: rest).take ((operandsOf i).length + 1) = (encode i).map HostEvent.word := by
  rw [encodeOfDecode cw _ i hdecode harrived, List.map_cons, List.take_succ_cons,
    take_eq_map_take_leadingWords harrived]

/-- A decoded command has as many operand words as its opcode takes (R76, R79). -/
theorem length_operandsOf_of_decode {cw : Word} {ops : List Word} {i : Instr} (h : decode cw ops = .ok i) :
    (operandsOf i).length = operandCount (opField cw) := by
  obtain ⟨row, hrow, -, rfl⟩ := decode_ok h
  rw [(OpRow.coherent (rowOf_some hrow).1).operandsOf_make, operandCount, hrow, List.length_map, List.length_range]

end Sys2Proof.Machine

open Sys2Proof Sys2Proof.Machine

/-- Settles O7: the opcodes of the table's rows are the 31 that are listed. -/
theorem undefinedOpcodeRefused : Obligations.UndefinedOpcodeRefused := by
  intro s cw rest hport
  have hrefused : step s = .refused (.undefinedOpcode (opField cw)) ↔ rowOf (opField cw) = none := by
    refine ⟨fun h => ?_, fun h => step_of_decode_error (e := .undefinedOpcode (opField cw)) hport (by rw [decode, h])⟩
    cases stepRefused_of_port hport h with
    | undefinedOpcode h => exact h
    | command _ _ _ h => cases h
  rw [hrefused, rowOf_eq_none_iff]
  refine ⟨Iff.rfl, fun hreserved hmem => ?_⟩
  obtain ⟨row, hrow, hop⟩ := List.mem_map.1 hmem
  exact OpRow.op_not_reserved hrow (hop ▸ hreserved)

/-- Settles O8: the row under the opcode tests the fields its format reserves. -/
theorem reservedFieldRefused : Obligations.ReservedFieldRefused := by
  intro s cw rest hport
  have hnonzero (f : Format) : f.reservedZero cw = false ↔ (f = .UC ∧ immField cw ≠ 0) ∨ (f = .GX ∧ chField cw ≠ 0) ∨
      (f = .GP ∧ (chField cw ≠ 0 ∨ immField cw ≠ 0)) := by
    cases f <;> simp [Format.reservedZero, imp_iff_not_or]
  constructor
  · intro h
    cases stepRefused_of_port hport h with
    | reservedField hrow hzero =>
      obtain ⟨hmem, hop⟩ := rowOf_some hrow
      exact ⟨_, hmem, hop, (hnonzero _).1 hzero⟩
    | command _ _ _ h => cases h
  · rintro ⟨row, hmem, hop, hfields⟩
    have hrow : rowOf (opField cw) = some row := hop ▸ (OpRow.coherent hmem).selected
    have hzero : row.format.reservedZero cw = false := (hnonzero _).2 hfields
    exact step_of_decode_error (e := .reservedFieldNonzero) hport (by simp [decode, hrow, hzero])

/-- Settles O9: the checks of the fields in their order, which are the only ones to answer `OutOfRange` in a structured
state. -/
theorem outOfRangeRefused : Obligations.OutOfRangeRefused := by
  intro s cw rest i hs hport hdecode
  refine ⟨fun ch hch h => step_of_rangeRefusal hport hdecode (rangeRefusal_of_channel hch h),
    fun j hj h => step_of_rangeRefusal hport hdecode (rangeRefusal_of_index hj h),
    fun n hchannel hn h => step_of_rangeRefusal hport hdecode (rangeRefusal_of_length hchannel hn h),
    fun hchannel hindex hlength w h => ?_⟩
  have hsame {i' : Instr} (hdecode' : decode cw (leadingWords rest) = .ok i') : i' = i :=
    Except.ok.inj (hdecode'.symm.trans hdecode)
  cases stepRefused_of_port hport h with
  | channel hd hch hmax => cases hsame hd; exact absurd (channel_lt_of_channelOk hchannel hch) (not_lt.2 hmax)
  | index hd _ hj hmax => cases hsame hd; exact absurd (index_lt_of_indexOk hindex hj) (not_lt.2 hmax)
  | length hd _ hn hmax => cases hsame hd; exact absurd (length_le_of_lengthOk hlength hn) (not_le.2 hmax)
  | command hd _ _ hcheck => cases hsame hd; exact hcheck.ne_outOfRange hs hchannel hindex hlength w rfl

/-- Settles O10: a word is no number where its exponent field is all ones, and the check answers the least such word. -/
theorem nonFiniteRefused : Obligations.NonFiniteRefused := by
  intro s cw rest i hport hdecode harrived hchannel hindex hlength
  refine ⟨fun k w hw hexponent hleast => ?_, fun hall k h => ?_⟩
  · have hrange : rangeRefusal s.cfg i = none := rangeRefusal_eq_none.2 ⟨hchannel, hindex, hlength⟩
    have hinfinite : F32.isFinite w = false := by
      rw [← Bool.not_eq_true, F32.isFinite_iff_exponent, not_not]
      exact hexponent
    refine step_of_operandRefusal hport hdecode hrange harrived
      (operandRefusal_eq_some.2 ⟨k, w, rfl, hw, hinfinite, fun j hj => ?_⟩)
    have hj' : j < (operandsOf i).length := hj.trans (List.getElem?_eq_some_iff.1 hw).1
    have hv : (operandsOf i)[j]? = some (operandsOf i)[j] := List.getElem?_eq_getElem hj'
    exact ⟨_, hv, (F32.isFinite_iff_exponent _).2 (hleast j _ hj hv)⟩
  · cases stepRefused_of_port hport h with
    | operand hd _ hw hinfinite _ =>
      cases hd.symm.trans hdecode
      rw [(F32.isFinite_iff_exponent _).2 (hall _ (List.mem_of_getElem? hw))] at hinfinite
      cases hinfinite
    | command _ _ _ h => cases h

/-- Settles O11: a valid bit of 0 is found before the block is read, and no other reason names an instance. -/
theorem notConstructedRefused : Obligations.NotConstructedRefused := by
  refine fun s i => ⟨fun k ch => exec_of_not_valid, fun k c h => ?_⟩
  cases refused_of_exec h with
  | notConstructed hk hV _ => exact ⟨_, hk, rfl, hV⟩

/-- Settles O13: every reason `StepRefused` lists is one of the eight. -/
theorem sevenReasons : Obligations.SevenReasons := by
  intro s r h
  obtain ⟨cw, rest, hport, hrefused⟩ := stepRefused_of_step h
  refine ⟨fun hr => ?_, ?_⟩
  · cases hrefused with
    | undefinedOpcode => exact .inl ⟨_, rfl⟩
    | reservedField => exact .inr (.inl rfl)
    | channel | index | length => exact .inr (.inr (.inl ⟨_, rfl⟩))
    | split => exact absurd rfl hr
    | operand => exact .inr (.inr (.inr (.inr (.inl ⟨_, rfl⟩))))
    | command hdecode _ harrived h =>
      cases h with
      | noInstance | noElement | tooLong => exact .inr (.inr (.inl ⟨_, rfl⟩))
      | notConstructed => exact .inr (.inr (.inr (.inl ⟨_, _, rfl⟩)))
      | unwrittenIn | unwrittenOut => exact .inr (.inr (.inr (.inr (.inr (.inl ⟨_, _, rfl⟩)))))
      | @lowpassDomain ch cutoff q hi _ =>
        subst hi
        refine .inr (.inr (.inr (.inr (.inr (.inr ⟨cutoff, q, ch, rfl, ?_⟩)))))
        rw [hport]
        exact take_port_of_decode hdecode harrived
  · rintro rfl
    cases hrefused with
    | split hdecode hmissing hreset =>
      obtain ⟨tail, htail⟩ := exists_reset_of_leadingWords_lt hreset
      refine ⟨cw, leadingWords rest, tail, ?_, length_operandsOf_of_decode hdecode ▸ hmissing⟩
      rw [hport, List.cons_append, ← htail]
    | command _ _ _ h => cases h

/-- Settles O14: the order of the checks is what each reason of `StepRefused` and of `Refused` records. -/
theorem refusalOrder : Obligations.RefusalOrder := by
  intro s cw rest r _ hport h
  have hrefused := stepRefused_of_port hport h
  refine ⟨?_, ?_, ?_, ?_, ?_, ?_, ?_⟩
  · rintro rfl
    cases hrefused with
    | reservedField hrow _ => exact ⟨_, hrow⟩
    | command _ _ _ h => cases h
  · rintro c rfl
    cases hrefused with
    | channel hdecode => exact ⟨_, hdecode⟩
    | command hdecode => exact ⟨_, hdecode⟩
  · rintro w rfl hw
    cases hrefused with
    | channel => exact absurd rfl (hw _)
    | index hdecode hchannel => exact ⟨_, hdecode, hchannel⟩
    | length hdecode hchannel => exact ⟨_, hdecode, hchannel⟩
    | command hdecode hwf => exact ⟨_, hdecode, (wf_iff.1 hwf).1⟩
  · rintro k rfl
    cases hrefused with
    | operand hdecode hrange _ _ hleast =>
      obtain ⟨hchannel, hindex, hlength⟩ := rangeRefusal_eq_none.1 hrange
      exact ⟨_, hdecode, hchannel, hindex, hlength, hleast⟩
    | command _ _ _ h => cases h
  · rintro k c rfl
    cases hrefused with
    | command hdecode hwf => exact ⟨_, hdecode, hwf⟩
  · rintro b j rfl
    cases hrefused with
    | command hdecode hwf _ h =>
      refine ⟨_, hdecode, hwf, ?_⟩
      cases h with
      | unwrittenIn _ _ hV hread => exact ⟨hV, fun _ => (Buffer.readFrom_zero_error_iff.1 hread).2.2⟩
      | unwrittenOut hi => subst hi; exact ⟨nofun, nofun⟩
  · rintro cutoff q rfl
    cases hrefused with
    | command hdecode hwf => exact ⟨_, hdecode, hwf⟩

/-- Settles O15: a well-formed command meets its instance and its block, and the premises exclude each reason that is
left. -/
theorem wellFormedCompletes : Obligations.WellFormedCompletes := by
  refine ⟨nofun, fun s i hs hwf hV hin hout hdomain => ?_⟩
  obtain ⟨hchannel, hindex, hlength, -⟩ := wf_iff.1 hwf
  cases hexec : exec i s with
  | next t => exact ⟨t, rfl⟩
  | fault f => cases f
  | refused r =>
    have hrefused := refused_of_exec hexec
    have hrange := hrefused.ne_outOfRange hs hchannel hindex hlength
    cases hrefused with
    | noInstance | noElement | tooLong => exact absurd rfl (hrange _)
    | notConstructed hk hfalse _ => rw [hV _ _ hk] at hfalse; cases hfalse
    | unwrittenIn hn _ _ hread =>
      obtain ⟨hj, hnone, -⟩ := Buffer.readFrom_zero_error_iff.1 hread
      exact absurd hnone (hin _ hn _ hj)
    | unwrittenOut hi _ hnone => exact absurd hnone (hout _ hi)
    | lowpassDomain hi hfalse =>
      obtain ⟨hcutoff, hhalf, hq⟩ := hdomain _ _ _ hi
      rw [lowpassDomain_binary32, hcutoff, hhalf, hq] at hfalse
      cases hfalse

end

section
/-! PROOF. The reset event, and that a completed command clears neither a valid bit nor a written bit (R22, R53, R230),
read off `Completion`. -/

namespace Sys2Proof.Machine

section
variable {α : Type}

theorem Buffer.read_write_ne_none {b : Buffer α} {j : Nat} (h : Buffer.read b j ≠ none) (i : Nat) (v : α) :
    Buffer.read (Buffer.write b i v) j ≠ none := by
  rw [Buffer.read_write]
  split_ifs
  · exact Option.some_ne_none v
  · exact h

theorem Buffer.read_writeFrom_ne_none {b : Buffer α} {j : Nat} (h : Buffer.read b j ≠ none) (i : Nat) (ys : List α) :
    Buffer.read (Buffer.writeFrom b i ys) j ≠ none := by
  induction ys generalizing b i with
  | nil => exact h
  | cons y ys ih => exact ih (Buffer.read_write_ne_none h i y) (i + 1)

/-- No command unwrites an element (R53). -/
theorem MemoryChange.keeps_written {p : α → Prop} {i : Instr} {b : Nat} {m m' : Memory α}
    (h : MemoryChange p i b m m') (j : Nat) :
    (Buffer.read m.inBuf j ≠ none → Buffer.read m'.inBuf j ≠ none) ∧
    (Buffer.read m.outBuf j ≠ none → Buffer.read m'.outBuf j ≠ none) := by
  cases h with
  | untouched => exact ⟨id, id⟩
  | wroteIn => exact ⟨fun hin => Buffer.read_write_ne_none hin _ _, id⟩
  | wroteOut => exact ⟨id, fun hout => Buffer.read_writeFrom_ne_none hout _ _⟩

end

/-- No command clears a valid bit: it sets that of the instance it configures, and keeps the others (R22). -/
theorem validBit_of_exec {i : Instr} {s t : State} (h : exec i s = .next t) {k : UnitKind} {c : Nat}
    (hV : validBit k c s = some true) : validBit k c t = some true := by
  obtain ⟨hconfigured, hkept⟩ := validBits i s t h k c
  by_cases hc : ∃ ch, configures i = some (k, ch) ∧ ch.toNat = c
  · exact hconfigured hc
  · exact (hkept fun ch hch hcc => hc ⟨ch, hch, hcc⟩).trans hV

end Sys2Proof.Machine

open Sys2Proof Sys2Proof.Machine

/-- Settles O17: the port waiting changes nothing, and a completed command sets bits alone. -/
theorem resetEvent : Obligations.ResetEvent := by
  refine ⟨fun s rest hport => ?_, fun s t h hreset => ?_⟩
  · rw [step, fetch, hport]
    rfl
  · rcases step_next_cases h with ⟨-, rfl⟩ | ⟨rest, hport, -⟩ | ⟨_, rest, i, -, -, -, -, hexec⟩
    · exact ⟨fun _ _ => id, fun _ => id, fun _ => id⟩
    · rw [hport] at hreset
      exact absurd rfl hreset
    · obtain ⟨hc, -⟩ := exec_completion_any hexec
      exact ⟨fun k c hV => validBit_of_exec hexec hV, fun j => (hc.mem.keeps_written j).1,
        fun j => (hc.mem.keeps_written j).2⟩

end

section
/-! PROOF. The system commands (R200 to R202), and the block commands as runs of single-sample commands (R203): the run
is followed on the state in which the instances of the kind have reached some unit states and some results have been put
out, so one induction serves the five kinds. -/

namespace Sys2Proof.Machine

/-! ### The system commands on the machine -/

section
variable {s : State}

/-- NOP (R200). -/
theorem exec_nop : exec .nop s = .next s := exec_of_execute (runNop_ok_iff.2 rfl)

/-- WRIN of an element in the buffer (R201). -/
theorem exec_wrin {j : BitVec 16} (v : Word) (hj : j.toNat < s.cfg.blockMax) :
    exec (.wrin j v) s = .next { s with mem := { s.mem with inBuf := Buffer.write s.mem.inBuf j.toNat v } } :=
  exec_of_execute (runWrin_ok_iff.2 ⟨hj, rfl⟩)

/-- RDOUT of a written element (R202). -/
theorem exec_rdout {j : BitVec 16} {v : Word} (hj : j.toNat < s.cfg.blockMax)
    (hread : Buffer.read s.mem.outBuf j.toNat = some v) :
    exec (.rdout j) s = .next { s with resp := s.resp ++ [v] } :=
  exec_of_execute (runRdout_ok_iff.2 ⟨hj, v, hread, rfl⟩)

theorem checked_requireIndex_of_ge {α : Type} {s : BlockState α} {j : BitVec 16} {f : Unit → Effect α}
    (hj : s.cfg.blockMax ≤ j.toNat) :
    checked (requireIndex s j) f = .error (.plain (.outOfRange (.index j.toNat))) := by
  rw [requireIndex_error_iff.2 ⟨hj, rfl⟩, checked_error]

/-- WRIN and RDOUT outside the buffer (R214). -/
theorem exec_of_index_ge {i : Instr} {j : BitVec 16} (hi : indexOf i = some j) (hj : s.cfg.blockMax ≤ j.toNat) :
    exec i s = .refused (.outOfRange (.index j.toNat)) := by
  rw [exec_eq_perform, perform_refused_iff]
  left
  match i, hi with
  | .wrin .., rfl | .rdout _, rfl => exact checked_requireIndex_of_ge hj

end

/-! ### A block of single-sample commands -/

/-- A command word of the format UB, written with the shifts of R76's encodings (R72). -/
theorem encode_of_channel_length {i : Instr} {ch : BitVec 8} {n : BitVec 16} {w : Word} (op : BitVec 8)
    (hop : opOf i = op) (hch : chOf i = ch) (himm : immOf i = n) (hw : op.setWidth 32 <<< 24 = w := by decide) :
    encode i = (w ||| ch.setWidth 32 <<< 16 ||| n.setWidth 32) :: operandsOf i := by
  rw [encode, encodeHead, hop, hch, himm, commandWord_eq_or, hw]

/-- The five block commands are addressed to an instance that has to be constructed, and have a length (R71, R75). -/
theorem fields_procbOf (k : UnitKind) (ch : BitVec 8) (n : BitVec 16) :
    needsConstructed (procbOf k ch n) = some (k, ch) ∧ lengthOf (procbOf k ch n) = some n := by
  cases k <;> exact ⟨rfl, rfl⟩

/-- Putting an instance back where it stands changes nothing. -/
theorem set_eq_self_of_getElem? {U : Type} {us : List U} {c : Nat} {u : U} (h : us[c]? = some u) : us.set c u = us := by
  obtain ⟨hc, rfl⟩ := List.getElem?_eq_some_iff.1 h
  exact List.set_getElem_self hc

/-- What R203 says of one block command: the single-sample commands complete and put out some results, and the block
command completes in the state they leave, but that these results stand in `OUT[0..n-1]`. -/
def BlockIsRun (k : UnitKind) (ch : BitVec 8) (n : BitVec 16) (s : State) (xs : List Word) : Prop :=
  ∃ (t : State) (ys : List Word) (b : Buffer Word),
    execAll (xs.map (procOf k ch)) s = .next t ∧ t.resp = s.resp ++ ys ∧ ys.length = n.toNat ∧
    exec (procbOf k ch n) s = .next { t with resp := s.resp, mem := { s.mem with outBuf := b } } ∧
    ∀ j, Buffer.read b j = if j < n.toNat then ys[j]? else Buffer.read s.mem.outBuf j

section
variable {U : Type} {f : U → Word → U × Word} {V : U → Bool} {ch : BitVec 8} {put : List U → List Word → State}

/-- Single-sample commands in index order put out what the element steps yield and leave the unit state these leave.
`put us ys` is the state with the instances of the kind at `us` and the results `ys` put out. -/
theorem execAll_singles {single : Word → Instr}
    (hsingle : ∀ us v ys x, us[ch.toNat]? = some v → V v = true →
      exec (single x) (put us ys) = .next (put (us.set ch.toNat (f v x).1) (ys ++ [(f v x).2])))
    (hkeep : ∀ v x, V (f v x).1 = V v) (xs : List Word) {us : List U} {u : U} (hu : us[ch.toNat]? = some u)
    (hV : V u = true) (ys : List Word) :
    execAll (xs.map single) (put us ys) =
      .next (put (us.set ch.toNat (runBlock f u xs).1) (ys ++ (runBlock f u xs).2)) := by
  induction xs generalizing us u ys with
  | nil => rw [runBlock_nil, List.append_nil, set_eq_self_of_getElem? hu]; rfl
  | cons x xs ih =>
    have hnext : (us.set ch.toNat (f u x).1)[ch.toNat]? = some (f u x).1 :=
      List.getElem?_set_self (List.getElem?_eq_some_iff.1 hu).1
    rw [List.map_cons, execAll_cons_of_next (hsingle us u ys x hu hV), ih hnext ((hkeep u x).trans hV), List.set_set,
      runBlock_cons, List.append_assoc]
    rfl

/-- A block command that completes with the unit state and the results of the element steps is the run of the
single-sample commands (R203). -/
theorem blockIsRun_of_singles {k : UnitKind} {n : BitVec 16} {s : State} {xs : List Word} {us : List U} {u : U}
    (hsingle : ∀ us v ys x, us[ch.toNat]? = some v → V v = true →
      exec (procOf k ch x) (put us ys) = .next (put (us.set ch.toNat (f v x).1) (ys ++ [(f v x).2])))
    (hkeep : ∀ v x, V (f v x).1 = V v) (hu : us[ch.toNat]? = some u) (hV : V u = true) (hstart : put us [] = s)
    (hresp : ∀ us ys, (put us ys).resp = s.resp ++ ys) (hlength : xs.length = n.toNat)
    (hblock : exec (procbOf k ch n) s =
      .next { put (us.set ch.toNat (runBlock f u xs).1) (runBlock f u xs).2 with
        resp := s.resp, mem := { s.mem with outBuf := Buffer.writeFrom s.mem.outBuf 0 (runBlock f u xs).2 } }) :
    BlockIsRun k ch n s xs := by
  have hrun := execAll_singles hsingle hkeep xs hu hV []
  rw [hstart, List.nil_append] at hrun
  refine ⟨_, (runBlock f u xs).2, _, hrun, hresp _ _, (runBlock_length f u xs).trans hlength, hblock, fun j => ?_⟩
  rw [Buffer.read_writeFrom, runBlock_length, hlength, Nat.zero_add, Nat.sub_zero]
  simp only [Nat.zero_le, true_and]

end

/-- LIM.PROC with the instances at `us` and some results put out (R152). -/
theorem exec_limProc_put (s : State) {ch : BitVec 8} (us : List (LimUnit Word)) (v : LimUnit Word) (ys : List Word)
    (x : Word) (hv : us[ch.toNat]? = some v) (hV : v.V = true) :
    exec (.limProc ch x) { s with lim := us, resp := s.resp ++ ys } = .next { s with
      lim := us.set ch.toNat (LimUnit.proc binary32 s.cfg.releaseUnderflow v x).1
      resp := s.resp ++ (ys ++ [(LimUnit.proc binary32 s.cfg.releaseUnderflow v x).2]) } := by
  rw [exec_limProc x hv hV, List.append_assoc]

section
variable {s : State} {ch : BitVec 8} {n : BitVec 16} {xs : List Word} (hlength : n.toNat ≤ s.cfg.blockMax)
  (hin : InBlock s n xs)
include hlength hin

/-- BQ.PROCB (R104). -/
theorem blockIsRun_bq {u : BiquadUnit Word} (hu : s.bq[ch.toNat]? = some u) (hV : u.V = true) :
    BlockIsRun .BQ ch n s xs :=
  blockIsRun_of_singles (V := (·.V)) (put := fun us ys => { s with bq := us, resp := s.resp ++ ys })
    (fun _ _ _ x hv hVv => by rw [procOf, exec_bqProc x hv hVv, List.append_assoc]) (fun _ _ => rfl) hu hV
    (by rw [List.append_nil]) (fun _ _ => rfl) hin.1
    (exec_of_execute (runBqProcb_ok_iff.2 ⟨u, xs, hu, hlength, hV, readFrom_of_inBlock hin, rfl⟩))

/-- RIAA.PROCB (R125). -/
theorem blockIsRun_riaa {u : RiaaUnit Word} (hu : s.riaa[ch.toNat]? = some u) (hV : u.V = true) :
    BlockIsRun .RIAA ch n s xs :=
  blockIsRun_of_singles (V := (·.V)) (put := fun us ys => { s with riaa := us, resp := s.resp ++ ys })
    (fun _ _ _ x hv hVv => by rw [procOf, exec_riaaProc x hv hVv, List.append_assoc]) (fun _ _ => rfl) hu hV
    (by rw [List.append_nil]) (fun _ _ => rfl) hin.1
    (exec_of_execute (runRiaaProcb_ok_iff.2 ⟨u, xs, hu, hlength, hV, readFrom_of_inBlock hin, rfl⟩))

/-- SAT.PROCB, whose instance no element step writes (R133). -/
theorem blockIsRun_sat {u : SatUnit Word} (hu : s.sat[ch.toNat]? = some u) (hV : u.V = true) :
    BlockIsRun .SAT ch n s xs := by
  have hstate : (runBlock (SatUnit.proc binary32) u xs).1 = u :=
    runBlock_keeps (p := fun _ => True) (P := (· = u)) (fun _ _ _ hv => hv) (fun _ _ => trivial) rfl
  refine blockIsRun_of_singles (f := SatUnit.proc binary32) (V := (·.V))
    (put := fun us ys => { s with sat := us, resp := s.resp ++ ys }) (fun us v ys x hv hVv => ?_) (fun _ _ => rfl) hu hV
    (by rw [List.append_nil]) (fun _ _ => rfl) hin.1 ?_
  · rw [procOf, exec_satProc x hv hVv, SatUnit.proc, set_eq_self_of_getElem? hv, List.append_assoc]
  · rw [hstate, set_eq_self_of_getElem? hu]
    exact exec_of_execute (runSatProcb_ok_iff.2 ⟨u, xs, hu, hlength, hV, readFrom_of_inBlock hin, rfl⟩)

/-- HF.PROCB (R143). -/
theorem blockIsRun_hf {u : HfUnit Word} (hu : s.hf[ch.toNat]? = some u) (hV : u.V = true) :
    BlockIsRun .HF ch n s xs :=
  blockIsRun_of_singles (f := HfUnit.proc binary32) (V := (·.V))
    (put := fun us ys => { s with hf := us, resp := s.resp ++ ys })
    (fun _ _ _ x hv hVv => by rw [procOf, exec_hfProc x hv hVv, HfUnit.proc, List.append_assoc]) (fun _ _ => rfl) hu hV
    (by rw [List.append_nil]) (fun _ _ => rfl) hin.1
    (exec_of_execute (runHfProcb_ok_iff.2 ⟨u, xs, hu, hlength, hV, readFrom_of_inBlock hin, rfl⟩))

/-- LIM.PROCB (R153). -/
theorem blockIsRun_lim {u : LimUnit Word} (hu : s.lim[ch.toNat]? = some u) (hV : u.V = true) :
    BlockIsRun .LIM ch n s xs :=
  blockIsRun_of_singles (V := (·.V)) (put := fun us ys => { s with lim := us, resp := s.resp ++ ys })
    (exec_limProc_put s) (fun _ _ => rfl) hu hV (by rw [List.append_nil]) (fun _ _ => rfl) hin.1
    (exec_of_execute (runLimProcb_ok_iff.2 ⟨u, xs, hu, hlength, hV, readFrom_of_inBlock hin, rfl⟩))

/-- The block command of every kind on a constructed instance and a written block (R203). -/
theorem blockIsRun {k : UnitKind} (hV : validBit k ch.toNat s = some true) : BlockIsRun k ch n s xs := by
  cases k with
  | BQ => obtain ⟨u, hu, hVu⟩ := Option.map_eq_some_iff.1 hV; exact blockIsRun_bq hlength hin hu hVu
  | RIAA => obtain ⟨u, hu, hVu⟩ := Option.map_eq_some_iff.1 hV; exact blockIsRun_riaa hlength hin hu hVu
  | SAT => obtain ⟨u, hu, hVu⟩ := Option.map_eq_some_iff.1 hV; exact blockIsRun_sat hlength hin hu hVu
  | HF => obtain ⟨u, hu, hVu⟩ := Option.map_eq_some_iff.1 hV; exact blockIsRun_hf hlength hin hu hVu
  | LIM => obtain ⟨u, hu, hVu⟩ := Option.map_eq_some_iff.1 hV; exact blockIsRun_lim hlength hin hu hVu

end

end Sys2Proof.Machine

open Sys2Proof Sys2Proof.Machine

/-- Settles O18: each command's effect and each of its refusals. -/
theorem systemCommands : Obligations.SystemCommands := by
  refine fun s => ⟨⟨exec_nop, rfl⟩, fun j v => ⟨encode_of_length 0x01 rfl rfl rfl, fun hj => ?_, exec_of_index_ge rfl⟩,
    fun j => ⟨encode_of_length 0x02 rfl rfl rfl, fun hj v hread => exec_rdout hj hread, exec_rdout_of_unwritten,
      exec_of_index_ge rfl⟩⟩
  exact ⟨_, exec_wrin v hj, Buffer.read_write _ _ _⟩

/-- Settles O29: the run of single-sample commands is followed by one induction for the five kinds. -/
theorem blockIsSingles : Obligations.BlockIsSingles := by
  refine ⟨fun ch n => ⟨?_, ?_, ?_, ?_, ?_⟩, fun k ch n s xs hlength hV hin => blockIsRun hlength hin hV,
    fun k ch n s hlength => ?_⟩
  · exact encode_of_channel_length 0x11 rfl rfl rfl
  · exact encode_of_channel_length 0x21 rfl rfl rfl
  · exact encode_of_channel_length 0x31 rfl rfl rfl
  · exact encode_of_channel_length 0x41 rfl rfl rfl
  · exact encode_of_channel_length 0x51 rfl rfl rfl
  · obtain ⟨hneeds, hn⟩ := fields_procbOf k ch n
    refine ⟨fun hV => exec_of_not_valid hneeds hV fun m hm => ?_, fun hV j hj hnone hleast => ?_⟩
    · rwa [← Option.some.inj (hn.symm.trans hm)]
    · refine exec_of_unwritten hn hlength (fun k' ch' hneeds' => ?_)
        (Buffer.readFrom_zero_error_iff.2 ⟨hj, hnone, hleast⟩)
      cases hneeds.symm.trans hneeds'
      exact hV

end

section
/-! PROOF. The limiter below its threshold in binary32 (R152, R239). A sample at or below the threshold releases the
envelope, whatever its value, so after `n` of them the envelope is `n` releases of the one before. These never grow, so
their value settles (a decreasing sequence of whole numbers of units does), and where one release leaves a zero the
sample passes. -/

namespace Sys2Proof.Machine

/-- The factor of one release (R152, R14). -/
def LimUnit.factor (u : LimUnit Word) : Word := F32.exp (F32.div 0xBF800000 u.releaseTime)

/-- A number at or below the threshold (R152). -/
def LimUnit.Quiet (u : LimUnit Word) (x : Word) : Prop := F32.isFinite x = true ∧ F32.le (F32.abs x) u.threshold = true

/-- The envelope `n` releases by the factor `f` after `e`. -/
def released (b : Bool) (f e : Word) (n : Nat) : Word := (limRelease binary32 b · f)^[n] e

theorem released_succ (b : Bool) (f e : Word) (n : Nat) :
    released b f e (n + 1) = limRelease binary32 b (released b f e n) f := Function.iterate_succ_apply' _ _ _

/-! ### One step -/

section
variable {b : Bool} {e f : Word}

/-- A release leaves a zero where the product of the envelope and the factor is one. -/
theorem isZero_limRelease_of_mul (h : F32.IsZero (F32.mul e f)) : F32.IsZero (limRelease binary32 b e f) := by
  rcases limRelease_cases b e f with hr | hr <;> rw [hr]
  · exact h
  · exact ⟨isFinite_zero_one.1, units_zero_one.1⟩

/-- A zero envelope stays zero under any factor that is a number (R152). -/
theorem isZero_limRelease_of_isZero (he : F32.IsZero e) (hf : F32.isFinite f = true) :
    F32.IsZero (limRelease binary32 b e f) := by
  refine isZero_limRelease_of_mul ?_
  rw [F32.zero_mul hf he.1 he.2]
  exact F32.isZero_pack _

end

section
variable {b : Bool} {u : LimUnit Word} {x : Word}

/-- A quiet sample is no attack (R152). -/
theorem LimUnit.Quiet.not_attack (hx : u.Quiet x) (hthr : F32.In01 u.threshold) :
    F32.lt u.threshold (F32.abs x) = false := by
  obtain ⟨hfinite, hle⟩ := hx
  have habs := F32.isFinite_abs hfinite
  rw [F32.le_finite habs hthr.1, decide_eq_true_iff] at hle
  rw [F32.lt_finite hthr.1 habs, decide_eq_false_iff_not, not_lt]
  exact hle

/-- A quiet sample releases the envelope (R152). -/
theorem LimUnit.Quiet.proc_fst (hx : u.Quiet x) (hthr : F32.In01 u.threshold) :
    (LimUnit.proc binary32 b u x).1 = { u with envelope := limRelease binary32 b u.envelope u.factor } := by
  have hneg : binary32.neg (binary32.nat 1) = 0xBF800000 := by rw [binary32_nat_one]; decide
  have hattack : binary32.lt u.threshold (binary32.abs x) = false := hx.not_attack hthr
  rw [LimUnit.proc, limEnvelope, hattack, if_neg Bool.false_ne_true, hneg]
  rfl

/-- A quiet sample whose release leaves a zero passes unchanged (R152). -/
theorem LimUnit.Quiet.proc_of_isZero (hx : u.Quiet x) (hthr : F32.In01 u.threshold)
    (hz : F32.IsZero (limRelease binary32 b u.envelope u.factor)) :
    LimUnit.proc binary32 b u x = ({ u with envelope := limRelease binary32 b u.envelope u.factor }, x) := by
  have hzero : F32.lt 0 (limRelease binary32 b u.envelope u.factor) = false := by
    rw [F32.lt_finite isFinite_zero_one.1 hz.1, units_zero_one.1, hz.2]
    rfl
  have henvelope := congrArg LimUnit.envelope (hx.proc_fst (b := b) hthr)
  refine Prod.ext (hx.proc_fst hthr) ?_
  show limOutput binary32 u.threshold (LimUnit.proc binary32 b u x).1.envelope x = x
  rw [henvelope, limOutput_binary32, hzero, if_neg Bool.false_ne_true]

end

/-! ### Runs of quiet samples -/

section
variable {b : Bool} {u : LimUnit Word} {xs : List Word}

/-- A run of quiet samples is as many releases, and writes nothing but the envelope (R152). -/
theorem LimUnit.runBlock_quiet_fst (hthr : F32.In01 u.threshold) (hxs : ∀ x ∈ xs, u.Quiet x) :
    (runBlock (LimUnit.proc binary32 b) u xs).1 = { u with envelope := released b u.factor u.envelope xs.length } := by
  induction xs generalizing u with
  | nil => rfl
  | cons x xs ih =>
    obtain ⟨hx, hrest⟩ := List.forall_mem_cons.1 hxs
    rw [runBlock_cons, hx.proc_fst hthr]
    exact ih (u := { u with envelope := limRelease binary32 b u.envelope u.factor }) hthr hrest

/-- Behind a zero envelope every quiet sample passes (R152). -/
theorem LimUnit.runBlock_quiet_of_isZero (hthr : F32.In01 u.threshold) (hf : F32.isFinite u.factor = true)
    (he : F32.IsZero u.envelope) (hxs : ∀ x ∈ xs, u.Quiet x) : (runBlock (LimUnit.proc binary32 b) u xs).2 = xs := by
  induction xs generalizing u with
  | nil => rfl
  | cons x xs ih =>
    obtain ⟨hx, hrest⟩ := List.forall_mem_cons.1 hxs
    have hz := isZero_limRelease_of_isZero (b := b) he hf
    rw [runBlock_cons, hx.proc_of_isZero hthr hz]
    exact congrArg (x :: ·)
      (ih (u := { u with envelope := limRelease binary32 b u.envelope u.factor }) hthr hf hz hrest)

/-- Once as many samples as leave a zero envelope are through, the others pass (R239). -/
theorem LimUnit.drop_runBlock_quiet (hthr : F32.In01 u.threshold) (hf : F32.isFinite u.factor = true) {k : Nat}
    (hk : k ≤ xs.length) (hz : F32.IsZero (released b u.factor u.envelope k)) (hxs : ∀ x ∈ xs, u.Quiet x) :
    (runBlock (LimUnit.proc binary32 b) u xs).2.drop k = xs.drop k := by
  have htake : (xs.take k).length = k := List.length_take_of_le hk
  have hfirst := LimUnit.runBlock_quiet_fst (b := b) hthr fun x (hx : x ∈ xs.take k) => hxs x (List.mem_of_mem_take hx)
  rw [htake] at hfirst
  conv_lhs => rw [← List.take_append_drop k xs]
  rw [runBlock_append, hfirst, List.drop_left' ((runBlock_length _ _ _).trans htake)]
  exact LimUnit.runBlock_quiet_of_isZero (u := { u with envelope := released b u.factor u.envelope k }) hthr hf hz
    fun x hx => hxs x (List.mem_of_mem_drop hx)

end

/-! ### Where releases end -/

section
variable {b : Bool} {e f : Word} (he : F32.NonNeg e) (hf : F32.In01 f)
include he hf

theorem nonNeg_released (n : Nat) : F32.NonNeg (released b f e n) := by
  induction n with
  | zero => exact he
  | succ n ih =>
    obtain ⟨hfinite, hnonneg, -⟩ := limRelease_range b ih.1 ih.2 hf.1 hf.2.1 hf.2.2
    rw [released_succ]
    exact ⟨hfinite, hnonneg⟩

/-- Releases by a factor in [0, 1] settle: from some number of them on the value of the envelope stays. -/
theorem exists_released_settled :
    ∃ k, ∀ n, k ≤ n → F32.units (released b f e n) = F32.units (released b f e k) := by
  have hmono : Antitone fun n => (F32.units (released b f e n)).toNat := by
    refine antitone_nat_of_succ_le fun n => Int.toNat_le_toNat ?_
    have hn := nonNeg_released (b := b) he hf n
    rw [released_succ]
    exact (limRelease_range b hn.1 hn.2 hf.1 hf.2.1 hf.2.2).2.2
  obtain ⟨k, hk⟩ := WellFoundedLT.antitone_chain_condition hmono
  refine ⟨k, fun n hn => ?_⟩
  have hnat : (F32.units (released b f e k)).toNat = (F32.units (released b f e n)).toNat := hk n hn
  have hn0 := (nonNeg_released (b := b) he hf n).2
  have hk0 := (nonNeg_released (b := b) he hf k).2
  omega

omit he in
theorem units_lt_one_of_lt (hlt : F32.lt f 0x3F800000 = true) : F32.units f < F32.units 0x3F800000 := by
  rwa [F32.lt_finite hf.1 isFinite_zero_one.2, decide_eq_true_iff] at hlt

variable (hf1 : F32.units f < F32.units 0x3F800000)
include hf1

/-- By a factor below 1 the settled value is not above the least normal number (R14). -/
theorem units_le_of_released_settled {k : Nat}
    (hk : F32.units (released b f e (k + 1)) = F32.units (released b f e k)) :
    F32.units (released b f e k) ≤ F32.units 0x00800000 := by
  rw [released_succ] at hk
  exact limRelease_settles (nonNeg_released he hf k).1 hf.1 hf.2.1 hf1 hk

/-- It is zero where the factor is at most 1/2, or with the underflow of R239. -/
theorem isZero_of_released_settled (hb : b = true ∨ F32.units f ≤ F32.units 0x3F000000) {k : Nat}
    (hk : F32.units (released b f e (k + 1)) = F32.units (released b f e k)) : F32.IsZero (released b f e k) := by
  have hnonneg := nonNeg_released (b := b) he hf k
  rw [released_succ] at hk
  refine ⟨hnonneg.1, ?_⟩
  rcases limRelease_decays hnonneg.1 hnonneg.2 hf.1 hf.2.1 hf1 hb with hzero | hlt
  · exact hk.symm.trans hzero
  · exact absurd hk hlt.ne

end

/-! ### The command on the machine -/

section
variable {s : State} {ch : BitVec 8} {u : LimUnit Word} (hu : s.lim[ch.toNat]? = some u) (hV : u.V = true)
include hu hV

/-- A run of LIM.PROC on a constructed instance (R152). -/
theorem execAll_limProc (xs : List Word) :
    execAll (xs.map (Instr.limProc ch)) s = .next { s with
      lim := s.lim.set ch.toNat (runBlock (LimUnit.proc binary32 s.cfg.releaseUnderflow) u xs).1
      resp := s.resp ++ (runBlock (LimUnit.proc binary32 s.cfg.releaseUnderflow) u xs).2 } := by
  have hrun := execAll_singles (V := (·.V)) (exec_limProc_put s (ch := ch)) (fun _ _ => rfl) xs hu hV []
  rwa [List.append_nil, List.nil_append] at hrun

/-- After a run of quiet samples the envelope has been released as often, and nothing else of the instance has
changed. -/
theorem execAll_limProc_quiet (hthr : F32.In01 u.threshold) {xs : List Word} (hxs : ∀ x ∈ xs, u.Quiet x) :
    ∃ t, execAll (xs.map (Instr.limProc ch)) s = .next t ∧
      t.lim[ch.toNat]? =
        some { u with envelope := released s.cfg.releaseUnderflow u.factor u.envelope xs.length } ∧
      t.resp = s.resp ++ (runBlock (LimUnit.proc binary32 s.cfg.releaseUnderflow) u xs).2 := by
  refine ⟨_, execAll_limProc hu hV xs, ?_, rfl⟩
  rw [LimUnit.runBlock_quiet_fst hthr hxs]
  exact List.getElem?_set_self (List.getElem?_eq_some_iff.1 hu).1

/-- LIM.PROC of a quiet sample whose release leaves a zero (R152, R239). -/
theorem exec_limProc_of_isZero {x : Word} (hthr : F32.In01 u.threshold) (hx : u.Quiet x)
    (hz : F32.IsZero (limRelease binary32 s.cfg.releaseUnderflow u.envelope u.factor)) :
    ∃ v, exec (.limProc ch x) s =
      .next { s with lim := s.lim.set ch.toNat { u with envelope := v }, resp := s.resp ++ [x] } ∧ F32.IsZero v := by
  refine ⟨_, ?_, hz⟩
  rw [exec_limProc x hu hV, hx.proc_of_isZero hthr hz]

end

/-- Over the reals a positive envelope stays positive: an attack is above a threshold that is not negative, and a
release multiplies by an exponential (R152). -/
theorem LimUnit.envelope_runBlock_real_pos {b : Bool} {u : LimUnit ℝ} (hthr : 0 ≤ u.threshold) (he : 0 < u.envelope)
    (xs : List ℝ) : 0 < (runBlock (LimUnit.proc realNum b) u xs).1.envelope := by
  have hkept : 0 ≤ (runBlock (LimUnit.proc realNum b) u xs).1.threshold ∧
      0 < (runBlock (LimUnit.proc realNum b) u xs).1.envelope := by
    refine runBlock_keeps (p := fun _ => True) (P := fun v : LimUnit ℝ => 0 ≤ v.threshold ∧ 0 < v.envelope)
      (fun v x _ hv => ⟨hv.1, ?_⟩) (fun _ _ => trivial) ⟨hthr, he⟩
    show 0 < limEnvelope realNum b v.threshold v.releaseTime v.envelope x
    rcases lt_or_ge v.threshold |x| with hattack | hrelease
    · rw [limEnvelope_real_of_gt b hattack]
      exact hv.1.trans_lt hattack
    · rw [limEnvelope_real_of_le b hrelease]
      exact mul_pos hv.2 (Real.exp_pos _)
  exact hkept.2

/-- The factor of a limiter at the floor of its release time (R239, log 10). -/
theorem LimUnit.factor_floor {u : LimUnit Word} (h : u.releaseTime = 0x3A83126F) : u.factor = 0 := by
  have hquotient : F32.div 0xBF800000 0x3A83126F = 0xC479FFFF := by decide +kernel
  rw [LimUnit.factor, h, hquotient, F32.exp]
  exact if_pos (.inr rfl)

end Sys2Proof.Machine

open Sys2Proof Sys2Proof.Machine

/-- Settles O51: releases settle, and where a release by the factor decays they settle at zero. -/
theorem limiterPasses : Obligations.LimiterPasses := by
  refine ⟨fun s ch x u hu hV he hthr hf hx hle => ?_, fun s ch u hu hV hfinite h0 hthr hf hlt hdecay => ?_,
    fun s ch u hu hV hfinite h0 hthr hf hlt => ?_, fun b u xs hthr he => LimUnit.envelope_runBlock_real_pos hthr he xs⟩
  · exact exec_limProc_of_isZero hu hV hthr ⟨hx, hle⟩ (isZero_limRelease_of_isZero he hf)
  · have he : F32.NonNeg u.envelope := ⟨hfinite, h0⟩
    have hb : s.cfg.releaseUnderflow = true ∨ F32.units u.factor ≤ F32.units 0x3F000000 := by
      rw [F32.le_finite hf.1 (by decide), decide_eq_true_iff] at hdecay
      exact hdecay.symm
    obtain ⟨k, hk⟩ := exists_released_settled (b := s.cfg.releaseUnderflow) he hf
    have hz := isZero_of_released_settled he hf (units_lt_one_of_lt hf hlt) hb (hk (k + 1) k.le_succ)
    refine ⟨k, fun xs hxs hquiet => ?_⟩
    obtain ⟨t, hrun, hlim, hresp⟩ := execAll_limProc_quiet hu hV hthr hquiet
    exact ⟨t, _, _, hrun, hlim, ⟨(nonNeg_released he hf _).1, (hk _ hxs).trans hz.2⟩, hresp, runBlock_length _ _ _,
      LimUnit.drop_runBlock_quiet hthr hf.1 hxs hz hquiet⟩
  · have he : F32.NonNeg u.envelope := ⟨hfinite, h0⟩
    obtain ⟨k, hk⟩ := exists_released_settled (b := s.cfg.releaseUnderflow) he hf
    refine ⟨k, _, (nonNeg_released he hf k).2,
      units_le_of_released_settled he hf (units_lt_one_of_lt hf hlt) (hk (k + 1) k.le_succ), fun xs hxs hquiet => ?_⟩
    obtain ⟨t, hrun, hlim, -⟩ := execAll_limProc_quiet hu hV hthr hquiet
    exact ⟨t, _, hrun, hlim, (nonNeg_released he hf _).1, hk _ hxs⟩

/-- Settles O52: the factor is zero, and so is its product with any number. -/
theorem limiterFloorRelease : Obligations.LimiterFloorRelease := by
  intro s ch x u hu hV he hthr hrelease hx hle
  have hz : F32.IsZero (F32.mul u.envelope u.factor) := by
    rw [LimUnit.factor_floor hrelease]
    exact F32.isZero_mul_right he ⟨isFinite_zero_one.1, units_zero_one.1⟩
  exact exec_limProc_of_isZero hu hV hthr ⟨hx, hle⟩ (isZero_limRelease_of_mul hz)

end
